-- ==== Sys2Proof/Word.lean ====
section
/-! DEFINITION. The word types of the engine: 32-bit data and register words, 64-bit twiddle words (R8, R9). -/

namespace Sys2Proof

/-- One 32-bit word: the only access width, and the width of every register (R8, R64). -/
abbrev Word := BitVec 32

/-- One 64-bit pattern: a binary64 datum of the twiddle ROM (R8, R120). -/
abbrev DWord := BitVec 64

end Sys2Proof
end

