-- ==== Sys2Proof/Syntax.lean ====
section
/-! DEFINITION. The commands: one constructor for each row of spec/opcode_table.json (R92, R97). -/

namespace Sys2Proof

/-- A command (R15, R92). `logn` is the LOGN field, the base-2 logarithm of the transform length; every other operand
is a register the command reads when it runs (R91). -/
inductive Instr where
  /-- NOP (R231). -/
  | nop
  /-- CFFT.F: complex transform, FORWARD (R151). -/
  | cfftF (logn : Nat)
  /-- CFFT.I: complex transform, INVERSE (R151). -/
  | cfftI (logn : Nat)
  /-- RFFT.F: real transform, FORWARD (R171). -/
  | rfftF (logn : Nat)
  /-- RFFT.I: real transform, INVERSE (R171). -/
  | rfftI (logn : Nat)
  /-- CMUL: element-wise complex multiply (R191). -/
  | cmul
  /-- CONV: sparse spectral convolution (R201). -/
  | conv
  /-- PACK: frame packing (R216). -/
  | pack
  /-- XFORM: composite frame transform (R220). -/
  | xform
  /-- KCOMMIT: validate the kernel table, go Ready (R233). -/
  | kcommit
  /-- KFREQ: read back a band's centre frequency (R236). -/
  | kfreq
deriving DecidableEq, Repr

end Sys2Proof
end

