-- ==== Sys2Proof/WellFormed.lean ====
section
/-! DEFINITION. Which terms of `Instr` a command word can express. -/

namespace Sys2Proof

/-- A LOGN field has five bits (R91, R97): 0 to 31. Values above LOGN_MAX are well formed and fault with BAD_LENGTH. -/
def lognFits (logn : Nat) : Bool := decide (logn < 32)

/-- The terms a command word can express: the transform commands with a LOGN that fits, and every other command. -/
def Instr.wellFormed : Instr → Bool
  | .nop => true
  | .cfftF logn => lognFits logn
  | .cfftI logn => lognFits logn
  | .rfftF logn => lognFits logn
  | .rfftI logn => lognFits logn
  | .cmul => true
  | .conv => true
  | .pack => true
  | .xform => true
  | .kcommit => true
  | .kfreq => true

end Sys2Proof
end

