-- ==== Sys2Proof/Decode.lean ====
section
/-! DEFINITION. The command word: its fields, the decoder, and the encoder (30_encoding.md). -/

namespace Sys2Proof

/-- OPC, bits 31:24 (R91). -/
def opcField (w : Word) : BitVec 8 := w.extractLsb' 24 8

/-- RSV1, bits 23:9 (R91). -/
def rsv1Field (w : Word) : BitVec 15 := w.extractLsb' 9 15

/-- DIR, bit 8 (R91, R95): false is FORWARD, true is INVERSE. -/
def dirField (w : Word) : Bool := w.getLsbD 8

/-- RSV0, bits 7:5 (R91). -/
def rsv0Field (w : Word) : BitVec 3 := w.extractLsb' 5 3

/-- LOGN, bits 4:0 (R91). -/
def lognField (w : Word) : BitVec 5 := w.extractLsb' 0 5

/-- Why a command word is illegal (R96). Each of them is fault ILLEGAL_CMD. -/
inductive Illegal where
  /-- A bit of 23:9 or 7:5 is set. -/
  | reservedBits
  /-- OPC is 0x09 to 0xFF. -/
  | opcode
  /-- DIR or LOGN is non-zero in a command that does not use it. -/
  | unusedField
deriving DecidableEq, Repr

/-- The direction-dependent choice of a transform command (R95). -/
def transformInstr (forward inverse : Nat → Instr) (w : Word) : Instr :=
  if dirField w then inverse (lognField w).toNat else forward (lognField w).toNat

/-- A command that uses neither DIR nor LOGN: both must be zero (R91, R96). -/
def plainInstr (i : Instr) (w : Word) : Except Illegal Instr :=
  if dirField w = true ∨ lognField w ≠ 0 then .error .unusedField else .ok i

/-- The opcode map of R92. -/
def decodeOpcode (w : Word) : Except Illegal Instr :=
  match (opcField w).toNat with
  | 0x00 => plainInstr .nop w
  | 0x01 => .ok (transformInstr .cfftF .cfftI w)
  | 0x02 => .ok (transformInstr .rfftF .rfftI w)
  | 0x03 => plainInstr .cmul w
  | 0x04 => plainInstr .conv w
  | 0x05 => plainInstr .pack w
  | 0x06 => plainInstr .xform w
  | 0x07 => plainInstr .kcommit w
  | 0x08 => plainInstr .kfreq w
  | _ => .error .opcode

/-- Step 4 of R93: reserved bits first, then OPC, then the unused fields. Total on every word; it rejects by name. -/
def decode (w : Word) : Except Illegal Instr :=
  if rsv1Field w ≠ 0 ∨ rsv0Field w ≠ 0 then .error .reservedBits else decodeOpcode w

/-- The command word of format C with its reserved fields zero (R91). -/
def commandWord (opc : BitVec 8) (dir : Bool) (logn : Nat) : Word :=
  opc ++ 0#15 ++ BitVec.ofBool dir ++ 0#3 ++ BitVec.ofNat 5 logn

/-- The words of R97 and R99. -/
def encode : Instr → Word
  | .nop => commandWord 0x00 false 0
  | .cfftF logn => commandWord 0x01 false logn
  | .cfftI logn => commandWord 0x01 true logn
  | .rfftF logn => commandWord 0x02 false logn
  | .rfftI logn => commandWord 0x02 true logn
  | .cmul => commandWord 0x03 false 0
  | .conv => commandWord 0x04 false 0
  | .pack => commandWord 0x05 false 0
  | .xform => commandWord 0x06 false 0
  | .kcommit => commandWord 0x07 false 0
  | .kfreq => commandWord 0x08 false 0

/-- The instruction the decoder reads from the bits spec/opcode_table.json numbers: one 32-bit word, every bit at and
above `nbits` zero. -/
def decodeTableWord (nbits w : Nat) : Option Instr :=
  match decode (BitVec.ofNat 32 (w % 2 ^ nbits)) with
  | .ok i => some i
  | .error _ => none

end Sys2Proof
end

