-- ==== Sys2Proof/Machine/Numerics.lean ====
section
/-! DEFINITION. Numeric formats, floating-point primitives, the twiddle ROM and its recurrence (40_numerics.md).

A finite datum of either format is an exact multiple of 2^-1074, the least positive binary64 value, so it is kept as a
sign and a natural number of such units. Every primitive computes the exact result on naturals and rounds once. -/

namespace Sys2Proof.Machine

/-- A floating-point datum while the engine computes with it: `fin neg k` is (-1)^neg · k · 2^-1074, zero keeping its
sign. A NaN has no bits here: R128 leaves its encoding open, and storing one draws it. -/
inductive Fp where
  | nan
  | inf (neg : Bool)
  | fin (neg : Bool) (k : Nat)
deriving DecidableEq, Repr

/-- A format: `prec` significant bits; the least positive value is 2^`least` units and overflow begins at 2^`limit`. -/
structure Format where
  prec : Nat
  least : Nat
  limit : Nat
deriving DecidableEq, Repr

/-- IEEE 754 binary32 (R120): 24 significant bits, least value 2^-149, everything below 2^128. -/
def binary32 : Format := { prec := 24, least := 925, limit := 1202 }

/-- IEEE 754 binary64 (R120): 53 significant bits, least value 2^-1074, everything below 2^1024. -/
def binary64 : Format := { prec := 53, least := 0, limit := 2098 }

/-- `k / 2^t` rounded to the nearest integer, ties to even. -/
def divRoundEven (k t : Nat) : Nat :=
  let q := k >>> t
  let twiceRest := 2 * (k - q <<< t)
  if twiceRest > 2 ^ t ∨ (twiceRest = 2 ^ t ∧ q % 2 = 1) then q + 1 else q

/-- The base-2 logarithm of `k` below the product of the doublings listed, each tried once. -/
def topBitBy : List Nat → Nat → Nat
  | [], _ => 0
  | p :: ps, k => if k < 1 <<< p then topBitBy ps k else p + topBitBy ps (k >>> p)

/-- The index of the highest set bit: `Nat.log2 k` (`Laws.topBit_eq`), found by halving so that numbers of two thousand
bits take a dozen comparisons. -/
def topBit (k : Nat) : Nat :=
  if k < 1 <<< 8192 then topBitBy [4096, 2048, 1024, 512, 256, 128, 64, 32, 16, 8, 4, 2, 1] k else Nat.log2 k

/-- The weight, as a power of two of 2^-(1074 + sh), of the last place kept when `k` such parts are rounded. -/
def lastPlace (f : Format) (k sh : Nat) : Nat := max (topBit k + 1 - f.prec) (sh + f.least)

/-- roundTiesToEven of the real number (-1)^neg · k · 2^-(1074 + sh) to the format (R122, R123): gradual underflow,
overflow to infinity, sign kept. -/
def roundTo (f : Format) (neg : Bool) (k sh : Nat) : Fp :=
  let t := lastPlace f k sh
  let r := divRoundEven k t <<< (t - sh)
  if r < 2 ^ f.limit then .fin neg r else .inf neg

/-- Sign inversion (R124): exact, on zeros and infinities too. -/
def Fp.neg : Fp → Fp
  | .nan => .nan
  | .inf n => .inf !n
  | .fin n k => .fin (!n) k

/-- Addition in a format (R123, R125): an exact zero sum of operands of opposite sign is +0. -/
def Fp.add (f : Format) : Fp → Fp → Fp
  | .nan, _ => .nan
  | _, .nan => .nan
  | .inf a, .inf b => if a = b then .inf a else .nan
  | .inf a, .fin _ _ => .inf a
  | .fin _ _, .inf b => .inf b
  | .fin a j, .fin b k =>
    if a = b then roundTo f a (j + k) 0
    else if j = k then .fin false 0
    else if k < j then roundTo f a (j - k) 0
    else roundTo f b (k - j) 0

/-- Multiplication in a format (R123, R125): the sign is the exclusive-or, 0 · infinity is NaN. -/
def Fp.mul (f : Format) : Fp → Fp → Fp
  | .nan, _ => .nan
  | _, .nan => .nan
  | .inf a, .inf b => .inf (a ^^ b)
  | .inf a, .fin b k => if k = 0 then .nan else .inf (a ^^ b)
  | .fin a j, .inf b => if j = 0 then .nan else .inf (a ^^ b)
  | .fin a j, .fin b k => roundTo f (a ^^ b) (j * k) 1074

/-- `add32` (R123). -/
def add32 (a b : Fp) : Fp := a.add binary32 b

/-- `sub32(a, b)` is a − b (R123). -/
def sub32 (a b : Fp) : Fp := a.add binary32 b.neg

/-- `mul32` (R123). -/
def mul32 (a b : Fp) : Fp := a.mul binary32 b

/-- `neg32` (R124). -/
def neg32 (a : Fp) : Fp := a.neg

/-- `add64` (R125). -/
def add64 (a b : Fp) : Fp := a.add binary64 b

/-- `sub64(c, d)` is c − d (R125). -/
def sub64 (a b : Fp) : Fp := a.add binary64 b.neg

/-- `mul64` (R125). -/
def mul64 (a b : Fp) : Fp := a.mul binary64 b

/-- `neg64` (R124). -/
def neg64 (a : Fp) : Fp := a.neg

/-- `to64` (R121): exact, so the value is the same datum. -/
def to64 (a : Fp) : Fp := a

/-- `round32` (R122). -/
def round32 : Fp → Fp
  | .nan => .nan
  | .inf n => .inf n
  | .fin n k => roundTo binary32 n k 0

/-- `scale32(a, n)`: the binary32 value nearest to a · 2^-n (R126). -/
def scale32 (n : Nat) : Fp → Fp
  | .nan => .nan
  | .inf s => .inf s
  | .fin s k => roundTo binary32 s k n

/-- The datum a binary32 interchange encoding stands for (R63, R120). -/
def decode32 (w : Word) : Fp :=
  let neg := w.getLsbD 31
  let e := w.toNat / 2 ^ 23 % 2 ^ 8
  let frac := w.toNat % 2 ^ 23
  if e = 255 then (if frac = 0 then .inf neg else .nan)
  else if e = 0 then .fin neg (frac * 2 ^ 925)
  else .fin neg ((2 ^ 23 + frac) * 2 ^ (924 + e))

/-- The encoding of a binary32 datum; `nanBits` is the encoding a NaN takes (R63, R128). -/
def encode32 (nanBits : Word) : Fp → Word
  | .nan => nanBits
  | .inf neg => BitVec.ofBool neg ++ 0xFF#8 ++ 0#23
  | .fin neg k =>
    let u := k / 2 ^ 925
    if u < 2 ^ 23 then BitVec.ofBool neg ++ 0#8 ++ BitVec.ofNat 23 u
    else
      let e := topBit u - 22
      BitVec.ofBool neg ++ BitVec.ofNat 8 e ++ BitVec.ofNat 23 (u / 2 ^ (e - 1))

/-- The datum a binary64 interchange encoding stands for (R120). -/
def decode64 (w : DWord) : Fp :=
  let neg := w.getLsbD 63
  let e := w.toNat / 2 ^ 52 % 2 ^ 11
  let frac := w.toNat % 2 ^ 52
  if e = 2047 then (if frac = 0 then .inf neg else .nan)
  else if e = 0 then .fin neg frac
  else .fin neg ((2 ^ 52 + frac) * 2 ^ (e - 1))

/-- The encoding of a binary64 datum; `nanBits` is the encoding a NaN takes. No command stores one: R135 lists the
recurrence's values by their encodings. -/
def encode64 (nanBits : DWord) : Fp → DWord
  | .nan => nanBits
  | .inf neg => BitVec.ofBool neg ++ 0x7FF#11 ++ 0#52
  | .fin neg k =>
    if k < 2 ^ 52 then BitVec.ofBool neg ++ 0#11 ++ BitVec.ofNat 52 k
    else
      let e := topBit k - 51
      BitVec.ofBool neg ++ BitVec.ofNat 11 e ++ BitVec.ofNat 52 (k / 2 ^ (e - 1))

/-- The encoding of binary32 +0.0 (R130). -/
def zeroWord : Word := 0x00000000

/-- binary32 and binary64 +0.0 (R130). -/
def fpZero : Fp := .fin false 0

/-- binary64 1.0 (R130). -/
def fpOne : Fp := .fin false (2 ^ 1074)

/-- binary32 0.5 (R130). -/
def fpHalf : Fp := .fin false (2 ^ 1073)

end Sys2Proof.Machine
end

