-- ==== Sys2Proof/Config.lean ====
section
/-! DEFINITION. What one implementation fixes (the parameters of R7) and the free values: constants without a body, so
that nothing in Lean can evaluate them, for everything the spec leaves unspecified. -/

namespace Sys2Proof.Config

/-- The open implementation parameters (R7). They are an argument of the model: `State` carries them, no step changes
them, and every statement is for every value of them. -/
structure Params where
  /-- LOGN_MAX: the largest base-2 logarithm of a transform length. -/
  lognMax : Nat
  /-- KMAX: the number of kernel descriptors KTAB holds. -/
  kmax : Nat
  /-- KDW: the words of KDAT. -/
  kdw : Nat
  /-- INW: the words of IN. -/
  inw : Nat
  /-- OUTW: the words of OUT. -/
  outw : Nat
deriving DecidableEq, Repr

/-- NMAX = 2^LOGN_MAX (R7). -/
def Params.nmax (p : Params) : Nat := 2 ^ p.lognMax

/-- BUFW = 2·NMAX: the words of BUF (R7, R30). -/
def Params.bufw (p : Params) : Nat := 2 * p.nmax

/-- The words of KTAB: four for each descriptor (R33). -/
def Params.ktabw (p : Params) : Nat := 4 * p.kmax

/-- The constraint column of R7. -/
abbrev Params.Valid (p : Params) : Prop :=
  (1 ≤ p.lognMax ∧ p.lognMax ≤ 24) ∧ (1 ≤ p.kmax ∧ p.kmax ≤ 2 ^ 16) ∧ (2 ≤ p.kdw ∧ p.kdw ≤ 2 ^ 28) ∧
    (p.nmax ≤ p.inw ∧ p.inw ≤ 2 ^ 28) ∧ (p.kmax ≤ p.outw ∧ p.outw ≤ 2 ^ 28)

/-- The "recommended" column of R7. Only `State.reset` names it; DESIGN CHOICE, assumption 1. -/
def recommended : Params :=
  { lognMax := 12, kmax := 256, kdw := 65536, inw := 8192, outw := 512 }

/-- The five memories the host reaches (R20, R60). TWROM is constant and is no part of the state. -/
inductive Space where
  | buf
  | inp
  | out
  | ktab
  | kdat
deriving DecidableEq, Repr

/-- How many words a memory has (R20). -/
def Params.size (p : Params) : Space → Nat
  | .buf => p.bufw
  | .inp => p.inw
  | .out => p.outw
  | .ktab => p.ktabw
  | .kdat => p.kdw

/-- FREE VALUE (R67, R292): what word `i` of a memory holds from power-on number `boot` until it is written. -/
opaque powerOnWord (boot : Nat) (sp : Space) (i : Nat) : Word

/-- FREE VALUE (R128): the sign of the NaN that arithmetic pass number `draw` leaves in word `i` of a memory. -/
opaque nanSign (draw : Nat) (sp : Space) (i : Nat) : Bool

/-- FREE VALUE (R128): the fraction field, less one, of that NaN; 8388607 = 2^23 - 1, so every non-zero fraction
can occur. -/
opaque nanFraction (draw : Nat) (sp : Space) (i : Nat) : Fin 8388607

/-- The NaN encoding stored: exponent field all ones, fraction non-zero, both open fields drawn freely (R128). -/
def nanWord (draw : Nat) (sp : Space) (i : Nat) : Word :=
  BitVec.ofBool (nanSign draw sp i) ++ 0xFF#8 ++ BitVec.ofNat 23 ((nanFraction draw sp i).val + 1)

/-- FREE VALUE (R290): what RES holds when reset number `boot` has abandoned a running command. -/
opaque abandonedRes (boot : Nat) : Word

/-- FREE VALUE: the ROM row the spec does not list (R132 ends at row 24). No machine within R7 reads one. -/
opaque unlistedSeed (s : Nat) : DWord × DWord

end Sys2Proof.Config
end

