-- ==== Sys2Proof/Machine/State.lean ====
section
/-! DEFINITION. The state of the machine, why a step can stop, and the state right after reset. -/

namespace Sys2Proof.Machine

open Sys2Proof.Config

/-- One word of a memory that has been written: its word index and what it holds. The spec's smallest accessible unit is
the 32-bit word and no byte order exists in it (R62, R64), so a cell is a word; assumption 2. -/
abbrev WordCell := Nat × Word

/-- A memory (R20). `cells` lists exactly the words written since power-on, indices strictly rising; a word that is not
listed has no value of its own and reads as the free value `Config.powerOnWord boot space` (R67, R292). -/
structure Mem where
  /-- Which memory it is. -/
  space : Space
  /-- Which power-on its unwritten words come from: the model's own counter, one more at each reset. -/
  boot : Nat
  cells : List WordCell
deriving DecidableEq, Repr

/-- What one host does to the engine (R15, R60, R64, R290). The host's sequence of these is the machine's input. -/
inductive HostAction where
  /-- A write of one word to a word address of the window. -/
  | write (addr value : Word)
  /-- A read of the word at a word address of the window. -/
  | read (addr : Word)
  /-- A byte, half-word or burst access that the platform forwards although it must not (R64). -/
  | narrow (addr : Word)
  /-- The reset event (R290). -/
  | reset
deriving DecidableEq, Repr

/-- The state. The engine's own state is that of R20 and R24; the last five fields are the model's, not the spec's. -/
structure State where
  /-- STATUS.BUSY (R26). -/
  busy : Bool
  /-- STATUS.READY (R26): false is Stale, true is Ready. -/
  ready : Bool
  /-- STATUS.ERR (R26). -/
  err : Bool
  /-- ERRCODE.CODE (R27). -/
  errCode : BitVec 4
  /-- ERRINFO (R27). -/
  errInfo : Word
  /-- CFG_LOGN.LOGN (R28). -/
  cfgLogn : BitVec 5
  /-- CFG_NUMK (R28). -/
  cfgNumk : Word
  /-- OPA (R21). -/
  opa : Word
  /-- OPB (R21). -/
  opb : Word
  /-- OPD (R21). -/
  opd : Word
  /-- LEN (R21). -/
  len : Word
  /-- IDX (R21). -/
  idx : Word
  /-- RES (R29). -/
  res : Word
  /-- INOFF (R21). -/
  inoff : Word
  /-- INLEN (R21). -/
  inlen : Word
  /-- OUTOFF (R21). -/
  outoff : Word
  /-- BUF (R30). -/
  buf : Mem
  /-- IN (R31). -/
  inp : Mem
  /-- OUT (R32). -/
  out : Mem
  /-- KTAB (R33). -/
  ktab : Mem
  /-- KDAT (R34). -/
  kdat : Mem
  /-- The implementation parameters of R7: the model's argument. -/
  params : Params
  /-- What the host is going to do, the next action first: the model's input. -/
  host : List HostAction
  /-- What the host's most recent read returned; none before the first. -/
  lastRead : Option Word
  /-- How many arithmetic passes have run: which free NaN encodings the next one takes (R128). -/
  draws : Nat
  /-- How many resets have happened: which unspecified memory contents are in place (R292). -/
  boots : Nat
deriving DecidableEq, Repr

/-- Why the machine stops with a fault: never. Every fault of this engine is recorded in STATUS, ERRCODE and ERRINFO and
the machine goes on (R250, R262), so it is a next state. -/
inductive Fault where
deriving DecidableEq, Repr

/-- Why a step has no meaning. -/
inductive Refusal where
  /-- Raised by `exec` for an instruction without a meaning yet (none is left). Safe. -/
  | notModelled (mnemonic : String)
  /-- Raised by a host access other than reading STATUS while STATUS.BUSY = 1: "this spec gives no behaviour and a model
  gives the access no move" (R315, R316, U3). No step leaves BUSY = 1. Safe. -/
  | accessWhileBusy
  /-- Raised by a byte, half-word or burst access: "a model refuses it" (R64, U7). Safe. -/
  | narrowAccess
deriving DecidableEq, Repr

/-- A memory nothing has written since power-on number `boot` (R292). -/
def Mem.unwritten (space : Space) (boot : Nat) : Mem := { space := space, boot := boot, cells := [] }

/-- The machine right after reset (R290, R291, R292). The parameters are the recommended ones of R7 (assumption 1), and
no host action is pending. -/
def State.reset : State :=
  { busy := false, ready := false, err := false, errCode := 0, errInfo := 0,
    cfgLogn := 0, cfgNumk := 0, opa := 0, opb := 0, opd := 0, len := 0, idx := 0, res := 0,
    inoff := 0, inlen := 0, outoff := 0,
    buf := Mem.unwritten .buf 0, inp := Mem.unwritten .inp 0, out := Mem.unwritten .out 0,
    ktab := Mem.unwritten .ktab 0, kdat := Mem.unwritten .kdat 0,
    params := recommended, host := [], lastRead := none, draws := 0, boots := 0 }

end Sys2Proof.Machine
end

