-- ==== Sys2Proof/Machine/Ops.lean ====
section
/-! DEFINITION. The named operations every meaning is built of: words of a memory, loops, ending a command, and taking and
clearing a fault. -/

namespace Sys2Proof.Machine

open Sys2Proof.Config

/-- What a list of cells says of word `i`. -/
def cellAt (i : Nat) : List WordCell → Option Word
  | [] => none
  | c :: rest => if c.1 = i then some c.2 else cellAt i rest

/-- The list with word `i` holding `v`: in place, or inserted where the indices stay rising. -/
def setCell (i : Nat) (v : Word) : List WordCell → List WordCell
  | [] => [(i, v)]
  | c :: rest =>
    if c.1 < i then c :: setCell i v rest
    else if c.1 = i then (i, v) :: rest
    else (i, v) :: c :: rest

/-- `MemRead` (R10): the word last written there, or what the memory has held since power-on (R67). -/
def Mem.read (m : Mem) (i : Nat) : Word := (cellAt i m.cells).getD (powerOnWord m.boot m.space i)

/-- `MemWrite` (R10). -/
def Mem.write (m : Mem) (i : Nat) (v : Word) : Mem := { m with cells := setCell i v m.cells }

/-- The word as the binary32 datum it encodes (R11, R63). -/
def Mem.load (m : Mem) (i : Nat) : Fp := decode32 (m.read i)

/-- The encoding pass number `draw` leaves at word `i`: fully specified, but for a NaN, whose encoding is free (R128). -/
def Mem.storeBits (m : Mem) (draw i : Nat) (x : Fp) : Word := encode32 (nanWord draw m.space i) x

/-- A binary32 result stored by arithmetic pass number `draw`. -/
def Mem.store (m : Mem) (draw i : Nat) (x : Fp) : Mem := m.write i (m.storeBits draw i x)

/-- `cells` has its indices strictly rising. -/
def cellsRising : List WordCell → Bool
  | [] => true
  | [_] => true
  | a :: b :: rest => decide (a.1 < b.1) && cellsRising (b :: rest)

/-- The canonical form of a memory: equal contents are equal lists. -/
def Mem.wf (m : Mem) : Bool := cellsRising m.cells

/-- No cell lies at or beyond `size`: the memory has no such word (R60). -/
def Mem.within (m : Mem) (size : Nat) : Bool := m.cells.all fun c => decide (c.1 < size)

/-- `for i = 0 .. n − 1`, ascending (R9). -/
def loop {α : Type} : Nat → (Nat → α → α) → α → α
  | 0, _, a => a
  | n + 1, f, a => f n (loop n f a)

/-- `for i = n − 1 .. 0`, descending. -/
def loopDown {α : Type} : Nat → (Nat → α → α) → α → α
  | 0, _, a => a
  | n + 1, f, a => loopDown n f (f n a)

/-- The first index below `n` at which `p` holds. -/
def firstIndex (p : Nat → Bool) : Nat → Option Nat
  | 0 => none
  | n + 1 =>
    match firstIndex p n with
    | some k => some k
    | none => if p n then some n else none

/-- One of the five memories (R20). -/
def State.mem (s : State) : Space → Mem
  | .buf => s.buf
  | .inp => s.inp
  | .out => s.out
  | .ktab => s.ktab
  | .kdat => s.kdat

/-- The state with one of its memories replaced. -/
def State.setMem (s : State) (sp : Space) (m : Mem) : State :=
  match sp with
  | .buf => { s with buf := m }
  | .inp => { s with inp := m }
  | .out => { s with out := m }
  | .ktab => { s with ktab := m }
  | .kdat => { s with kdat := m }

/-- The fault codes (R251). -/
inductive FaultCode where
  | illegalCmd
  | badLength
  | notReady
  | range
  | badConfig
  | badKernel
deriving DecidableEq, Repr

/-- CODE of a fault (R251). -/
def FaultCode.bits : FaultCode → BitVec 4
  | .illegalCmd => 1
  | .badLength => 2
  | .notReady => 3
  | .range => 4
  | .badConfig => 5
  | .badKernel => 6

/-- `raise Fault(code, info)` (R262): it records the fault, ends the command and changes nothing else. -/
def State.raiseFault (s : State) (code : FaultCode) (info : Word) : State :=
  { s with errCode := code.bits, errInfo := info, err := true, busy := false }

/-- Return from a fault: the effect of a write to ERRCLR (R27, R266). -/
def State.clearFault (s : State) : State := { s with err := false, errCode := 0, errInfo := 0 }

/-- Acceptance of a command: step 3 of R93. -/
def State.accept (s : State) : State := { s with busy := true }

/-- Completion of a command: step 6 of R93. -/
def State.finish (s : State) : State := { s with busy := false }

/-- One arithmetic pass has run; the next takes fresh NaN encodings (R128). -/
def State.nextDraw (s : State) : State := { s with draws := s.draws + 1 }

/-- A command that ends without a fault. -/
def complete (s : State) : Host.Outcome State Fault Refusal := .next s.finish

/-- A command that ends with a fault. -/
def faulted (code : FaultCode) (info : Word) (s : State) : Host.Outcome State Fault Refusal :=
  .next (s.raiseFault code info)

/-- The reset event (R290, R291, R292): every register and flag takes its reset value, the memories hold unspecified
words, and a command that was running is abandoned, which leaves RES unspecified too. -/
def State.afterReset (s : State) : State :=
  let boot := s.boots + 1
  { State.reset with
    res := if s.busy then abandonedRes boot else 0
    buf := Mem.unwritten .buf boot
    inp := Mem.unwritten .inp boot
    out := Mem.unwritten .out boot
    ktab := Mem.unwritten .ktab boot
    kdat := Mem.unwritten .kdat boot
    params := s.params
    host := s.host
    lastRead := s.lastRead
    draws := s.draws
    boots := boot }

end Sys2Proof.Machine
end

