-- ==== Sys2Proof/Machine/Operands.lean ====
section
/-! DEFINITION. The operands of the commands: directions, range checks, descriptors, the frame size, and the twiddle ROM. -/

namespace Sys2Proof.Machine

open Sys2Proof.Config

/-- The direction of a transform (R13, R95). -/
inductive Direction where
  | forward
  | inverse
deriving DecidableEq, Repr

/-- A range check, `base + count ≤ size`, on unbounded integers (R104). -/
def rangeFits (base count size : Nat) : Bool := decide (base + count ≤ size)

/-- fftSize = 2^CFG_LOGN (R15, R28). -/
def State.fftSize (s : State) : Nat := 2 ^ s.cfgLogn.toNat

/-- A kernel descriptor (R33, R98): its integer fields enter as unbounded integers (R104). -/
structure Descriptor where
  off : Nat
  len : Nat
  ptr : Nat
  cf : Word
deriving DecidableEq, Repr

/-- Descriptor `k`: words 4k to 4k+3 of KTAB (R33). -/
def descriptor (ktab : Mem) (k : Nat) : Descriptor :=
  { off := (ktab.read (4 * k)).toNat
    len := (ktab.read (4 * k + 1)).toNat
    ptr := (ktab.read (4 * k + 2)).toNat
    cf := ktab.read (4 * k + 3) }

/-- The four conditions of KCOMMIT on one descriptor, for frame size `F` (R233). -/
def Descriptor.legal (d : Descriptor) (fftSize kdw : Nat) : Bool :=
  decide (d.len % 2 = 0) && decide (d.len ≤ fftSize) && rangeFits d.off d.len (fftSize + 2) && rangeFits d.ptr d.len kdw

/-- The input samples PACK and XFORM declare lie in IN: range check 4 (R216, R220, R251). -/
def State.inputFits (s : State) : Bool := rangeFits s.inoff.toNat s.inlen.toNat s.params.inw

/-- The band powers CONV and XFORM store lie in OUT: range check 5 (R201, R220, R251). -/
def State.outputFits (s : State) : Bool := rangeFits s.outoff.toNat s.cfgNumk.toNat s.params.outw

/-- A seed pair of the twiddle ROM (R35). -/
structure Seed where
  wpr : Fp
  wpi : Fp
deriving DecidableEq, Repr

/-- A twiddle: the pair the recurrence produces (R15). -/
structure Twiddle where
  wr : Fp
  wi : Fp
deriving DecidableEq, Repr

/-- TWROM rows 1 to 12, (WPR, WPI) (R132). -/
def romLow : List (DWord × DWord) :=
  [(0xC000000000000000, 0x0000000000000000), (0xBFF0000000000000, 0x3FF0000000000000),
   (0xBFD2BEC333018867, 0x3FE6A09E667F3BCD), (0xBFB37CA1866B95CF, 0x3FD87DE2A6AEA963),
   (0xBF93AD06011469FB, 0x3FC8F8B83C69A60B), (0xBF73B92E176D6D31, 0x3FB917A6BC29B42C),
   (0xBF53BC390D250439, 0x3FA91F65F10DD814), (0xBF33BCFBD9979A27, 0x3F992155F7A3667E),
   (0xBF13BD2C8DA49511, 0x3F8921D1FCDEC784), (0xBEF3BD38BAB6D94C, 0x3F7921F0FE670071),
   (0xBED3BD3BC5FC5AB4, 0x3F6921F8BECCA4BA), (0xBEB3BD3C88CDCA13, 0x3F5921FAAEE6472E)]

/-- TWROM rows 13 to 24 (R132). -/
def romHigh : List (DWord × DWord) :=
  [(0xBE93BD3CB98226DC, 0x3F4921FB2AECB360), (0xBE73BD3CC5AF3E1D, 0x3F3921FB49EE4EA6),
   (0xBE53BD3CC8BA83EE, 0x3F2921FB51AEB57C), (0xBE33BD3CC97D5562, 0x3F1921FB539ECF31),
   (0xBE13BD3CC9AE09BF, 0x3F0921FB541AD59E), (0xBDF3BD3CC9BA36D7, 0x3EF921FB5439D73A),
   (0xBDD3BD3CC9BD421C, 0x3EE921FB544197A1), (0xBDB3BD3CC9BE04EE, 0x3ED921FB544387BA),
   (0xBD93BD3CC9BE35A2, 0x3EC921FB544403C1), (0xBD73BD3CC9BE41CF, 0x3EB921FB544422C2),
   (0xBD53BD3CC9BE44DB, 0x3EA921FB54442A83), (0xBD33BD3CC9BE459D, 0x3E9921FB54442C73)]

/-- The words of TWROM row `s` (R132). The table starts at row 1; a row it does not list is a free value. -/
def romRow (s : Nat) : DWord × DWord :=
  if s = 0 then unlistedSeed 0 else ((romLow ++ romHigh)[s - 1]?).getD (unlistedSeed s)

/-- The seed a command uses for row `s`: WPI is negated for INVERSE (R131, R156, R173). -/
def seed (s : Nat) (dir : Direction) : Seed :=
  let row := romRow s
  { wpr := decode64 row.1
    wpi := match dir with
      | .forward => decode64 row.2
      | .inverse => neg64 (decode64 row.2) }

/-- The recurrence step, its operations in the order of R134; both components use the old twiddle. -/
def wstep (w : Twiddle) (p : Seed) : Twiddle :=
  { wr := add64 (sub64 (mul64 w.wr p.wpr) (mul64 w.wi p.wpi)) w.wr
    wi := add64 (add64 (mul64 w.wi p.wpr) (mul64 w.wr p.wpi)) w.wi }

end Sys2Proof.Machine
end

