-- ==== Sys2Proof/Machine/Convolution.lean ====
section
/-! DEFINITION. CONV: the sparse spectral convolution (44_conv.md). -/

namespace Sys2Proof.Machine

/-- The two accumulators of a band (R202). -/
structure Accumulator where
  f1 : Fp
  f2 : Fp
deriving DecidableEq, Repr

/-- One bin: its contribution is formed completely and then added (R202). -/
def accumulateBin (buf kdat : Mem) (off ptr b : Nat) (acc : Accumulator) : Accumulator :=
  let xr := buf.load (off + 2 * b)
  let xi := buf.load (off + 2 * b + 1)
  let kr := kdat.load (ptr + 2 * b)
  let ki := kdat.load (ptr + 2 * b + 1)
  { f1 := add32 acc.f1 (sub32 (mul32 xr kr) (mul32 xi ki))
    f2 := add32 acc.f2 (add32 (mul32 xr ki) (mul32 xi kr)) }

/-- `accumulate(off, len, ptr)` (R202): j = 0, 2, .., len − 2 is bin j/2, in ascending order from +0.0. -/
def accumulate (buf kdat : Mem) (off len ptr : Nat) : Accumulator :=
  loop (len / 2) (accumulateBin buf kdat off ptr) { f1 := fpZero, f2 := fpZero }

/-- The squared magnitude a band outputs (R201). -/
def Accumulator.power (acc : Accumulator) : Fp := add32 (mul32 acc.f1 acc.f1) (mul32 acc.f2 acc.f2)

/-- The power of the band of descriptor `d` (R201). -/
def bandPower (buf kdat : Mem) (d : Descriptor) : Fp := (accumulate buf kdat d.off d.len d.ptr).power

/-- The band loop of R201: band `k` stores word `outoff + k` of OUT. -/
def convBands (draw : Nat) (buf ktab kdat : Mem) (outoff numk : Nat) (out : Mem) : Mem :=
  loop numk (fun k m => m.store draw (outoff + k) (bandPower buf kdat (descriptor ktab k))) out

/-- CONV as a change of state, without its checks: also the last step of XFORM (R220). -/
def State.convOut (s : State) : State :=
  { s with out := convBands s.draws s.buf s.ktab s.kdat s.outoff.toNat s.cfgNumk.toNat s.out }.nextDraw

/-- CONV (R201): READY, then range check 5. -/
def execConv (s : State) : Host.Outcome State Fault Refusal :=
  if s.ready = false then faulted .notReady (encode .conv) s
  else if s.outputFits = false then faulted .range 5 s
  else complete s.convOut

end Sys2Proof.Machine
end

