-- ==== Sys2Proof/Machine/Fourier.lean ====
section
/-! DEFINITION. CFFT and RFFT: the complex transform and the real transform (41_cfft.md, 42_rfft.md). -/

namespace Sys2Proof.Machine

/-- `rev_n(i)`: the n-bit number `i` read backwards (R154). -/
def bitrev : Nat → Nat → Nat
  | 0, _ => 0
  | n + 1, i => i % 2 * 2 ^ n + bitrev n (i / 2)

/-- Exchanges complex samples `i` and `j`, whole words, no arithmetic (R154). -/
def swapSamples (i j : Nat) (m : Mem) : Mem :=
  (((m.write (2 * i) (m.read (2 * j))).write (2 * j) (m.read (2 * i))).write
    (2 * i + 1) (m.read (2 * j + 1))).write (2 * j + 1) (m.read (2 * i + 1))

/-- `bitrev_permute(n)` (R154). -/
def bitrevPermute (n : Nat) (m : Mem) : Mem :=
  loop (2 ^ n) (fun i m => if i < bitrev n i then swapSamples i (bitrev n i) m else m) m

/-- `butterfly(i, j, wr, wi)` (R158), its stores by arithmetic pass `draw`. -/
def butterfly (draw i j : Nat) (w : Twiddle) (m : Mem) : Mem :=
  let ar := to64 (m.load (2 * j))
  let ai := to64 (m.load (2 * j + 1))
  let tr := round32 (sub64 (mul64 w.wr ar) (mul64 w.wi ai))
  let ti := round32 (add64 (mul64 w.wr ai) (mul64 w.wi ar))
  let xr := m.load (2 * i)
  let xi := m.load (2 * i + 1)
  (((m.store draw (2 * j) (sub32 xr tr)).store draw (2 * j + 1) (sub32 xi ti)).store draw (2 * i) (add32 xr tr)).store
    draw (2 * i + 1) (add32 xi ti)

/-- The twiddle every stage starts from: (1.0, +0.0) (R156). -/
def stageStart : Twiddle := { wr := fpOne, wi := fpZero }

/-- The butterflies of twiddle index `mi` in every block of stage `s`, all with one twiddle (R157). -/
def stageIndex (draw s n mi : Nat) (w : Twiddle) (m : Mem) : Mem :=
  let h := 2 ^ (s - 1)
  loop (2 ^ n / (2 * h)) (fun g m => butterfly draw (g * (2 * h) + mi) (g * (2 * h) + mi + h) w m) m

/-- `stage(s, n, DIR)` (R157): twiddle indices ascending, the twiddle advanced once after each. -/
def stage (draw s n : Nat) (dir : Direction) (m : Mem) : Mem :=
  (loop (2 ^ (s - 1)) (fun mi (st : Mem × Twiddle) =>
    (stageIndex draw s n mi st.2 st.1, wstep st.2 (seed s dir))) (m, stageStart)).1

/-- Inverse scaling of words 0 to 2·2^n − 1 (R159). -/
def scaleAll (draw n : Nat) (m : Mem) : Mem :=
  loop (2 * 2 ^ n) (fun t m => m.store draw t (scale32 n (m.load t))) m

/-- CFFT's pseudocode without its check, `cfft_core(n, DIR)` (R151, R171). -/
def cfftCore (draw n : Nat) (dir : Direction) (m : Mem) : Mem :=
  let m := loop n (fun t m => stage draw (t + 1) n dir m) (bitrevPermute n m)
  match dir with
  | .forward => m
  | .inverse => scaleAll draw n m

/-- The factor c2 of the split pass: −0.5 forward, +0.5 inverse (R173). -/
def splitFactor : Direction → Fp
  | .forward => neg32 fpHalf
  | .inverse => fpHalf

/-- One iteration of the split pass: bins `k` and M − k of a transform of L = 2^n real points (R173). All four words are
read before any is written. -/
def splitPair (draw n k : Nat) (dir : Direction) (w : Twiddle) (m : Mem) : Mem :=
  let i3 := 2 ^ n - 2 * k
  let a1 := m.load (2 * k)
  let a2 := m.load (2 * k + 1)
  let a3 := m.load i3
  let a4 := m.load (i3 + 1)
  let h1r := mul32 fpHalf (add32 a1 a3)
  let h1i := mul32 fpHalf (sub32 a2 a4)
  let h2r := mul32 (neg32 (splitFactor dir)) (add32 a2 a4)
  let h2i := mul32 (splitFactor dir) (sub32 a1 a3)
  let m := m.store draw (2 * k)
    (round32 (sub64 (add64 (to64 h1r) (mul64 w.wr (to64 h2r))) (mul64 w.wi (to64 h2i))))
  let m := m.store draw (2 * k + 1)
    (round32 (add64 (add64 (to64 h1i) (mul64 w.wr (to64 h2i))) (mul64 w.wi (to64 h2r))))
  let m := m.store draw i3
    (round32 (add64 (sub64 (to64 h1r) (mul64 w.wr (to64 h2r))) (mul64 w.wi (to64 h2i))))
  m.store draw (i3 + 1)
    (round32 (add64 (add64 (to64 (neg32 h1i)) (mul64 w.wr (to64 h2i))) (mul64 w.wi (to64 h2r))))

/-- The first twiddle of the split pass, that of k = 1 (R173). -/
def splitStart (p : Seed) : Twiddle := { wr := add64 fpOne p.wpr, wi := p.wpi }

/-- `split_pass(n, DIR)` (R173): k = 1 .. M/2 − 1 with M = 2^n / 2. -/
def splitPass (draw n : Nat) (dir : Direction) (m : Mem) : Mem :=
  let p := seed n dir
  (loop (2 ^ n / 2 / 2 - 1) (fun t (st : Mem × Twiddle) =>
    (splitPair draw n (t + 1) dir st.2 st.1, wstep st.2 p)) (m, splitStart p)).1

/-- The first words of RFFT(FORWARD, n): "zeroes the trailing two slots itself" (R171, R175). -/
def zeroTail (n : Nat) (m : Mem) : Mem := (m.write (2 ^ n) zeroWord).write (2 ^ n + 1) zeroWord

/-- The last words of RFFT(FORWARD, n): X[0], the Nyquist value X[M], and Im X[0] = +0.0 (R171). -/
def packEnds (draw n : Nat) (m : Mem) : Mem :=
  let t := m.load 0
  let m := m.store draw 0 (add32 t (m.load 1))
  let m := m.store draw (2 ^ n) (sub32 t (m.load 1))
  m.write 1 zeroWord

/-- The first words of RFFT(INVERSE, n): Z[0] from X[0] and X[M]; word 1 is not read (R171). -/
def unpackEnds (draw n : Nat) (m : Mem) : Mem :=
  let t := m.load 0
  let m := m.store draw 0 (mul32 fpHalf (add32 t (m.load (2 ^ n))))
  m.store draw 1 (mul32 fpHalf (sub32 t (m.load (2 ^ n))))

/-- RFFT without its check (R171): L = 2^n real points through a complex transform of L/2. -/
def rfftCore (draw n : Nat) (dir : Direction) (m : Mem) : Mem :=
  match dir with
  | .forward => packEnds draw n (splitPass draw n .forward (cfftCore draw (n - 1) .forward (zeroTail n m)))
  | .inverse => cfftCore draw (n - 1) .inverse (splitPass draw n .inverse (unpackEnds draw n m))

/-- CFFT for both directions: the check of R151, then the transform of BUF. -/
def runCfft (dir : Direction) (n : Nat) (w : Word) (s : State) : Host.Outcome State Fault Refusal :=
  if s.params.lognMax < n then faulted .badLength w s
  else complete { s with buf := cfftCore s.draws n dir s.buf }.nextDraw

/-- RFFT of BUF as a change of state, without its check: also the second step of XFORM (R220). -/
def State.rfftBuf (s : State) (dir : Direction) (n : Nat) : State :=
  { s with buf := rfftCore s.draws n dir s.buf }.nextDraw

/-- RFFT for both directions: the check of R171, then the transform of BUF. -/
def runRfft (dir : Direction) (n : Nat) (w : Word) (s : State) : Host.Outcome State Fault Refusal :=
  if n = 0 ∨ s.params.lognMax < n then faulted .badLength w s
  else complete (s.rfftBuf dir n)

/-- CFFT.F (R151). -/
def execCfftF (logn : Nat) (s : State) : Host.Outcome State Fault Refusal :=
  runCfft .forward logn (encode (.cfftF logn)) s

/-- CFFT.I (R151). -/
def execCfftI (logn : Nat) (s : State) : Host.Outcome State Fault Refusal :=
  runCfft .inverse logn (encode (.cfftI logn)) s

/-- RFFT.F (R171). -/
def execRfftF (logn : Nat) (s : State) : Host.Outcome State Fault Refusal :=
  runRfft .forward logn (encode (.rfftF logn)) s

/-- RFFT.I (R171). -/
def execRfftI (logn : Nat) (s : State) : Host.Outcome State Fault Refusal :=
  runRfft .inverse logn (encode (.rfftI logn)) s

end Sys2Proof.Machine
end

