-- ==== Sys2Proof/Machine/Frame.lean ====
section
/-! DEFINITION. PACK and XFORM: frame packing and the composite frame transform (45_frame.md). -/

namespace Sys2Proof.Machine

/-- One word copied into BUF when it is available, +0.0 otherwise (R216). -/
def packWord (inp : Mem) (dst src : Nat) (available : Bool) (buf : Mem) : Mem :=
  buf.write dst (if available then inp.read src else zeroWord)

/-- PACK without its checks, for halves of `h` words (R216): the first half of the chunk goes to the second half of BUF,
then the second half to the first. -/
def packFrame (inp : Mem) (inoff inlen h : Nat) (buf : Mem) : Mem :=
  let n1 := min h inlen
  let n2 := min h (inlen - n1)
  let buf := loop h (fun i m => packWord inp (h + i) (inoff + i) (decide (i < n1)) m) buf
  loop h (fun i m => packWord inp i (inoff + h + i) (decide (i < n2)) m) buf

/-- PACK as a change of state, without its checks: also the first step of XFORM (R220). -/
def State.packBuf (s : State) : State :=
  { s with buf := packFrame s.inp s.inoff.toNat s.inlen.toNat (s.fftSize / 2) s.buf }

/-- PACK (R216): READY, then range check 4. -/
def execPack (s : State) : Host.Outcome State Fault Refusal :=
  if s.ready = false then faulted .notReady (encode .pack) s
  else if s.inputFits = false then faulted .range 4 s
  else complete s.packBuf

/-- XFORM (R220): every check before any write, then PACK, RFFT.F of fftSize points, and CONV. -/
def execXform (s : State) : Host.Outcome State Fault Refusal :=
  if s.ready = false then faulted .notReady (encode .xform) s
  else if s.inputFits = false then faulted .range 4 s
  else if s.outputFits = false then faulted .range 5 s
  else complete (s.packBuf.rfftBuf .forward s.cfgLogn.toNat).convOut

end Sys2Proof.Machine
end

