-- ==== Sys2Proof/Machine/Multiply.lean ====
section
/-! DEFINITION. CMUL: the element-wise complex multiplier (43_cmul.md). -/

namespace Sys2Proof.Machine

/-- The loop direction of R192: from the last element to the first when D ≥ A or D ≥ B. -/
def cmulBackward (a b d : Nat) : Bool := decide (a ≤ d) || decide (b ≤ d)

/-- Element `e` (R191): four reads, then the two writes of the complex product, every operation binary32. -/
def cmulElement (draw a b d e : Nat) (m : Mem) : Mem :=
  let re1 := m.load (a + 2 * e)
  let im1 := m.load (a + 2 * e + 1)
  let re2 := m.load (b + 2 * e)
  let im2 := m.load (b + 2 * e + 1)
  (m.store draw (d + 2 * e) (sub32 (mul32 re1 re2) (mul32 im1 im2))).store draw (d + 2 * e + 1)
    (add32 (mul32 re1 im2) (mul32 im1 re2))

/-- The element loop of R191 over `n` elements, in the direction of R192. -/
def cmulRange (draw a b d n : Nat) (m : Mem) : Mem :=
  if cmulBackward a b d then loopDown n (cmulElement draw a b d) m else loop n (cmulElement draw a b d) m

/-- The range checks of R191 in their order: the ERRINFO of the first that fails. -/
def cmulFault (s : State) : Option Word :=
  let words := 2 * s.len.toNat
  if !rangeFits s.opa.toNat words s.params.bufw then some 1
  else if !rangeFits s.opb.toNat words s.params.bufw then some 2
  else if !rangeFits s.opd.toNat words s.params.bufw then some 3
  else none

/-- CMUL (R191). -/
def execCmul (s : State) : Host.Outcome State Fault Refusal :=
  match cmulFault s with
  | some info => faulted .range info s
  | none => complete { s with buf := cmulRange s.draws s.opa.toNat s.opb.toNat s.opd.toNat s.len.toNat s.buf }.nextDraw

end Sys2Proof.Machine
end

