-- ==== Sys2Proof/Machine/Flags.lean ====
section
/-! DEFINITION. STATUS and its three flags (R23, R26), the only flags of the machine, and the words the fault registers read as. -/

namespace Sys2Proof.Machine

/-- STATUS (R26): BUSY in bit 0, READY in bit 1, ERR in bit 2, bits 31:3 zero. -/
def State.statusWord (s : State) : Word :=
  0#29 ++ BitVec.ofBool s.err ++ BitVec.ofBool s.ready ++ BitVec.ofBool s.busy

/-- ERRCODE (R27): CODE in bits 3:0, bits 31:4 zero. -/
def State.errCodeWord (s : State) : Word := 0#28 ++ s.errCode

/-- READY <- 1: only a KCOMMIT that passes every check does it (R26, R233). -/
def State.markReady (s : State) : State := { s with ready := true }

/-- READY <- 0: what a write to CFG_LOGN, CFG_NUMK, KTAB or KDAT also does (R26, R28). -/
def State.markStale (s : State) : State := { s with ready := false }

end Sys2Proof.Machine
end

