-- ==== Sys2Proof/Machine/System.lean ====
section
/-! DEFINITION. NOP, KCOMMIT and KFREQ (46_system.md). -/

namespace Sys2Proof.Machine

/-- NOP (R231). -/
def execNop (s : State) : Host.Outcome State Fault Refusal := complete s

/-- The lowest descriptor index below CFG_NUMK that breaks a condition of R233. -/
def State.badKernel (s : State) : Option Nat :=
  firstIndex (fun k => !(descriptor s.ktab k).legal s.fftSize s.params.kdw) s.cfgNumk.toNat

/-- KCOMMIT (R233). -/
def execKcommit (s : State) : Host.Outcome State Fault Refusal :=
  if s.cfgLogn.toNat < 1 ∨ s.params.lognMax < s.cfgLogn.toNat then faulted .badConfig 1 s
  else if s.cfgNumk.toNat < 1 ∨ s.params.kmax < s.cfgNumk.toNat then faulted .badConfig 2 s
  else
    match s.badKernel with
    | some k => faulted .badKernel (BitVec.ofNat 32 k) s
    | none => complete s.markReady

/-- KFREQ (R236): READY, then IDX against CFG_NUMK; the CF word is copied without interpretation. -/
def execKfreq (s : State) : Host.Outcome State Fault Refusal :=
  if s.ready = false then faulted .notReady (encode .kfreq) s
  else if s.cfgNumk.toNat ≤ s.idx.toNat then faulted .range 6 s
  else complete { s with res := (descriptor s.ktab s.idx.toNat).cf }

end Sys2Proof.Machine
end

