-- ==== Sys2Proof/Machine/Dispatch.lean ====
section
/-! DEFINITION. The meaning of every command: one arm for each constructor of `Instr`. -/

namespace Sys2Proof.Machine

def exec (i : Instr) (s : State) : Host.Outcome State Fault Refusal :=
  match i with
  | .nop => Sys2Proof.Machine.execNop s
  | .cfftF logn => Sys2Proof.Machine.execCfftF logn s
  | .cfftI logn => Sys2Proof.Machine.execCfftI logn s
  | .rfftF logn => Sys2Proof.Machine.execRfftF logn s
  | .rfftI logn => Sys2Proof.Machine.execRfftI logn s
  | .cmul => Sys2Proof.Machine.execCmul s
  | .conv => Sys2Proof.Machine.execConv s
  | .pack => Sys2Proof.Machine.execPack s
  | .xform => Sys2Proof.Machine.execXform s
  | .kcommit => Sys2Proof.Machine.execKcommit s
  | .kfreq => Sys2Proof.Machine.execKfreq s

end Sys2Proof.Machine
end

