-- ==== Sys2Proof/Machine/Window.lean ====
section
/-! DEFINITION. The host's side: the register map, the word-addressed window, the issue of a command, and the notation of
R99 and R100 (10_state.md, 20_memory.md, 30_encoding.md). -/

namespace Sys2Proof.Machine

open Sys2Proof.Config

/-- The sixteen registers (R24). -/
inductive Reg where
  | cmd
  | status
  | errcode
  | errinfo
  | errclr
  | cfgLogn
  | cfgNumk
  | opa
  | opb
  | opd
  | len
  | idx
  | res
  | inoff
  | inlen
  | outoff
deriving DecidableEq, Repr

/-- The word index of a register in space REG (R24). -/
def Reg.index : Reg → Nat
  | .cmd => 0x00
  | .status => 0x01
  | .errcode => 0x02
  | .errinfo => 0x03
  | .errclr => 0x04
  | .cfgLogn => 0x05
  | .cfgNumk => 0x06
  | .opa => 0x07
  | .opb => 0x08
  | .opd => 0x09
  | .len => 0x0A
  | .idx => 0x0B
  | .res => 0x0C
  | .inoff => 0x0D
  | .inlen => 0x0E
  | .outoff => 0x0F

/-- The register at a word index; none at the reserved indices 0x10 and above (R24). -/
def regAt : Nat → Option Reg
  | 0x00 => some .cmd
  | 0x01 => some .status
  | 0x02 => some .errcode
  | 0x03 => some .errinfo
  | 0x04 => some .errclr
  | 0x05 => some .cfgLogn
  | 0x06 => some .cfgNumk
  | 0x07 => some .opa
  | 0x08 => some .opb
  | 0x09 => some .opd
  | 0x0A => some .len
  | 0x0B => some .idx
  | 0x0C => some .res
  | 0x0D => some .inoff
  | 0x0E => some .inlen
  | 0x0F => some .outoff
  | _ => none

/-- What a host address selects (R60). -/
inductive Target where
  /-- A register. -/
  | reg (r : Reg)
  /-- A word of a memory. -/
  | word (sp : Space) (i : Nat)
  /-- A reserved register index, a reserved space, or an index beyond the memory: reads give 0, writes do nothing (R61). -/
  | absent
deriving DecidableEq, Repr

/-- A[31:28] as a memory (R60). -/
def spaceAt : Nat → Option Space
  | 1 => some .buf
  | 2 => some .inp
  | 3 => some .out
  | 4 => some .ktab
  | 5 => some .kdat
  | _ => none

/-- The number of a memory's space in the window (R60). -/
def spaceNumber : Space → Nat
  | .buf => 1
  | .inp => 2
  | .out => 3
  | .ktab => 4
  | .kdat => 5

/-- The window: A[31:28] selects the space, A[27:0] the word index (R60). -/
def target (p : Params) (addr : Word) : Target :=
  let i := (addr.extractLsb' 0 28).toNat
  let number := (addr.extractLsb' 28 4).toNat
  if number = 0 then
    match regAt i with
    | some r => .reg r
    | none => .absent
  else
    match spaceAt number with
    | some sp => if i < p.size sp then .word sp i else .absent
    | none => .absent

/-- The word address of a register (R24, R100). -/
def regAddr (r : Reg) : Word := BitVec.ofNat 32 r.index

/-- The word address of word `i` of a memory (R60, R100). -/
def wordAddr (sp : Space) (i : Nat) : Word := BitVec.ofNat 32 (spaceNumber sp * 2 ^ 28 + i)

/-- What a register reads as (R24): a write-only register reads 0. -/
def State.readReg (s : State) : Reg → Word
  | .cmd => 0
  | .status => s.statusWord
  | .errcode => s.errCodeWord
  | .errinfo => s.errInfo
  | .errclr => 0
  | .cfgLogn => 0#27 ++ s.cfgLogn
  | .cfgNumk => s.cfgNumk
  | .opa => s.opa
  | .opb => s.opb
  | .opd => s.opd
  | .len => s.len
  | .idx => s.idx
  | .res => s.res
  | .inoff => s.inoff
  | .inlen => s.inlen
  | .outoff => s.outoff

/-- What a host read returns (R60, R61, R238). -/
def State.hostRead (s : State) (addr : Word) : Word :=
  match target s.params addr with
  | .reg r => s.readReg r
  | .word sp i => (s.mem sp).read i
  | .absent => 0

/-- Issuing command `w` (R93, R265): ignored while ERR = 1; otherwise accepted, decoded and run. -/
def issue (w : Word) (s : State) : Host.Outcome State Fault Refusal :=
  if s.err then .next s
  else
    match decode w with
    | .error _ => faulted .illegalCmd w s.accept
    | .ok i => exec i s.accept

/-- A host write to a register (R24 to R29, R238). -/
def writeReg (r : Reg) (v : Word) (s : State) : Host.Outcome State Fault Refusal :=
  match r with
  | .cmd => issue v s
  | .status => .next s
  | .errcode => .next s
  | .errinfo => .next s
  | .errclr => .next s.clearFault
  | .cfgLogn => .next { s with cfgLogn := v.extractLsb' 0 5 }.markStale
  | .cfgNumk => .next { s with cfgNumk := v }.markStale
  | .opa => .next { s with opa := v }
  | .opb => .next { s with opb := v }
  | .opd => .next { s with opd := v }
  | .len => .next { s with len := v }
  | .idx => .next { s with idx := v }
  | .res => .next s
  | .inoff => .next { s with inoff := v }
  | .inlen => .next { s with inlen := v }
  | .outoff => .next { s with outoff := v }

/-- Whether a write to a memory clears READY (R60, R33, R34). -/
def writeMakesStale : Space → Bool
  | .buf => false
  | .inp => false
  | .out => false
  | .ktab => true
  | .kdat => true

/-- A host write to a word of a memory (R26, R60). -/
def writeMem (sp : Space) (i : Nat) (v : Word) (s : State) : State :=
  let s := s.setMem sp ((s.mem sp).write i v)
  if writeMakesStale sp then s.markStale else s

/-- A host write (R60, R61). -/
def hostWrite (addr v : Word) (s : State) : Host.Outcome State Fault Refusal :=
  match target s.params addr with
  | .reg r => writeReg r v s
  | .word sp i => .next (writeMem sp i v s)
  | .absent => .next s

/-- One action of the host. While BUSY = 1 it may only read STATUS (R93 step 1, R316). -/
def hostAct (a : HostAction) (s : State) : Host.Outcome State Fault Refusal :=
  match a with
  | .write addr v => if s.busy then .refused .accessWhileBusy else hostWrite addr v s
  | .read addr =>
    if s.busy = true ∧ target s.params addr ≠ .reg .status then .refused .accessWhileBusy
    else .next { s with lastRead := some (s.hostRead addr) }
  | .narrow _ => .refused .narrowAccess
  | .reset => .next s.afterReset

/-- One step: the host's next action. With none pending the engine is idle and holds all its state (R277, R291). -/
def hostStep (s : State) : Host.Outcome State Fault Refusal :=
  match s.host with
  | [] => .next s
  | a :: rest => hostAct a { s with host := rest }

/-- `s` with nothing recorded or running that would keep the engine from accepting a command (R93 steps 1 and 2). -/
def State.acceptsCommand (s : State) : State := { s.clearFault with busy := false }

/-- The notation of R99 and R100: what the host does for each line, as a list of actions. -/
def asmCommand (i : Instr) : List HostAction := [.write (regAddr .cmd) (encode i), .read (regAddr .status)]

/-- `SET reg, v` (R100). -/
def asmSet (r : Reg) (v : Word) : List HostAction := [.write (regAddr r) v]

/-- `GET reg` (R100). -/
def asmGet (r : Reg) : List HostAction := [.read (regAddr r)]

/-- `ST space[i], v` (R100). -/
def asmSt (sp : Space) (i : Nat) (v : Word) : List HostAction := [.write (wordAddr sp i) v]

/-- `LD space[i]` (R100). -/
def asmLd (sp : Space) (i : Nat) : List HostAction := [.read (wordAddr sp i)]

/-- `KERNEL k, off, len, ptr, cf` (R100). -/
def asmKernel (k : Nat) (off len ptr cf : Word) : List HostAction :=
  asmSt .ktab (4 * k) off ++ asmSt .ktab (4 * k + 1) len ++ asmSt .ktab (4 * k + 2) ptr ++ asmSt .ktab (4 * k + 3) cf

/-- `CLRERR` (R100). -/
def asmClrerr : List HostAction := asmSet .errclr 0

/-- `TRANSFORM` (R100): `n` is the value CFG_LOGN holds. -/
def asmTransform (n : Nat) : List HostAction := asmCommand .pack ++ asmCommand (.rfftF n) ++ asmCommand .conv

end Sys2Proof.Machine
end

