-- ==== Sys2Proof/Machine/Step.lean ====
section
/-! DEFINITION. One step of the machine, and where it takes its next command from. -/

namespace Sys2Proof.Machine

/-- One step: the host's next action, a whole command being one atomic transition (R16). -/
def step (s : State) : Host.Outcome State Fault Refusal := hostStep s

/-- `s` with the command whose bits are `w` as the host's very next write to CMD, and nothing recorded or running that
would keep the engine from accepting it (R93 steps 1 and 2). The engine fetches nothing (R22): this is how a command comes
to run; assumption 4. -/
def State.withFetchWord (s : State) (nbits w : Nat) : State :=
  { s.acceptsCommand with host := .write (regAddr .cmd) (BitVec.ofNat 32 (w % 2 ^ nbits)) :: s.host }

end Sys2Proof.Machine
end

