-- ==== Sys2Proof/Safety.lean ====
section
/-! DEFINITION. What every state of a run satisfies, and what counts as a successful state. -/

namespace Sys2Proof.Machine

open Sys2Proof.Config

/-- A memory in canonical form, with no word beyond its size, that carries its own name and the current power-on number. -/
def Mem.good (m : Mem) (sp : Space) (boot size : Nat) : Bool :=
  m.wf && m.within size && decide (m.space = sp) && decide (m.boot = boot)

/-- All five memories are good. -/
def State.memsGood (s : State) : Bool :=
  s.buf.good .buf s.boots (s.params.size .buf) && s.inp.good .inp s.boots (s.params.size .inp) &&
    s.out.good .out s.boots (s.params.size .out) && s.ktab.good .ktab s.boots (s.params.size .ktab) &&
    s.kdat.good .kdat s.boots (s.params.size .kdat)

/-- The kernel table meets every condition KCOMMIT checks (R233). -/
abbrev State.tableValid (s : State) : Prop :=
  (1 ≤ s.cfgLogn.toNat ∧ s.cfgLogn.toNat ≤ s.params.lognMax) ∧ (1 ≤ s.cfgNumk.toNat ∧ s.cfgNumk.toNat ≤ s.params.kmax) ∧
    ∀ k < s.cfgNumk.toNat, (descriptor s.ktab k).legal s.fftSize s.params.kdw = true

/-- CODE and INFO are 0 exactly while ERR = 0, and CODE is never a reserved code (R27, R251). -/
abbrev State.faultConsistent (s : State) : Prop :=
  (s.err = false → s.errCode = 0 ∧ s.errInfo = 0) ∧ (s.err = true → 1 ≤ s.errCode.toNat ∧ s.errCode.toNat ≤ 6)

/-- The invariant of every run: parameters within R7, no command running between steps (R16), good memories, consistent
fault registers, and the guarantee of READY = 1 (R234). -/
abbrev State.Inv (s : State) : Prop :=
  s.params.Valid ∧ s.busy = false ∧ s.memsGood = true ∧ s.faultConsistent ∧ (s.ready = true → s.tableValid)

/-- A state that can be the successful end of a run: no fault recorded, nothing running (R263). -/
abbrev State.successful (s : State) : Prop := s.err = false ∧ s.busy = false

end Sys2Proof.Machine
end

