-- ==== Sys2Proof/Certificates/Slice0/Obligations.lean ====
section
/-! DEFINITION. The statements about the machine, for the provers, and the few words they are written in. -/

namespace Sys2Proof.Machine

open Sys2Proof.Config

/-- The 135 command words of R97, in its order. -/
def legalWords : List Word :=
  [0x00000000#32] ++ (List.range 32).map (fun n => 0x01000000#32 + BitVec.ofNat 32 n) ++
    (List.range 32).map (fun n => 0x01000100#32 + BitVec.ofNat 32 n) ++
    (List.range 32).map (fun n => 0x02000000#32 + BitVec.ofNat 32 n) ++
    (List.range 32).map (fun n => 0x02000100#32 + BitVec.ofNat 32 n) ++
    [0x03000000, 0x04000000, 0x05000000, 0x06000000, 0x07000000, 0x08000000]

/-- R96's conditions, on the number the word is: a reserved bit (23:9 or 7:5) is 1, OPC is above 0x08, or DIR or LOGN is
non-zero in a command other than CFFT and RFFT. -/
def illegalWord (w : Word) : Prop :=
  w.toNat / 2 ^ 9 % 2 ^ 15 ≠ 0 ∨ w.toNat / 2 ^ 5 % 2 ^ 3 ≠ 0 ∨ 0x08 < w.toNat / 2 ^ 24 ∨
    (w.toNat / 2 ^ 24 ≠ 0x01 ∧ w.toNat / 2 ^ 24 ≠ 0x02 ∧ (w.toNat / 2 ^ 8 % 2 ≠ 0 ∨ w.toNat % 2 ^ 5 ≠ 0))

/-- What R262 leaves: the fault recorded, BUSY low, nothing else changed. -/
def State.withFault (s : State) (code : BitVec 4) (info : Word) : State :=
  { s with err := true, errCode := code, errInfo := info, busy := false }

/-- An outcome's next state after `f`. -/
def onNext (f : State → State) : Host.Outcome State Fault Refusal → Host.Outcome State Fault Refusal
  | .next t => .next (f t)
  | .fault r => .fault r
  | .refused r => .refused r

/-- The host accesses the spec gives no behaviour for: a byte, half-word or burst access (R64), and while BUSY = 1 every
access but reading STATUS (R316). -/
def forbidden (s : State) : HostAction → Prop
  | .narrow _ => True
  | .write _ _ => s.busy = true
  | .read addr => s.busy = true ∧ target s.params addr ≠ .reg .status
  | .reset => False

/-- The events that make the engine Stale (R235). -/
def staleEvent (p : Params) : HostAction → Prop
  | .reset => True
  | .write addr _ =>
    target p addr = .reg .cfgLogn ∨ target p addr = .reg .cfgNumk ∨ (∃ i, target p addr = .word .ktab i) ∨
      ∃ i, target p addr = .word .kdat i
  | .read _ => False
  | .narrow _ => False

/-- A KCOMMIT that is issued in `s` and passes, leaving `t`. -/
def commitPasses (s t : State) : Prop :=
  ∃ addr rest, s.host = .write addr 0x07000000 :: rest ∧ target s.params addr = .reg .cmd ∧ s.err = false ∧ t.err = false

/-- The commands valid only in Ready (R235). -/
def readyOnly (i : Instr) : Prop := i = .conv ∨ i = .pack ∨ i = .xform ∨ i = .kfreq

/-- The distance between two numbers. -/
def gap (a b : Nat) : Nat := (a - b) + (b - a)

/-- A finite magnitude of a format, in units of 2^-1074: at most `prec` significant bits, a multiple of 2^`least` units, below
2^`limit` units. -/
def finiteIn (prec least limit r : Nat) : Prop := ∃ m e, m < 2 ^ prec ∧ r = m * 2 ^ (least + e) ∧ r < 2 ^ limit

/-- A finite binary32 magnitude: at most 24 significant bits, a multiple of 2^-149, below 2^128. -/
def finite32 (r : Nat) : Prop := finiteIn 24 925 1202 r

/-- `x` is (-1)^neg · k · 2^-(1074 + sh) rounded to a format as roundTiesToEven does: below half a place past the largest finite
value it is a nearest finite value of that sign, and where another is as near its last bit is 0; from there on it is infinity. -/
def nearestEven (prec least limit : Nat) (lastBit : Fp → Bool) (neg : Bool) (k sh : Nat) (x : Fp) : Prop :=
  (k < (2 ^ limit - 2 ^ (limit - prec - 1)) * 2 ^ sh → ∃ r, x = .fin neg r ∧ finiteIn prec least limit r ∧
    ∀ r', finiteIn prec least limit r' → gap k (r * 2 ^ sh) ≤ gap k (r' * 2 ^ sh) ∧
      (r' ≠ r → gap k (r' * 2 ^ sh) = gap k (r * 2 ^ sh) → lastBit x = false)) ∧
  ((2 ^ limit - 2 ^ (limit - prec - 1)) * 2 ^ sh ≤ k → x = .inf neg)

/-- Rounding to binary32: 24 significant bits, least value 2^-149, overflow towards 2^128; the last bit is bit 0 of the encoding. -/
def nearest32 : Bool → Nat → Nat → Fp → Prop := nearestEven 24 925 1202 fun x => (encode32 0 x).getLsbD 0

/-- Rounding to binary64: 53 significant bits, least value 2^-1074, overflow towards 2^1024; the last bit is bit 0 of the
encoding. -/
def nearest64 : Bool → Nat → Nat → Fp → Prop := nearestEven 53 0 2098 fun x => (encode64 0 x).getLsbD 0

/-- The integer a signed magnitude stands for. -/
def signed (neg : Bool) (k : Nat) : Int := if neg then -(k : Int) else (k : Int)

/-- The IEEE 754 sum, difference and product of a format (R123, R125): the exact result rounded once by `nearest`, and the standard
results for zeros, infinities and NaN. -/
def ieeeArithmetic (nearest : Bool → Nat → Nat → Fp → Prop) (add sub mul : Fp → Fp → Fp) (neg : Fp → Fp) : Prop :=
  (∀ (a b : Bool) (j k : Nat), signed a j + signed b k ≠ 0 →
    nearest (decide (signed a j + signed b k < 0)) (signed a j + signed b k).natAbs 0 (add (.fin a j) (.fin b k))) ∧
  (∀ (a b : Bool) (j k : Nat), nearest (a ^^ b) (j * k) 1074 (mul (.fin a j) (.fin b k))) ∧
  (∀ (a : Bool) (k : Nat), add (.fin a k) (.fin (!a) k) = .fin false 0 ∧ sub (.fin a k) (.fin a k) = .fin false 0 ∧
    add (.fin a 0) (.fin a 0) = .fin a 0) ∧
  (∀ a b : Fp, sub a b = add a (neg b) ∧ add a b = add b a ∧ mul a b = mul b a) ∧
  (∀ (a : Bool) (k : Nat), neg (.fin a k) = .fin (!a) k ∧ neg (.inf a) = .inf (!a) ∧ neg .nan = .nan) ∧
  (∀ (a b : Bool) (k : Nat), add (.inf a) (.fin b k) = .inf a ∧ add (.inf a) (.inf a) = .inf a ∧
    add (.inf a) (.inf (!a)) = .nan ∧ mul (.inf a) (.inf b) = .inf (a ^^ b) ∧ mul (.inf a) (.fin b 0) = .nan ∧
    (k ≠ 0 → mul (.inf a) (.fin b k) = .inf (a ^^ b))) ∧
  ∀ a : Fp, add .nan a = .nan ∧ mul .nan a = .nan

/-- The seed pair a command uses for row `s` of the ROM: WPI is negated for INVERSE (R131, R156, R173). -/
def romSeed (s : Nat) (dir : Direction) : Seed :=
  { wpr := decode64 (romRow s).1
    wpi := if dir = .forward then decode64 (romRow s).2 else neg64 (decode64 (romRow s).2) }

/-- The twiddle of index `mi` in stage `s`: wstep applied `mi` times to (1.0, +0.0) (R156, R157). -/
def stageTwiddle (s : Nat) (dir : Direction) (mi : Nat) : Twiddle :=
  (fun w => wstep w (romSeed s dir))^[mi] { wr := fpOne, wi := fpZero }

/-- The twiddle of index k ≥ 1 in the split pass: wstep applied k − 1 times to (1.0 + WPR[n], ±WPI[n]) (R173). -/
def splitTwiddle (n : Nat) (dir : Direction) (k : Nat) : Twiddle :=
  (fun w => wstep w (romSeed n dir))^[k - 1] { wr := add64 fpOne (romSeed n dir).wpr, wi := (romSeed n dir).wpi }

/-- A source range at `src` contributes its original values to CMUL (R192): it does not meet the destination, or it starts at
or below the destination (backward), or above it while the loop runs forward. -/
def keepsOriginals (a b dst n src : Nat) : Prop :=
  (src + 2 * n ≤ dst ∨ dst + 2 * n ≤ src) ∨ src ≤ dst ∨ (dst < a ∧ dst < b)

end Sys2Proof.Machine

open Sys2Proof Sys2Proof.Machine Sys2Proof.Config

/-! ### Command words -/

/-- Every command a word can express is read back from its own word (30_encoding.md, R91, R92, R99). -/
def Obligations.DecodeReadsBackEveryCommand : Prop :=
  ∀ i : Instr, i.wellFormed = true → decode (encode i) = .ok i

/-- A word decodes to one command only if it is that command's own word: no bit is dropped (R91, R96). -/
def Obligations.DecodedWordIsTheCommandsOwn : Prop :=
  ∀ (w : Word) (i : Instr), decode w = .ok i → i.wellFormed = true ∧ encode i = w

/-- R97: the legal words are exactly the 135 listed; with LOGN out of range the transform words decode and then fault with
BAD_LENGTH. -/
def Obligations.LegalWordsAreTheListed : Prop :=
  legalWords.length = 135 ∧ legalWords.Nodup ∧ (∀ w : Word, (∃ i, decode w = .ok i) ↔ w ∈ legalWords) ∧
    ∀ (n : Nat) (s : State), n < 32 →
      (s.params.lognMax < n →
        exec (.cfftF n) s = .next (s.withFault 2 (0x01000000#32 + BitVec.ofNat 32 n)) ∧
        exec (.cfftI n) s = .next (s.withFault 2 (0x01000100#32 + BitVec.ofNat 32 n))) ∧
      (n = 0 ∨ s.params.lognMax < n →
        exec (.rfftF n) s = .next (s.withFault 2 (0x02000000#32 + BitVec.ofNat 32 n)) ∧
        exec (.rfftI n) s = .next (s.withFault 2 (0x02000100#32 + BitVec.ofNat 32 n)))

/-- R96: an illegal word issued with ERR = 0 faults with ILLEGAL_CMD and itself, changing nothing else; every other word is
a command. -/
def Obligations.IllegalWordFaultsAndChangesNothingElse : Prop :=
  (∀ (s : State) (w : Word) (rest : List HostAction), s.host = .write (regAddr .cmd) w :: rest → s.busy = false →
    s.err = false → illegalWord w → step s = .next ({ s with host := rest }.withFault 1 w)) ∧
  ∀ w : Word, illegalWord w ∨ ∃ i, decode w = .ok i

/-- Words written out from R99 decode to the commands they stand for. -/
def Obligations.SpecWordsDecodeAsListed : Prop :=
  decode 0x00000000 = .ok .nop ∧ decode 0x01000003 = .ok (.cfftF 3) ∧ decode 0x01000103 = .ok (.cfftI 3) ∧
  decode 0x02000004 = .ok (.rfftF 4) ∧ decode 0x02000104 = .ok (.rfftI 4) ∧ decode 0x03000000 = .ok .cmul ∧
  decode 0x04000000 = .ok .conv ∧ decode 0x05000000 = .ok .pack ∧ decode 0x06000000 = .ok .xform ∧
  decode 0x07000000 = .ok .kcommit ∧ decode 0x08000000 = .ok .kfreq

/-! ### The step and the host's accesses -/

/-- R93: what a write of `w` to CMD does, in its order. An illegal word faults, every other word decodes, a decoded command runs
as `exec` of it, with BUSY raised, and BUSY is low when it ends. -/
def Obligations.StepRunsTheDecodedCommand : Prop :=
  ∀ (s : State) (w : Word) (rest : List HostAction), s.host = .write (regAddr .cmd) w :: rest →
    (s.busy = true → step s = .refused .accessWhileBusy) ∧
    (s.busy = false → s.err = true → step s = .next { s with host := rest }) ∧
    (s.busy = false → s.err = false →
      (illegalWord w → step s = .next ({ s with host := rest }.withFault 1 w)) ∧
      (¬ illegalWord w → ∃ i, decode w = .ok i) ∧
      (∀ i, decode w = .ok i → step s = exec i { s with host := rest, busy := true }) ∧
      ∃ t, step s = .next t ∧ t.busy = false)

/-- A recorded fault stays, with its code and its info word, until the host writes ERRCLR or resets (R26, R263, R265). -/
def Obligations.RecordedFaultStaysUntilCleared : Prop :=
  ∀ s t : State, s.err = true → step s = .next t →
    (t.err = true ∧ t.errCode = s.errCode ∧ t.errInfo = s.errInfo) ∨
    (∃ addr v rest, s.host = .write addr v :: rest ∧ target s.params addr = .reg .errclr) ∨ ∃ rest, s.host = .reset :: rest

/-- The machine stops exactly on the host accesses the spec gives no behaviour for; it never stops with a fault; STATUS can be
read while BUSY = 1; without a host action it stays as it is (R64, R277, R316). -/
def Obligations.StepStopsExactlyOnForbiddenAccess : Prop :=
  (∀ s : State, (∃ r, step s = .refused r) ↔ ∃ a rest, s.host = a :: rest ∧ forbidden s a) ∧
  (∀ (s : State) (f : Fault), step s ≠ .fault f) ∧
  (∀ (s : State) (rest : List HostAction), s.host = .read (regAddr .status) :: rest →
    step s = .next { s with host := rest, lastRead := some s.statusWord }) ∧
  ∀ s : State, s.host = [] → step s = .next s

/-- R60: A[31:28] selects the space and A[27:0] the word index, for every address of the window, and every word of every
memory has its address. -/
def Obligations.WindowSelectsSpaceAndIndex : Prop :=
  (∀ (p : Params) (a : Word), a.toNat / 2 ^ 28 = 0 →
    (∀ r : Reg, r.index = a.toNat % 2 ^ 28 → target p a = .reg r) ∧ (0x0F < a.toNat % 2 ^ 28 → target p a = .absent)) ∧
  (∀ (p : Params) (a : Word) (sp : Space), a.toNat / 2 ^ 28 = spaceNumber sp →
    target p a = if a.toNat % 2 ^ 28 < p.size sp then .word sp (a.toNat % 2 ^ 28) else .absent) ∧
  (∀ (p : Params) (a : Word), 5 < a.toNat / 2 ^ 28 → target p a = .absent) ∧
  ∀ (p : Params) (sp : Space) (i : Nat), p.Valid → i < p.size sp → target p (wordAddr sp i) = .word sp i

/-- R61: a read of a reserved space, a reserved register index or an index beyond a memory returns 0; a write there changes
nothing, READY included; neither faults. -/
def Obligations.OutsideTheMapReadsZeroAndIgnoresWrites : Prop :=
  ∀ (s : State) (a v : Word) (rest : List HostAction), s.busy = false →
    (5 < a.toNat / 2 ^ 28 ∨ (a.toNat / 2 ^ 28 = 0 ∧ 0x0F < a.toNat % 2 ^ 28) ∨
      ∃ sp, a.toNat / 2 ^ 28 = spaceNumber sp ∧ s.params.size sp ≤ a.toNat % 2 ^ 28) →
    (s.host = .read a :: rest → step s = .next { s with host := rest, lastRead := some 0 }) ∧
    (s.host = .write a v :: rest → step s = .next { s with host := rest })

/-- A host write to a word of a memory stores it there and nowhere else, makes the engine Stale if the memory is KTAB or KDAT,
changes nothing else, and a read returns it (R26, R33, R34, R60, R68). -/
def Obligations.HostMemoryWriteIsReadBack : Prop :=
  ∀ (s : State) (sp : Space) (i : Nat) (v : Word) (rest : List HostAction), s.params.Valid → s.busy = false →
    i < s.params.size sp → s.host = .write (wordAddr sp i) v :: rest →
    ∃ t, step s = .next t ∧ (t.mem sp).read i = v ∧ (∀ j, j ≠ i → (t.mem sp).read j = (s.mem sp).read j) ∧
      (sp = .ktab ∨ sp = .kdat → t.ready = false) ∧ (sp ≠ .ktab → sp ≠ .kdat → t.ready = s.ready) ∧
      t = { { s with host := rest }.setMem sp (t.mem sp) with ready := t.ready } ∧
      ∀ rest', step { t with host := .read (wordAddr sp i) :: rest' } = .next { t with host := rest', lastRead := some v }

/-- Each operand register takes any 32-bit value, the write changes nothing else, and a read returns the last value written (R21,
R24). -/
def Obligations.OperandRegistersHoldWhatIsWritten : Prop :=
  ∀ (s : State) (r : Reg) (v : Word) (rest rest' : List HostAction),
    r = .opa ∨ r = .opb ∨ r = .opd ∨ r = .len ∨ r = .idx ∨ r = .inoff ∨ r = .inlen ∨ r = .outoff →
    s.busy = false → s.host = .write (regAddr r) v :: rest →
    ∃ t, step s = .next t ∧ t.readReg r = v ∧ (∀ q : Reg, q ≠ r → t.readReg q = s.readReg q) ∧
      (∀ sp, t.mem sp = s.mem sp) ∧
      (t.host = rest ∧ t.params = s.params ∧ t.lastRead = s.lastRead ∧ t.draws = s.draws ∧ t.boots = s.boots) ∧
      step { t with host := .read (regAddr r) :: rest' } = .next { t with host := rest', lastRead := some v }

/-- R28: a write to CFG_LOGN stores bits 4:0 and a write to CFG_NUMK all 32 bits; both make the engine Stale whatever the value;
reads return the stored value and change nothing, Stale or Ready. -/
def Obligations.ConfigurationWritesStoreAndMakeStale : Prop :=
  ∀ (s : State) (v : Word) (rest : List HostAction), s.busy = false →
    (s.host = .write (regAddr .cfgLogn) v :: rest →
      step s = .next { s with host := rest, cfgLogn := BitVec.ofNat 5 (v.toNat % 2 ^ 5), ready := false }) ∧
    (s.host = .write (regAddr .cfgNumk) v :: rest →
      step s = .next { s with host := rest, cfgNumk := v, ready := false }) ∧
    (s.host = .read (regAddr .cfgLogn) :: rest →
      step s = .next { s with host := rest, lastRead := some (BitVec.ofNat 32 s.cfgLogn.toNat) }) ∧
    (s.host = .read (regAddr .cfgNumk) :: rest →
      step s = .next { s with host := rest, lastRead := some s.cfgNumk })

/-- Writes to the read-only registers change nothing. A host read of a register, STATUS while BUSY = 1 too, returns its word and changes
nothing: 0 for the write-only registers; STATUS shows BUSY, READY and ERR in bits 0, 1 and 2 and ERRCODE shows CODE in bits 3:0, every
other bit reading 0; ERRINFO and RES are returned whole (R24, R26, R27). -/
def Obligations.ReadOnlyWriteOnlyAndStatusBits : Prop :=
  ∀ (s : State) (v : Word) (rest : List HostAction),
    (∀ r : Reg, r = .status ∨ r = .errcode ∨ r = .errinfo ∨ r = .res → s.busy = false →
      s.host = .write (regAddr r) v :: rest → step s = .next { s with host := rest }) ∧
    (∀ r : Reg, s.busy = false ∨ r = .status → s.host = .read (regAddr r) :: rest →
      step s = .next { s with host := rest, lastRead := some (s.readReg r) }) ∧
    s.readReg .cmd = 0 ∧ s.readReg .errclr = 0 ∧
    (s.readReg .status).toNat = s.busy.toNat + 2 * s.ready.toNat + 4 * s.err.toNat ∧
    (s.readReg .errcode).toNat = s.errCode.toNat ∧ s.readReg .errinfo = s.errInfo ∧ s.readReg .res = s.res

/-- R266: a write of any value to ERRCLR clears ERR, CODE and INFO and changes nothing else; after a faulting command and ERRCLR
the engine is as it was before the command; while ERR = 1 no command runs. -/
def Obligations.ErrclrReturnsFromTheFault : Prop :=
  (∀ (s : State) (v : Word) (rest : List HostAction), s.busy = false → s.host = .write (regAddr .errclr) v :: rest →
    step s = .next { s with host := rest, err := false, errCode := 0, errInfo := 0 }) ∧
  (∀ (s t : State) (w v : Word) (rest : List HostAction),
    s.busy = false → s.err = false → s.errCode = 0 → s.errInfo = 0 →
    s.host = .write (regAddr .cmd) w :: .write (regAddr .errclr) v :: rest → step s = .next t → t.err = true →
    step t = .next { s with host := rest }) ∧
  ∀ (s : State) (w : Word) (rest : List HostAction), s.busy = false → s.err = true →
    s.host = .write (regAddr .cmd) w :: rest → step s = .next { s with host := rest }

/-! ### Reset and the invariant -/

/-- R291: every register and flag after reset, the constant ROM with the 24 rows of R132, the unspecified memories, and an idle engine. -/
def Obligations.ResetLeavesTheListedValues : Prop :=
  (State.reset.busy = false ∧ State.reset.ready = false ∧ State.reset.err = false ∧ State.reset.errCode = 0 ∧
    State.reset.errInfo = 0) ∧
  (State.reset.cfgLogn = 0 ∧ State.reset.cfgNumk = 0 ∧ State.reset.opa = 0 ∧ State.reset.opb = 0 ∧ State.reset.opd = 0 ∧
    State.reset.len = 0 ∧ State.reset.idx = 0 ∧ State.reset.inoff = 0 ∧ State.reset.inlen = 0 ∧ State.reset.outoff = 0 ∧
    State.reset.res = 0) ∧
  (State.reset.readReg .cmd = 0 ∧ State.reset.readReg .errclr = 0) ∧
  (List.range 12).map (fun k => romRow (k + 1)) =
    [(0xC000000000000000, 0x0000000000000000), (0xBFF0000000000000, 0x3FF0000000000000),
     (0xBFD2BEC333018867, 0x3FE6A09E667F3BCD), (0xBFB37CA1866B95CF, 0x3FD87DE2A6AEA963),
     (0xBF93AD06011469FB, 0x3FC8F8B83C69A60B), (0xBF73B92E176D6D31, 0x3FB917A6BC29B42C),
     (0xBF53BC390D250439, 0x3FA91F65F10DD814), (0xBF33BCFBD9979A27, 0x3F992155F7A3667E),
     (0xBF13BD2C8DA49511, 0x3F8921D1FCDEC784), (0xBEF3BD38BAB6D94C, 0x3F7921F0FE670071),
     (0xBED3BD3BC5FC5AB4, 0x3F6921F8BECCA4BA), (0xBEB3BD3C88CDCA13, 0x3F5921FAAEE6472E)] ∧
  (List.range 12).map (fun k => romRow (k + 13)) =
    [(0xBE93BD3CB98226DC, 0x3F4921FB2AECB360), (0xBE73BD3CC5AF3E1D, 0x3F3921FB49EE4EA6),
     (0xBE53BD3CC8BA83EE, 0x3F2921FB51AEB57C), (0xBE33BD3CC97D5562, 0x3F1921FB539ECF31),
     (0xBE13BD3CC9AE09BF, 0x3F0921FB541AD59E), (0xBDF3BD3CC9BA36D7, 0x3EF921FB5439D73A),
     (0xBDD3BD3CC9BD421C, 0x3EE921FB544197A1), (0xBDB3BD3CC9BE04EE, 0x3ED921FB544387BA),
     (0xBD93BD3CC9BE35A2, 0x3EC921FB544403C1), (0xBD73BD3CC9BE41CF, 0x3EB921FB544422C2),
     (0xBD53BD3CC9BE44DB, 0x3EA921FB54442A83), (0xBD33BD3CC9BE459D, 0x3E9921FB54442C73)] ∧
  (∀ (sp : Space) (i : Nat), (State.reset.mem sp).read i = powerOnWord 0 sp i) ∧ step State.reset = .next State.reset

/-- The reset event gives every register its reset value and leaves every memory word unspecified; RES is unspecified too when a
command was running (R290, R292). Which free value a word takes is the model's form, assumptions 3 and 5. -/
def Obligations.ResetEventForgetsEverything : Prop :=
  ∀ (s : State) (rest : List HostAction), s.host = .reset :: rest →
    ∃ t, step s = .next t ∧ (∀ r : Reg, r ≠ .res → t.readReg r = 0) ∧
      t.res = (if s.busy then abandonedRes (s.boots + 1) else 0) ∧
      (∀ (sp : Space) (i : Nat), (t.mem sp).read i = powerOnWord (s.boots + 1) sp i) ∧
      t.params = s.params ∧ t.host = rest

/-- The invariant holds after reset. -/
def Obligations.InvariantHoldsAtReset : Prop := State.reset.Inv

/-- The invariant is kept by every step from every state that has it, and every step keeps the parameters: BUSY is low between commands, every
memory keeps its canonical form within its size, the fault registers stay consistent (R27), and READY = 1 keeps its guarantee
(R234). -/
def Obligations.InvariantIsKeptByEveryStep : Prop :=
  ∀ s t : State, step s = .next t → t.params = s.params ∧ (s.Inv → t.Inv)

/-- R235: READY is cleared by exactly the listed events, set by a KCOMMIT that passes and by nothing else; the Ready-only commands
fault in Stale, and the others do in Stale what they do in Ready. That NaN encodings and the draw counter agree too is the model's choice
of draws, assumption 6. -/
def Obligations.ReadyChangesOnlyAsTheTableSays : Prop :=
  (∀ s t : State, step s = .next t →
    (∀ a rest, s.host = a :: rest → staleEvent s.params a → t.ready = false) ∧ (commitPasses s t → t.ready = true) ∧
    ((∀ a rest, s.host = a :: rest → ¬ staleEvent s.params a) → ¬ commitPasses s t → t.ready = s.ready)) ∧
  (∀ (i : Instr) (s : State), readyOnly i → s.ready = false → exec i s = .next (s.withFault 3 (encode i))) ∧
  ∀ (i : Instr) (s t u : State), ¬ readyOnly i → exec i { s with ready := false } = .next t →
    exec i { s with ready := true } = .next u → { t with ready := false } = { u with ready := false }

/-- In Ready every index CONV forms is in range: LEN is even, the run lies in BUF and the data in KDAT (R234). -/
def Obligations.ReadyTableKeepsConvInRange : Prop :=
  ∀ s : State, s.Inv → s.ready = true → ∀ k < s.cfgNumk.toNat,
    (descriptor s.ktab k).len % 2 = 0 ∧ (descriptor s.ktab k).len ≤ s.fftSize ∧
    (descriptor s.ktab k).off + (descriptor s.ktab k).len ≤ s.fftSize + 2 ∧ s.fftSize + 2 ≤ s.params.bufw ∧
    (descriptor s.ktab k).ptr + (descriptor s.ktab k).len ≤ s.params.kdw

/-! ### Faults of the commands -/

/-- Once started, a command completes or faults: it always ends in a next state, with BUSY low (R16, R250, R325). -/
def Obligations.EveryCommandEnds : Prop :=
  ∀ (i : Instr) (s : State), ∃ t, exec i s = .next t ∧ t.busy = false

/-- R262: a command that faults records CODE and INFO, sets ERR, lowers BUSY, and changes nothing else; an illegal word likewise. -/
def Obligations.FaultingCommandChangesNothingElse : Prop :=
  (∀ (i : Instr) (s t : State), s.err = false → exec i s = .next t → t.err = true →
    t = s.withFault t.errCode t.errInfo) ∧
  ∀ (w : Word) (s t : State), s.err = false → issue w s = .next t → t.err = true → t = s.withFault t.errCode t.errInfo

/-- R251: which command raises which fault, for which cause, with which info word (ILLEGAL_CMD is raised before any command runs). -/
def Obligations.FaultsHaveTheListedCauses : Prop :=
  (∀ (w : Word) (s t : State), s.err = false → (∃ e, decode w = .error e) → issue w s = .next t →
    t.err = true ∧ t.errCode = 1 ∧ t.errInfo = w ∧ illegalWord w) ∧
  ∀ (i : Instr) (s t : State), s.err = false → exec i s = .next t → t.err = true →
    (t.errCode = 2 ∧ t.errInfo = encode i ∧
      ∃ n, ((i = .cfftF n ∨ i = .cfftI n) ∧ s.params.lognMax < n) ∨
        ((i = .rfftF n ∨ i = .rfftI n) ∧ (n = 0 ∨ s.params.lognMax < n))) ∨
    (t.errCode = 3 ∧ t.errInfo = encode i ∧ readyOnly i ∧ s.ready = false) ∨
    (t.errCode = 4 ∧
      ((i = .cmul ∧ t.errInfo = 1 ∧ s.params.bufw < s.opa.toNat + 2 * s.len.toNat) ∨
       (i = .cmul ∧ t.errInfo = 2 ∧ s.params.bufw < s.opb.toNat + 2 * s.len.toNat) ∨
       (i = .cmul ∧ t.errInfo = 3 ∧ s.params.bufw < s.opd.toNat + 2 * s.len.toNat) ∨
       ((i = .pack ∨ i = .xform) ∧ t.errInfo = 4 ∧ s.params.inw < s.inoff.toNat + s.inlen.toNat) ∨
       ((i = .conv ∨ i = .xform) ∧ t.errInfo = 5 ∧ s.params.outw < s.outoff.toNat + s.cfgNumk.toNat) ∨
       (i = .kfreq ∧ t.errInfo = 6 ∧ s.cfgNumk.toNat ≤ s.idx.toNat))) ∨
    (t.errCode = 5 ∧ i = .kcommit ∧
      ((t.errInfo = 1 ∧ (s.cfgLogn.toNat < 1 ∨ s.params.lognMax < s.cfgLogn.toNat)) ∨
       (t.errInfo = 2 ∧ (s.cfgNumk.toNat < 1 ∨ s.params.kmax < s.cfgNumk.toNat)))) ∨
    (t.errCode = 6 ∧ i = .kcommit ∧ ∃ k < s.cfgNumk.toNat, t.errInfo = BitVec.ofNat 32 k ∧
      ((descriptor s.ktab k).len % 2 = 1 ∨ s.fftSize < (descriptor s.ktab k).len ∨
        s.fftSize + 2 < (descriptor s.ktab k).off + (descriptor s.ktab k).len ∨
        s.params.kdw < (descriptor s.ktab k).ptr + (descriptor s.ktab k).len) ∧
      ∀ j < k, (descriptor s.ktab j).legal s.fftSize s.params.kdw = true)

/-- R253: BAD_LENGTH is raised by CFFT when LOGN > LOGN_MAX and by RFFT when LOGN = 0 or LOGN > LOGN_MAX. -/
def Obligations.BadLengthIsRaisedByTheTransforms : Prop :=
  ∀ (n : Nat) (s : State),
    (s.params.lognMax < n → exec (.cfftF n) s = .next (s.withFault 2 (encode (.cfftF n))) ∧
      exec (.cfftI n) s = .next (s.withFault 2 (encode (.cfftI n)))) ∧
    (n = 0 ∨ s.params.lognMax < n → exec (.rfftF n) s = .next (s.withFault 2 (encode (.rfftF n))) ∧
      exec (.rfftI n) s = .next (s.withFault 2 (encode (.rfftI n))))

/-- R254: CONV, PACK, XFORM and KFREQ in Stale fault with NOT_READY and the command word, whatever else is wrong. -/
def Obligations.NotReadyIsTheFirstCheck : Prop :=
  ∀ s : State, s.ready = false →
    exec .conv s = .next (s.withFault 3 0x04000000) ∧ exec .pack s = .next (s.withFault 3 0x05000000) ∧
    exec .xform s = .next (s.withFault 3 0x06000000) ∧ exec .kfreq s = .next (s.withFault 3 0x08000000)

/-- R255: the range checks on exact sums, in ascending info number, so that a huge register value faults and never wraps into
range. -/
def Obligations.RangeFaultsOnExactSums : Prop :=
  ∀ s : State,
    (s.params.bufw < s.opa.toNat + 2 * s.len.toNat → exec .cmul s = .next (s.withFault 4 1)) ∧
    (s.opa.toNat + 2 * s.len.toNat ≤ s.params.bufw → s.params.bufw < s.opb.toNat + 2 * s.len.toNat →
      exec .cmul s = .next (s.withFault 4 2)) ∧
    (s.opa.toNat + 2 * s.len.toNat ≤ s.params.bufw → s.opb.toNat + 2 * s.len.toNat ≤ s.params.bufw →
      s.params.bufw < s.opd.toNat + 2 * s.len.toNat → exec .cmul s = .next (s.withFault 4 3)) ∧
    (s.ready = true → s.params.inw < s.inoff.toNat + s.inlen.toNat →
      exec .pack s = .next (s.withFault 4 4) ∧ exec .xform s = .next (s.withFault 4 4)) ∧
    (s.ready = true → s.params.outw < s.outoff.toNat + s.cfgNumk.toNat → exec .conv s = .next (s.withFault 4 5)) ∧
    (s.ready = true → s.inoff.toNat + s.inlen.toNat ≤ s.params.inw →
      s.params.outw < s.outoff.toNat + s.cfgNumk.toNat → exec .xform s = .next (s.withFault 4 5)) ∧
    (s.ready = true → s.cfgNumk.toNat ≤ s.idx.toNat → exec .kfreq s = .next (s.withFault 4 6))

/-! ### What the commands do, and what they leave -/

/-- R231: NOP changes no state; BUSY falls. Issued by the host it leaves the state as it was, whatever ERR is. -/
def Obligations.NopChangesNothing : Prop :=
  ∀ s : State, exec .nop s = .next { s with busy := false } ∧
    ∀ rest, s.busy = false → s.host = .write (regAddr .cmd) 0x00000000 :: rest → step s = .next { s with host := rest }

/-- CFFT of a legal length completes, having replaced BUF by the transform, in both directions, Stale or Ready (R151, R160). -/
def Obligations.CfftCompletes : Prop :=
  ∀ (n : Nat) (s : State), n ≤ s.params.lognMax →
    exec (.cfftF n) s =
      .next { s with buf := cfftCore s.draws n .forward s.buf, draws := s.draws + 1, busy := false } ∧
    exec (.cfftI n) s =
      .next { s with buf := cfftCore s.draws n .inverse s.buf, draws := s.draws + 1, busy := false }

/-- RFFT of a legal length completes, having replaced BUF by the transform, in both directions, Stale or Ready (R171). FORWARD: words L
and L + 1 take +0.0, the half-length CFFT and the split pass run, words 0 and L take the sum and the difference of words 0 and 1, word 1
takes +0.0. INVERSE: words 0 and 1 take half the sum and half the difference of words 0 and L, then the split pass and the half-length CFFT
run. -/
def Obligations.RfftCompletes : Prop :=
  (∀ (n : Nat) (s : State), 1 ≤ n → n ≤ s.params.lognMax →
    exec (.rfftF n) s =
      .next { s with buf := rfftCore s.draws n .forward s.buf, draws := s.draws + 1, busy := false } ∧
    exec (.rfftI n) s =
      .next { s with buf := rfftCore s.draws n .inverse s.buf, draws := s.draws + 1, busy := false }) ∧
  ∀ (d n : Nat) (m : Mem), 1 ≤ n →
    (let z := splitPass d n .forward
      (cfftCore d (n - 1) .forward ((m.write (2 ^ n) 0x00000000).write (2 ^ n + 1) 0x00000000))
    let t := rfftCore d n .forward m
    t.read 0 = m.storeBits d 0 (add32 (z.load 0) (z.load 1)) ∧
      t.read (2 ^ n) = m.storeBits d (2 ^ n) (sub32 (z.load 0) (z.load 1)) ∧ t.read 1 = 0x00000000 ∧
      ∀ a, a ≠ 0 → a ≠ 1 → a ≠ 2 ^ n → t.read a = z.read a) ∧
    let half : Fp := decode32 0x3F000000
    rfftCore d n .inverse m =
      cfftCore d (n - 1) .inverse (splitPass d n .inverse
        ((m.write 0 (m.storeBits d 0 (mul32 half (add32 (m.load 0) (m.load (2 ^ n)))))).write 1
          (m.storeBits d 1 (mul32 half (sub32 (m.load 0) (m.load (2 ^ n)))))))

/-- CMUL whose three ranges lie in BUF completes (R191): elements from the last to the first when OPD ≥ OPA or OPD ≥ OPB, from the
first to the last otherwise. Element e stores the complex product of the four words it reads, and changes no other word. -/
def Obligations.CmulCompletes : Prop :=
  (∀ s : State, s.opa.toNat + 2 * s.len.toNat ≤ s.params.bufw → s.opb.toNat + 2 * s.len.toNat ≤ s.params.bufw →
    s.opd.toNat + 2 * s.len.toNat ≤ s.params.bufw →
    exec .cmul s = .next { s with
      draws := s.draws + 1,
      busy := false,
      buf := cmulRange s.draws s.opa.toNat s.opb.toNat s.opd.toNat s.len.toNat s.buf }) ∧
  ∀ (d a b dst : Nat) (m : Mem),
    (∀ n, cmulRange d a b dst n m =
      if a ≤ dst ∨ b ≤ dst then loopDown n (cmulElement d a b dst) m else loop n (cmulElement d a b dst) m) ∧
    ∀ e,
      (cmulElement d a b dst e m).read (dst + 2 * e) =
        m.storeBits d (dst + 2 * e) (sub32 (mul32 (m.load (a + 2 * e)) (m.load (b + 2 * e)))
          (mul32 (m.load (a + 2 * e + 1)) (m.load (b + 2 * e + 1)))) ∧
      (cmulElement d a b dst e m).read (dst + 2 * e + 1) =
        m.storeBits d (dst + 2 * e + 1) (add32 (mul32 (m.load (a + 2 * e)) (m.load (b + 2 * e + 1)))
          (mul32 (m.load (a + 2 * e + 1)) (m.load (b + 2 * e)))) ∧
      ∀ i, i ≠ dst + 2 * e → i ≠ dst + 2 * e + 1 → (cmulElement d a b dst e m).read i = m.read i

/-- In Ready, with its results in OUT, CONV completes (R201); word OUTOFF + k of OUT is the power f1·f1 + f2·f2 of band k, every other
word of OUT and all other state is unchanged. The accumulator (f1, f2) of a run starts at (+0.0, +0.0), and its last two words add the plain,
unconjugated product of their bin, formed completely first (R202). -/
def Obligations.ConvStoresEveryBandPower : Prop :=
  (∀ s : State, s.ready = true → s.outoff.toNat + s.cfgNumk.toNat ≤ s.params.outw →
    ∃ t, exec .conv s = .next t ∧
      (∀ k < s.cfgNumk.toNat,
        let acc := accumulate s.buf s.kdat (s.ktab.read (4 * k)).toNat (s.ktab.read (4 * k + 1)).toNat
          (s.ktab.read (4 * k + 2)).toNat
        t.out.read (s.outoff.toNat + k) =
          s.out.storeBits s.draws (s.outoff.toNat + k) (add32 (mul32 acc.f1 acc.f1) (mul32 acc.f2 acc.f2))) ∧
      (∀ a, a < s.outoff.toNat ∨ s.outoff.toNat + s.cfgNumk.toNat ≤ a → t.out.read a = s.out.read a) ∧
      t = { s with out := t.out, draws := s.draws + 1, busy := false }) ∧
  ∀ (buf kdat : Mem) (off ptr : Nat),
    (accumulate buf kdat off 0 ptr = { f1 := decode32 0x00000000, f2 := decode32 0x00000000 }) ∧
    ∀ len, len % 2 = 0 →
      let xr := buf.load (off + len)
      let xi := buf.load (off + len + 1)
      let kr := kdat.load (ptr + len)
      let ki := kdat.load (ptr + len + 1)
      let acc := accumulate buf kdat off len ptr
      accumulate buf kdat off (len + 2) ptr =
        { f1 := add32 acc.f1 (sub32 (mul32 xr kr) (mul32 xi ki))
          f2 := add32 acc.f2 (add32 (mul32 xr ki) (mul32 xi kr)) }

/-- R217: in Ready, with the declared samples in IN, PACK completes; frame position p lands on BUF word (p + H) mod F, missing
positions are +0.0, and every word of BUF from F on and all other state is unchanged. -/
def Obligations.PackRotatesTheFrame : Prop :=
  ∀ s : State, s.ready = true → s.inoff.toNat + s.inlen.toNat ≤ s.params.inw → 1 ≤ s.cfgLogn.toNat →
    ∃ t, exec .pack s = .next t ∧
      (∀ p < s.fftSize, t.buf.read ((p + s.fftSize / 2) % s.fftSize) =
        if p < s.inlen.toNat then s.inp.read (s.inoff.toNat + p) else 0x00000000) ∧
      (∀ a, s.fftSize ≤ a → t.buf.read a = s.buf.read a) ∧ t = { s with buf := t.buf, busy := false }

/-- R220: in Ready, with both ranges in their memories, XFORM completes: BUF is the forward real transform of the packed frame, and
OUT the convolution of that BUF. -/
def Obligations.XformCompletes : Prop :=
  ∀ s : State, s.ready = true → s.inoff.toNat + s.inlen.toNat ≤ s.params.inw →
    s.outoff.toNat + s.cfgNumk.toNat ≤ s.params.outw →
    ∃ t, exec .xform s = .next t ∧
      t.buf = rfftCore s.draws s.cfgLogn.toNat .forward
        (packFrame s.inp s.inoff.toNat s.inlen.toNat (s.fftSize / 2) s.buf) ∧
      t.out = convBands (s.draws + 1) t.buf s.ktab s.kdat s.outoff.toNat s.cfgNumk.toNat s.out ∧
      t = { s with buf := t.buf, out := t.out, draws := s.draws + 2, busy := false }

/-- XFORM leaves the state that PACK; RFFT.F CFG_LOGN; CONV leave, as the host issues them (R221). That NaN encodings and the draw
counter agree too is the model's choice of draws, assumption 6. -/
def Obligations.XformEqualsItsThreeCommands : Prop :=
  ∀ (s : State) (rest : List HostAction), s.Inv → s.ready = true → s.err = false →
    s.inoff.toNat + s.inlen.toNat ≤ s.params.inw → s.outoff.toNat + s.cfgNumk.toNat ≤ s.params.outw →
    ∃ t₁ t₂ t,
      step { s with
        host := .write (regAddr .cmd) (encode .pack) :: .write (regAddr .cmd) (encode (.rfftF s.cfgLogn.toNat)) ::
          .write (regAddr .cmd) (encode .conv) :: rest } = .next t₁ ∧
      step t₁ = .next t₂ ∧ step t₂ = .next t ∧ t.host = rest ∧ t.err = false ∧
      step { s with host := .write (regAddr .cmd) (encode .xform) :: rest } = .next t

/-- R233: KCOMMIT checks CFG_LOGN, then CFG_NUMK, then the descriptors in ascending order, reports the first that fails, and sets
READY when none does. -/
def Obligations.KcommitChecksTheWholeTable : Prop :=
  ∀ s : State,
    (s.cfgLogn.toNat < 1 ∨ s.params.lognMax < s.cfgLogn.toNat → exec .kcommit s = .next (s.withFault 5 1)) ∧
    (1 ≤ s.cfgLogn.toNat → s.cfgLogn.toNat ≤ s.params.lognMax →
      (s.cfgNumk.toNat < 1 ∨ s.params.kmax < s.cfgNumk.toNat → exec .kcommit s = .next (s.withFault 5 2)) ∧
      (1 ≤ s.cfgNumk.toNat → s.cfgNumk.toNat ≤ s.params.kmax →
        (∀ k < s.cfgNumk.toNat,
          ((s.ktab.read (4 * k + 1)).toNat % 2 = 1 ∨ 2 ^ s.cfgLogn.toNat < (s.ktab.read (4 * k + 1)).toNat ∨
            2 ^ s.cfgLogn.toNat + 2 < (s.ktab.read (4 * k)).toNat + (s.ktab.read (4 * k + 1)).toNat ∨
            s.params.kdw < (s.ktab.read (4 * k + 2)).toNat + (s.ktab.read (4 * k + 1)).toNat) →
          (∀ j < k, (descriptor s.ktab j).legal (2 ^ s.cfgLogn.toNat) s.params.kdw = true) →
          exec .kcommit s = .next (s.withFault 6 (BitVec.ofNat 32 k))) ∧
        ((∀ k < s.cfgNumk.toNat,
          (s.ktab.read (4 * k + 1)).toNat % 2 = 0 ∧ (s.ktab.read (4 * k + 1)).toNat ≤ 2 ^ s.cfgLogn.toNat ∧
            (s.ktab.read (4 * k)).toNat + (s.ktab.read (4 * k + 1)).toNat ≤ 2 ^ s.cfgLogn.toNat + 2 ∧
            (s.ktab.read (4 * k + 2)).toNat + (s.ktab.read (4 * k + 1)).toNat ≤ s.params.kdw) →
          exec .kcommit s = .next { s with ready := true, busy := false })))

/-- R236: in Ready, with IDX below CFG_NUMK, RES takes the CF word of descriptor IDX bit for bit and nothing else changes; otherwise
the command faults and RES is unchanged. -/
def Obligations.KfreqReadsTheBandFrequency : Prop :=
  ∀ s : State,
    (s.ready = true → s.idx.toNat < s.cfgNumk.toNat →
      exec .kfreq s = .next { s with res := s.ktab.read (4 * s.idx.toNat + 3), busy := false }) ∧
    (s.ready = false → exec .kfreq s = .next (s.withFault 3 0x08000000)) ∧
    (s.ready = true → s.cfgNumk.toNat ≤ s.idx.toNat → exec .kfreq s = .next (s.withFault 4 6))

/-- What no command writes, and what each leaves of the rest: the table of writers (R51). -/
def Obligations.CommandsWriteOnlyWhatTheTableSays : Prop :=
  ∀ (i : Instr) (s t : State), exec i s = .next t →
    (t.params = s.params ∧ t.host = s.host ∧ t.lastRead = s.lastRead ∧ t.boots = s.boots) ∧
    (t.cfgLogn = s.cfgLogn ∧ t.cfgNumk = s.cfgNumk) ∧
    (t.opa = s.opa ∧ t.opb = s.opb ∧ t.opd = s.opd ∧ t.len = s.len ∧ t.idx = s.idx ∧ t.inoff = s.inoff ∧
      t.inlen = s.inlen ∧ t.outoff = s.outoff) ∧
    (t.inp = s.inp ∧ t.ktab = s.ktab ∧ t.kdat = s.kdat) ∧
    (i ≠ .kfreq → t.res = s.res) ∧ (i ≠ .kcommit → t.ready = s.ready) ∧
    (i = .nop ∨ i = .conv ∨ i = .kcommit ∨ i = .kfreq → t.buf = s.buf) ∧
    (i ≠ .conv → i ≠ .xform → t.out = s.out) ∧
    (t.err = false → t.errCode = s.errCode ∧ t.errInfo = s.errInfo) ∧ (s.err = true → t.err = true)

/-- Which words of BUF and OUT a command leaves: every word outside its row of R74. For RFFT.I the words L and L + 1, which lie inside its
row, are left too: R175's own decision (D16). -/
def Obligations.WordsOutsideTheRangeAreUnchanged : Prop :=
  ∀ (s t : State) (a : Nat),
    (∀ n, exec (.cfftF n) s = .next t ∨ exec (.cfftI n) s = .next t → 2 * 2 ^ n ≤ a → t.buf.read a = s.buf.read a) ∧
    (∀ n, exec (.rfftF n) s = .next t → 2 ^ n + 2 ≤ a → t.buf.read a = s.buf.read a) ∧
    (∀ n, exec (.rfftI n) s = .next t → 2 ^ n ≤ a → t.buf.read a = s.buf.read a) ∧
    (exec .cmul s = .next t → a < s.opd.toNat ∨ s.opd.toNat + 2 * s.len.toNat ≤ a → t.buf.read a = s.buf.read a) ∧
    (exec .pack s = .next t → s.fftSize ≤ a → t.buf.read a = s.buf.read a) ∧
    (exec .xform s = .next t → s.fftSize + 2 ≤ a → t.buf.read a = s.buf.read a) ∧
    (exec .conv s = .next t ∨ exec .xform s = .next t →
      a < s.outoff.toNat ∨ s.outoff.toNat + s.cfgNumk.toNat ≤ a → t.out.read a = s.out.read a)

/-- Each operand register is read by the commands R21 lists and by no other: for the rest its value only passes through. That NaN encodings
and the draw counter agree too is the model's choice of draws, assumption 6. -/
def Obligations.OperandsMatterOnlyToTheirCommands : Prop :=
  ∀ (i : Instr) (s : State) (v : Word),
    (i ≠ .cmul →
      exec i { s with opa := v } = onNext (fun t => { t with opa := v }) (exec i s) ∧
      exec i { s with opb := v } = onNext (fun t => { t with opb := v }) (exec i s) ∧
      exec i { s with opd := v } = onNext (fun t => { t with opd := v }) (exec i s) ∧
      exec i { s with len := v } = onNext (fun t => { t with len := v }) (exec i s)) ∧
    (i ≠ .kfreq → exec i { s with idx := v } = onNext (fun t => { t with idx := v }) (exec i s)) ∧
    (i ≠ .pack → i ≠ .xform →
      exec i { s with inoff := v } = onNext (fun t => { t with inoff := v }) (exec i s) ∧
      exec i { s with inlen := v } = onNext (fun t => { t with inlen := v }) (exec i s)) ∧
    (i ≠ .conv → i ≠ .xform → exec i { s with outoff := v } = onNext (fun t => { t with outoff := v }) (exec i s))

/-! ### Arithmetic -/

/-- A word is the datum its sign, exponent and fraction fields say, in both formats (R120); every non-NaN binary32 word has exactly one
datum and every non-NaN datum exactly one word; the word drawn for a NaN is a NaN encoding (R63, R128). -/
def Obligations.EncodingsAreThoseOfIeee754 : Prop :=
  (∀ (neg : Bool) (e f : Nat), f < 2 ^ 23 →
    (e < 255 → decode32 (BitVec.ofNat 32 (neg.toNat * 2 ^ 31 + e * 2 ^ 23 + f)) =
      .fin neg (if e = 0 then f * 2 ^ 925 else (2 ^ 23 + f) * 2 ^ (924 + e))) ∧
    decode32 (BitVec.ofNat 32 (neg.toNat * 2 ^ 31 + 255 * 2 ^ 23 + f)) = if f = 0 then .inf neg else .nan) ∧
  (∀ (neg : Bool) (e f : Nat), f < 2 ^ 52 →
    (e < 2047 → decode64 (BitVec.ofNat 64 (neg.toNat * 2 ^ 63 + e * 2 ^ 52 + f)) =
      .fin neg (if e = 0 then f else (2 ^ 52 + f) * 2 ^ (e - 1))) ∧
    decode64 (BitVec.ofNat 64 (neg.toNat * 2 ^ 63 + 2047 * 2 ^ 52 + f)) = if f = 0 then .inf neg else .nan) ∧
  (∀ (w q : Word), decode32 w ≠ .nan → encode32 q (decode32 w) = w) ∧
  (∀ w w' : Word, decode32 w = decode32 w' → decode32 w ≠ .nan → w = w') ∧
  (∀ w : Word, decode32 w = .nan ↔ w.toNat / 2 ^ 23 % 2 ^ 8 = 255 ∧ w.toNat % 2 ^ 23 ≠ 0) ∧
  ∀ (d : Nat) (sp : Space) (i : Nat), decode32 (nanWord d sp i) = .nan

/-- A rounded result that is stored reads back as the same datum, a NaN as a NaN (R10, R128). -/
def Obligations.StoredResultReadsBack : Prop :=
  ∀ (m : Mem) (d i : Nat) (x : Fp), (m.store d i (round32 x)).load i = round32 x

/-- R121: `to64` is exact: every binary32 datum is a binary64 datum of the same value and sign; infinities and NaN stay. -/
def Obligations.WideningIsExact : Prop :=
  ∀ (w : Word) (q : DWord), to64 (decode32 w) = decode32 w ∧
    (decode32 w ≠ .nan → decode64 (encode64 q (to64 (decode32 w))) = decode32 w) ∧
    ∀ (neg : Bool) (k : Nat), decode32 w = .fin neg k → roundTo binary64 neg k 0 = .fin neg k

/-- R122: `round32` gives the nearest binary32 value, ties to the even significand; what rounds beyond the largest finite value gives
infinity of its sign; zeros, infinities and NaN stay. The rounding `roundTo` every primitive ends in does the same in both formats,
for a number counted in any parts of a unit. -/
def Obligations.RoundingIsToNearestEven : Prop :=
  (∀ (neg : Bool) (k : Nat), nearest32 neg k 0 (round32 (.fin neg k)) ∧
    round32 (.fin neg 0) = .fin neg 0 ∧ round32 (.inf neg) = .inf neg ∧ round32 .nan = .nan) ∧
  ∀ (neg : Bool) (k sh : Nat), nearest32 neg k sh (roundTo binary32 neg k sh) ∧ nearest64 neg k sh (roundTo binary64 neg k sh)

/-- The sum, difference and product in both formats: the exact result rounded once to nearest, ties to even, with the IEEE results for
zeros, infinities and NaN (R123, R124, R125). -/
def Obligations.ArithmeticRoundsTheExactResultOnce : Prop :=
  ieeeArithmetic nearest32 add32 sub32 mul32 neg32 ∧ ieeeArithmetic nearest64 add64 sub64 mul64 neg64

/-- `scale32(a, n)` divides by 2^n with one rounding to nearest, ties to even: `mul32(0.5, a)` is `scale32(a, 1)`, and scaling by 1 changes no binary32 datum
(R126). -/
def Obligations.ScalingIsMultiplicationByAPowerOfTwo : Prop :=
  (∀ a : Fp, mul32 fpHalf a = scale32 1 a) ∧ (∀ w : Word, scale32 0 (decode32 w) = decode32 w) ∧
  (∀ (neg : Bool) (k n : Nat), nearest32 neg k n (scale32 n (.fin neg k)) ∧ scale32 n (.inf neg) = .inf neg ∧
    scale32 n .nan = .nan) ∧
  ∀ (neg : Bool) (k n : Nat), n ≤ 24 →
    mul32 (.fin false (2 ^ (1074 - n))) (.fin neg k) = scale32 n (.fin neg k) ∧
    (finite32 k → scale32 n (.fin neg (2 ^ n * k)) = .fin neg k)

/-- The recurrence step, in the order of R134 and from the old twiddle; the start (1.0, +0.0) (R156); and the worked values for ROM rows 2
and 3 and the quarter turn of row 4 (R135). -/
def Obligations.RecurrenceGivesTheListedTwiddles : Prop :=
  (∀ (w : Twiddle) (p : Seed),
    (wstep w p).wr = add64 (sub64 (mul64 w.wr p.wpr) (mul64 w.wi p.wpi)) w.wr ∧
    (wstep w p).wi = add64 (add64 (mul64 w.wi p.wpr) (mul64 w.wr p.wpi)) w.wi) ∧
  encode64 0x7FF8000000000000 (stageTwiddle 3 .forward 0).wr = 0x3FF0000000000000 ∧
  encode64 0x7FF8000000000000 (stageTwiddle 3 .forward 0).wi = 0x0000000000000000 ∧
  encode64 0x7FF8000000000000 (stageTwiddle 2 .forward 1).wr = 0x0000000000000000 ∧
  encode64 0x7FF8000000000000 (stageTwiddle 2 .forward 1).wi = 0x3FF0000000000000 ∧
  encode64 0x7FF8000000000000 (stageTwiddle 3 .forward 1).wr = 0x3FE6A09E667F3BCC ∧
  encode64 0x7FF8000000000000 (stageTwiddle 3 .forward 1).wi = 0x3FE6A09E667F3BCD ∧
  encode64 0x7FF8000000000000 (stageTwiddle 3 .forward 2).wr = 0xBCB0000000000000 ∧
  encode64 0x7FF8000000000000 (stageTwiddle 3 .forward 2).wi = 0x3FF0000000000000 ∧
  encode64 0x7FF8000000000000 (stageTwiddle 3 .inverse 3).wr = 0xBFE6A09E667F3BCE ∧
  encode64 0x7FF8000000000000 (stageTwiddle 3 .inverse 3).wi = 0xBFE6A09E667F3BCB ∧
  encode64 0x7FF8000000000000 (stageTwiddle 4 .forward 4).wr = 0xBC90000000000000 ∧
  encode64 0x7FF8000000000000 (stageTwiddle 4 .forward 4).wi = 0x3FF0000000000000

/-! ### The transforms, the multiplier and the convolution -/

/-- R154: `rev_n` reads the n-bit index backwards, and the permutation leaves sample rev_n(i) in place i, bit patterns unchanged,
touching nothing beyond. -/
def Obligations.BitReversalPermutesSamples : Prop :=
  ∀ n : Nat,
    (∀ i, bitrev n i < 2 ^ n) ∧
    (∀ i b, i < 2 ^ n → b < n → (bitrev n i).testBit b = i.testBit (n - 1 - b)) ∧
    ∀ m : Mem, (∀ i < 2 ^ n, (bitrevPermute n m).read (2 * i) = m.read (2 * bitrev n i) ∧
        (bitrevPermute n m).read (2 * i + 1) = m.read (2 * bitrev n i + 1)) ∧
      ∀ a, 2 * 2 ^ n ≤ a → (bitrevPermute n m).read a = m.read a

/-- R157: the twiddle used for index m of a stage is wstep applied m times to (1.0, +0.0), the same for all its butterflies. -/
def Obligations.StageUsesTheIteratedTwiddle : Prop :=
  ∀ (d s n : Nat) (dir : Direction) (m : Mem),
    stage d s n dir m =
      loop (2 ^ (s - 1)) (fun mi x =>
        loop (2 ^ n / (2 * 2 ^ (s - 1))) (fun g y =>
          butterfly d (g * (2 * 2 ^ (s - 1)) + mi) (g * (2 * 2 ^ (s - 1)) + mi + 2 ^ (s - 1)) (stageTwiddle s dir mi) y) x) m

/-- The butterflies of one stage may be performed in any order with the same result, only the twiddle of each index being fixed
(R69, R158). That NaN encodings agree too is the model's choice of draws, assumption 6. -/
def Obligations.ButterfliesOfAStageCommute : Prop :=
  ∀ (d s n : Nat) (dir : Direction) (m : Mem) (order : List (Nat × Nat)),
    order.Perm ((List.range (2 ^ (s - 1))).product (List.range (2 ^ n / (2 * 2 ^ (s - 1))))) →
    order.foldl (fun x p => butterfly d (p.2 * (2 * 2 ^ (s - 1)) + p.1) (p.2 * (2 * 2 ^ (s - 1)) + p.1 + 2 ^ (s - 1))
      (stageTwiddle s dir p.1) x) m = stage d s n dir m

/-- R159: INVERSE divides each of the 2N words by N = 2^n once, after the last stage, FORWARD scales nothing, and for n = 0 no non-NaN
word changes. -/
def Obligations.InverseScalesEveryWordOnce : Prop :=
  ∀ (d n : Nat) (m : Mem),
    cfftCore d n .forward m = loop n (fun t x => stage d (t + 1) n .forward x) (bitrevPermute n m) ∧
    cfftCore d n .inverse m = scaleAll d n (loop n (fun t x => stage d (t + 1) n .inverse x) (bitrevPermute n m)) ∧
    (∀ t < 2 * 2 ^ n, (scaleAll d n m).read t = m.storeBits d t (scale32 n (m.load t))) ∧
    (∀ t, 2 * 2 ^ n ≤ t → (scaleAll d n m).read t = m.read t) ∧
    (n = 0 → ∀ t, m.load t ≠ .nan → (scaleAll d n m).read t = m.read t)

/-- CFFT neither writes nor reads a word at index 2N or above: those words read as before, and two buffers that agree below 2N are
transformed alike (R160). That NaN encodings agree too is the model's choice of draws, assumption 6. -/
def Obligations.CfftDependsOnItsRangeOnly : Prop :=
  ∀ (d n : Nat) (dir : Direction) (m : Mem),
    (∀ a, 2 * 2 ^ n ≤ a → (cfftCore d n dir m).read a = m.read a) ∧
    ∀ m' : Mem, m.space = m'.space → (∀ a < 2 * 2 ^ n, m.read a = m'.read a) →
      ∀ a < 2 * 2 ^ n, (cfftCore d n dir m).read a = (cfftCore d n dir m').read a

/-- The two-point transform: with finite non-zero second samples, FORWARD gives z0 + z1 and z0 − z1 in binary32 (R160). -/
def Obligations.TwoPointTransformAddsAndSubtracts : Prop :=
  ∀ (d : Nat) (m : Mem) (a b : Bool) (j k : Nat), m.load 2 = .fin a j → m.load 3 = .fin b k → j ≠ 0 → k ≠ 0 →
    (cfftCore d 1 .forward m).read 0 = m.storeBits d 0 (add32 (m.load 0) (m.load 2)) ∧
    (cfftCore d 1 .forward m).read 1 = m.storeBits d 1 (add32 (m.load 1) (m.load 3)) ∧
    (cfftCore d 1 .forward m).read 2 = m.storeBits d 2 (sub32 (m.load 0) (m.load 2)) ∧
    (cfftCore d 1 .forward m).read 3 = m.storeBits d 3 (sub32 (m.load 1) (m.load 3))

/-- R175: FORWARD ignores what words L and L+1 held and leaves +0.0 in words 1 and L+1; INVERSE ignores words 1 and L+1 and leaves
words L and L+1 as they were. That NaN encodings agree too where a word is ignored is the model's choice of draws, assumption 6. -/
def Obligations.TrailingWordsOfTheRealTransform : Prop :=
  ∀ (d n : Nat) (m : Mem) (x y : Word), 1 ≤ n →
    (rfftCore d n .forward m).read 1 = 0x00000000 ∧ (rfftCore d n .forward m).read (2 ^ n + 1) = 0x00000000 ∧
    rfftCore d n .forward ((m.write (2 ^ n) x).write (2 ^ n + 1) y) = rfftCore d n .forward m ∧
    (rfftCore d n .inverse m).read (2 ^ n) = m.read (2 ^ n) ∧
    (rfftCore d n .inverse m).read (2 ^ n + 1) = m.read (2 ^ n + 1) ∧
    ∀ a < 2 ^ n, (rfftCore d n .inverse ((m.write 1 x).write (2 ^ n + 1) y)).read a = (rfftCore d n .inverse m).read a

/-- CMUL where both sources keep their originals is the element-wise product of the original sources, whatever the overlap (R192). -/
def Obligations.CmulGivesTheProductOfTheOriginals : Prop :=
  ∀ (d a b dst n : Nat) (m : Mem), keepsOriginals a b dst n a → keepsOriginals a b dst n b → ∀ e < n,
    (cmulRange d a b dst n m).read (dst + 2 * e) =
      m.storeBits d (dst + 2 * e) (sub32 (mul32 (m.load (a + 2 * e)) (m.load (b + 2 * e)))
        (mul32 (m.load (a + 2 * e + 1)) (m.load (b + 2 * e + 1)))) ∧
    (cmulRange d a b dst n m).read (dst + 2 * e + 1) =
      m.storeBits d (dst + 2 * e + 1) (add32 (mul32 (m.load (a + 2 * e)) (m.load (b + 2 * e + 1)))
        (mul32 (m.load (a + 2 * e + 1)) (m.load (b + 2 * e))))

/-- A band with an empty run outputs +0.0, no band outputs −0.0 or any negative value, and a NaN in a band's run or kernel makes that
band's output a NaN (R204). -/
def Obligations.BandPowerIsNeverNegative : Prop :=
  ∀ (buf kdat : Mem) (d : Descriptor),
    (d.len = 0 → bandPower buf kdat d = .fin false 0) ∧
    (bandPower buf kdat d = .nan ∨ bandPower buf kdat d = .inf false ∨ ∃ k, bandPower buf kdat d = .fin false k) ∧
    ∀ b < d.len / 2, (buf.load (d.off + 2 * b) = .nan ∨ buf.load (d.off + 2 * b + 1) = .nan ∨
      kdat.load (d.ptr + 2 * b) = .nan ∨ kdat.load (d.ptr + 2 * b + 1) = .nan) → bandPower buf kdat d = .nan

/-! ### The split pass of the real transform -/

/-- The split pass uses for index k, at k = 1 .. M/2 − 1 with M = 2^n / 2, wstep applied k − 1 times to (1.0 + WPR[n], ±WPI[n]); bin 0,
the middle bin M/2 and every word from L = 2^n on are untouched (R172, R173). -/
def Obligations.SplitPassUsesTheIteratedTwiddle : Prop :=
  ∀ (d n : Nat) (dir : Direction) (m : Mem),
    splitPass d n dir m = loop (2 ^ n / 2 / 2 - 1) (fun t x => splitPair d n (t + 1) dir (splitTwiddle n dir (t + 1)) x) m ∧
    (∀ a < 2, (splitPass d n dir m).read a = m.read a) ∧
    (2 ≤ n → (splitPass d n dir m).read (2 ^ n / 2) = m.read (2 ^ n / 2) ∧
      (splitPass d n dir m).read (2 ^ n / 2 + 1) = m.read (2 ^ n / 2 + 1)) ∧
    ∀ a, 2 ^ n ≤ a → (splitPass d n dir m).read a = m.read a

/-- The pairs (k, M − k) of the split pass may be performed in any order with the same result, only the twiddle of each k being
fixed (R173). That NaN encodings agree too is the model's choice of draws, assumption 6. -/
def Obligations.SplitPairsMayRunInAnyOrder : Prop :=
  ∀ (d n : Nat) (dir : Direction) (m : Mem) (order : List Nat),
    order.Perm ((List.range (2 ^ n / 2 / 2 - 1)).map (· + 1)) →
    order.foldl (fun x k => splitPair d n k dir (splitTwiddle n dir k) x) m = splitPass d n dir m

/-- R173: the four words the split pass stores for each k, from the four they held before it: h1 + w·h2 in bin k and conj(h1 − w·h2) in
bin M − k, with w the twiddle of index k and c2 = −0.5 forward, +0.5 inverse. No other word changes. -/
def Obligations.SplitPassStoresTheStatedPairs : Prop :=
  ∀ (d n : Nat) (dir : Direction) (m : Mem),
    (∀ k, 1 ≤ k → k ≤ 2 ^ n / 2 / 2 - 1 →
      let c2 : Fp := if dir = .forward then decode32 0xBF000000 else decode32 0x3F000000
      let half : Fp := decode32 0x3F000000
      let w := splitTwiddle n dir k
      let i1 := 2 * k
      let i2 := 2 * k + 1
      let i3 := 2 ^ n - 2 * k
      let i4 := 2 ^ n - 2 * k + 1
      let h1r := mul32 half (add32 (m.load i1) (m.load i3))
      let h1i := mul32 half (sub32 (m.load i2) (m.load i4))
      let h2r := mul32 (neg32 c2) (add32 (m.load i2) (m.load i4))
      let h2i := mul32 c2 (sub32 (m.load i1) (m.load i3))
      let t := splitPass d n dir m
      t.read i1 = m.storeBits d i1
        (round32 (sub64 (add64 (to64 h1r) (mul64 w.wr (to64 h2r))) (mul64 w.wi (to64 h2i)))) ∧
      t.read i2 = m.storeBits d i2
        (round32 (add64 (add64 (to64 h1i) (mul64 w.wr (to64 h2i))) (mul64 w.wi (to64 h2r)))) ∧
      t.read i3 = m.storeBits d i3
        (round32 (add64 (sub64 (to64 h1r) (mul64 w.wr (to64 h2r))) (mul64 w.wi (to64 h2i)))) ∧
      t.read i4 = m.storeBits d i4
        (round32 (add64 (add64 (to64 (neg32 h1i)) (mul64 w.wr (to64 h2i))) (mul64 w.wi (to64 h2r))))) ∧
    ∀ a, (∀ k, 1 ≤ k → k ≤ 2 ^ n / 2 / 2 - 1 →
      a ≠ 2 * k ∧ a ≠ 2 * k + 1 ∧ a ≠ 2 ^ n - 2 * k ∧ a ≠ 2 ^ n - 2 * k + 1) →
      (splitPass d n dir m).read a = m.read a

/-! ### The butterfly -/

/-- R158: the four words a butterfly leaves, from the four it read, for every twiddle and every datum: w·z[j] is formed in binary64 and
rounded once to binary32, sample j takes the difference and sample i the sum. No other word changes. -/
def Obligations.ButterflyStoresTheStatedWords : Prop :=
  ∀ (d i j : Nat) (w : Twiddle) (m : Mem), i ≠ j →
    let ar := to64 (m.load (2 * j))
    let ai := to64 (m.load (2 * j + 1))
    let tr := round32 (sub64 (mul64 w.wr ar) (mul64 w.wi ai))
    let ti := round32 (add64 (mul64 w.wr ai) (mul64 w.wi ar))
    let t := butterfly d i j w m
    t.read (2 * j) = m.storeBits d (2 * j) (sub32 (m.load (2 * i)) tr) ∧
    t.read (2 * j + 1) = m.storeBits d (2 * j + 1) (sub32 (m.load (2 * i + 1)) ti) ∧
    t.read (2 * i) = m.storeBits d (2 * i) (add32 (m.load (2 * i)) tr) ∧
    t.read (2 * i + 1) = m.storeBits d (2 * i + 1) (add32 (m.load (2 * i + 1)) ti) ∧
    ∀ a, a ≠ 2 * i → a ≠ 2 * i + 1 → a ≠ 2 * j → a ≠ 2 * j + 1 → t.read a = m.read a
end

