-- ==== Sys2Proof/Laws/Memory.lean ====
section
/-! SUPPORT. What reading and writing a memory do: read after write, the canonical form, and `Mem.Touches`, the one fact
every algorithm over a memory is described by. -/

namespace Sys2Proof.Machine

theorem cellAt_setCell_same (i : Nat) (v : Word) (l : List WordCell) : cellAt i (setCell i v l) = some v := by
  induction l with
  | nil => simp [setCell, cellAt]
  | cons c rest ih =>
    simp only [setCell]
    split
    · next h => simp [cellAt, Nat.ne_of_lt h, ih]
    · split <;> simp [cellAt]

theorem cellAt_setCell_other {i j : Nat} (h : j ≠ i) (v : Word) (l : List WordCell) :
    cellAt j (setCell i v l) = cellAt j l := by
  induction l with
  | nil => simp [setCell, cellAt, h.symm]
  | cons c rest ih =>
    simp only [setCell]
    split
    · simp [cellAt, ih]
    · split
      · next hc => simp [cellAt, h.symm, hc ▸ h.symm]
      · simp [cellAt, h.symm]

@[simp] theorem Mem.write_space (m : Mem) (i : Nat) (v : Word) : (m.write i v).space = m.space := rfl
@[simp] theorem Mem.write_boot (m : Mem) (i : Nat) (v : Word) : (m.write i v).boot = m.boot := rfl
@[simp] theorem Mem.store_space (m : Mem) (d i : Nat) (x : Fp) : (m.store d i x).space = m.space := rfl
@[simp] theorem Mem.store_boot (m : Mem) (d i : Nat) (x : Fp) : (m.store d i x).boot = m.boot := rfl

/-- Read after write, the same word. -/
@[simp] theorem Mem.read_write_same (m : Mem) (i : Nat) (v : Word) : (m.write i v).read i = v := by
  simp [Mem.read, Mem.write, cellAt_setCell_same]

/-- Read after write, another word. -/
theorem Mem.read_write_other (m : Mem) {i j : Nat} (h : j ≠ i) (v : Word) : (m.write i v).read j = m.read j := by
  simp [Mem.read, Mem.write, cellAt_setCell_other h]

/-- Read after write, whichever word. -/
theorem Mem.read_write (m : Mem) (i j : Nat) (v : Word) : (m.write i v).read j = if j = i then v else m.read j := by
  split
  · next h => subst h; simp
  · next h => exact m.read_write_other h v

theorem Mem.read_store (m : Mem) (d i j : Nat) (x : Fp) :
    (m.store d i x).read j = if j = i then m.storeBits d i x else m.read j := m.read_write i j _

/-- The encoding a store leaves depends on the memory by its name only. -/
theorem Mem.storeBits_congr {m m' : Mem} (h : m.space = m'.space) (d i : Nat) (x : Fp) :
    m.storeBits d i x = m'.storeBits d i x := by simp [Mem.storeBits, h]

/-- Every index of the list lies above `k`, and the list is rising. -/
theorem cellsRising_cons {c : WordCell} {l : List WordCell} :
    cellsRising (c :: l) = true ↔ (∀ x ∈ l, c.1 < x.1) ∧ cellsRising l = true := by
  induction l generalizing c with
  | nil => simp [cellsRising]
  | cons b rest ih =>
    simp only [cellsRising, Bool.and_eq_true, decide_eq_true_eq, List.mem_cons, forall_eq_or_imp]
    constructor
    · rintro ⟨h, hr⟩
      exact ⟨⟨h, fun x hx => lt_trans h ((ih.1 hr).1 x hx)⟩, hr⟩
    · rintro ⟨⟨h, -⟩, hr⟩
      exact ⟨h, hr⟩

theorem mem_setCell {x : WordCell} {i : Nat} {v : Word} {l : List WordCell} (h : x ∈ setCell i v l) :
    x = (i, v) ∨ x ∈ l := by
  induction l with
  | nil => simpa [setCell] using h
  | cons c rest ih =>
    simp only [setCell] at h
    split at h
    · rcases List.mem_cons.1 h with h | h
      · simp [h]
      · rcases ih h with h | h <;> simp [h]
    · split at h <;> simp only [List.mem_cons] at h ⊢ <;> tauto

theorem setCell_rising (i : Nat) (v : Word) {l : List WordCell} (h : cellsRising l = true) :
    cellsRising (setCell i v l) = true := by
  induction l with
  | nil => simp [setCell, cellsRising]
  | cons c rest ih =>
    obtain ⟨hc, hr⟩ := cellsRising_cons.1 h
    simp only [setCell]
    split
    · next hi =>
      refine cellsRising_cons.2 ⟨fun x hx => ?_, ih hr⟩
      rcases mem_setCell hx with rfl | hx
      · exact hi
      · exact hc x hx
    · next hi =>
      split
      · next he => exact cellsRising_cons.2 ⟨fun x hx => by simpa [← he] using hc x hx, hr⟩
      · next he =>
        have hlt : i < c.1 := by omega
        refine cellsRising_cons.2 ⟨fun x hx => ?_, h⟩
        rcases List.mem_cons.1 hx with rfl | hx
        · exact hlt
        · exact lt_trans hlt (hc x hx)

/-- Writing keeps the canonical form. -/
theorem Mem.write_wf (m : Mem) (i : Nat) (v : Word) (h : m.wf = true) : (m.write i v).wf = true :=
  setCell_rising i v h

/-- Writing a word the memory has keeps every cell within it. -/
theorem Mem.write_within (m : Mem) {i size : Nat} (v : Word) (hi : i < size) (h : m.within size = true) :
    (m.write i v).within size = true := by
  simp only [Mem.within, Mem.write, List.all_eq_true, decide_eq_true_eq] at *
  intro x hx
  rcases mem_setCell hx with rfl | hx
  · exact hi
  · exact h x hx

/-- A later write of the same word replaces the earlier one. -/
theorem setCell_setCell_same (i : Nat) (u v : Word) (l : List WordCell) :
    setCell i v (setCell i u l) = setCell i v l := by
  induction l with
  | nil => simp [setCell]
  | cons c rest ih =>
    by_cases h : c.1 < i
    · simp [setCell, h, ih]
    · by_cases he : c.1 = i <;> simp [setCell, h, he]

/-- Writes of different words may be done in either order. -/
theorem setCell_comm {i j : Nat} (h : i ≠ j) (u v : Word) (l : List WordCell) :
    setCell i u (setCell j v l) = setCell j v (setCell i u l) := by
  induction l with
  | nil =>
    rcases Nat.lt_or_gt_of_ne h with hlt | hlt
    · simp [setCell, hlt, Nat.not_lt.2 hlt.le, h.symm]
    · simp [setCell, hlt, Nat.not_lt.2 hlt.le, h]
  | cons c rest ih =>
    rcases Nat.lt_trichotomy c.1 i with hi | hi | hi <;> rcases Nat.lt_trichotomy c.1 j with hj | hj | hj <;>
      simp only [setCell] <;> split_ifs <;> simp_all [setCell] <;> try omega
    all_goals split_ifs <;> first | rfl | omega

theorem Mem.write_write_same (m : Mem) (i : Nat) (u v : Word) : (m.write i u).write i v = m.write i v := by
  simp [Mem.write, setCell_setCell_same]

theorem Mem.write_comm (m : Mem) {i j : Nat} (h : i ≠ j) (u v : Word) :
    (m.write j v).write i u = (m.write i u).write j v := by
  simp [Mem.write, setCell_comm h]

/-- `m'` is `m` after writes of words in `P` only: it keeps its name, its canonical form and its bound, and every word
outside `P` reads as before. -/
structure Mem.Touches (P : Nat → Prop) (m m' : Mem) : Prop where
  space : m'.space = m.space
  boot : m'.boot = m.boot
  wf : m.wf = true → m'.wf = true
  within : ∀ size, (∀ i, P i → i < size) → m.within size = true → m'.within size = true
  other : ∀ i, ¬ P i → m'.read i = m.read i

theorem Mem.Touches.refl (P : Nat → Prop) (m : Mem) : Mem.Touches P m m :=
  ⟨rfl, rfl, id, fun _ _ h => h, fun _ _ => rfl⟩

theorem Mem.Touches.trans {P : Nat → Prop} {a b c : Mem} (h : Mem.Touches P a b) (h' : Mem.Touches P b c) :
    Mem.Touches P a c :=
  ⟨h'.space.trans h.space, h'.boot.trans h.boot, fun w => h'.wf (h.wf w), fun n p w => h'.within n p (h.within n p w),
    fun i hi => (h'.other i hi).trans (h.other i hi)⟩

theorem Mem.Touches.mono {P Q : Nat → Prop} {a b : Mem} (h : Mem.Touches P a b) (hpq : ∀ i, P i → Q i) :
    Mem.Touches Q a b :=
  ⟨h.space, h.boot, h.wf, fun n p => h.within n fun i hi => p i (hpq i hi), fun i hi => h.other i fun hp => hi (hpq i hp)⟩

theorem Mem.touches_write {P : Nat → Prop} (m : Mem) {i : Nat} (hi : P i) (v : Word) :
    Mem.Touches P m (m.write i v) :=
  ⟨rfl, rfl, m.write_wf i v, fun _ hp => m.write_within v (hp i hi), fun j hj =>
    m.read_write_other (fun e => hj (by rw [e]; exact hi)) v⟩

theorem Mem.touches_store {P : Nat → Prop} (m : Mem) {i : Nat} (hi : P i) (d : Nat) (x : Fp) :
    Mem.Touches P m (m.store d i x) := m.touches_write hi _

theorem Mem.touches_write_lt (m : Mem) {i b : Nat} (hi : i < b) (v : Word) : Mem.Touches (· < b) m (m.write i v) :=
  m.touches_write (P := (· < b)) hi v

theorem Mem.touches_store_lt (m : Mem) {i b : Nat} (hi : i < b) (d : Nat) (x : Fp) :
    Mem.Touches (· < b) m (m.store d i x) := m.touches_write_lt hi _

@[simp] theorem loop_zero {α : Type} (f : Nat → α → α) (a : α) : loop 0 f a = a := rfl
theorem loop_succ {α : Type} (n : Nat) (f : Nat → α → α) (a : α) : loop (n + 1) f a = f n (loop n f a) := rfl
@[simp] theorem loopDown_zero {α : Type} (f : Nat → α → α) (a : α) : loopDown 0 f a = a := rfl
theorem loopDown_succ {α : Type} (n : Nat) (f : Nat → α → α) (a : α) :
    loopDown (n + 1) f a = loopDown n f (f n a) := rfl

/-- An ascending loop keeps whatever each of its iterations keeps. -/
theorem loop_induct {α : Type} (p : α → Prop) {n : Nat} {f : Nat → α → α} {a : α} (h0 : p a)
    (hs : ∀ i < n, ∀ x, p x → p (f i x)) : p (loop n f a) := by
  induction n with
  | zero => exact h0
  | succ n ih => exact hs n (Nat.lt_succ_self n) _ (ih fun i hi => hs i (Nat.lt_succ_of_lt hi))

/-- A descending loop keeps whatever each of its iterations keeps. -/
theorem loopDown_induct {α : Type} (p : α → Prop) {n : Nat} {f : Nat → α → α} {a : α} (h0 : p a)
    (hs : ∀ i < n, ∀ x, p x → p (f i x)) : p (loopDown n f a) := by
  induction n generalizing a with
  | zero => exact h0
  | succ n ih => exact ih (hs n (Nat.lt_succ_self n) a h0) fun i hi => hs i (Nat.lt_succ_of_lt hi)

theorem Mem.touches_loop {P : Nat → Prop} {n : Nat} {f : Nat → Mem → Mem} (m : Mem)
    (hf : ∀ i < n, ∀ x, Mem.Touches P x (f i x)) : Mem.Touches P m (loop n f m) :=
  loop_induct (Mem.Touches P m) (.refl P m) fun i hi x hx => hx.trans (hf i hi x)

theorem Mem.touches_loopDown {P : Nat → Prop} {n : Nat} {f : Nat → Mem → Mem} (m : Mem)
    (hf : ∀ i < n, ∀ x, Mem.Touches P x (f i x)) : Mem.Touches P m (loopDown n f m) :=
  loopDown_induct (Mem.Touches P m) (.refl P m) fun i hi x hx => hx.trans (hf i hi x)

/-- No index below the bound is named exactly when none of them satisfies the predicate. -/
theorem firstIndex_none {p : Nat → Bool} {n : Nat} : firstIndex p n = none ↔ ∀ j < n, p j = false := by
  induction n with
  | zero => simp [firstIndex]
  | succ n ih =>
    simp only [firstIndex]
    constructor
    · intro h j hj
      split at h
      · cases h
      · next hn =>
        rcases Nat.lt_succ_iff_lt_or_eq.1 hj with hj | rfl
        · exact ih.1 hn j hj
        · cases hp : p j <;> simp_all
    · intro h
      rw [ih.2 fun j hj => h j (Nat.lt_succ_of_lt hj)]
      simp [h n (Nat.lt_succ_self n)]

/-- The first index that satisfies the predicate: below the bound, and nothing before it does. -/
theorem firstIndex_some {p : Nat → Bool} {n k : Nat} (h : firstIndex p n = some k) :
    k < n ∧ p k = true ∧ ∀ j < k, p j = false := by
  induction n with
  | zero => cases h
  | succ n ih =>
    simp only [firstIndex] at h
    split at h
    · next j hj =>
      cases h
      exact ⟨Nat.lt_succ_of_lt (ih hj).1, (ih hj).2⟩
    · next hn =>
      split at h
      · next hp =>
        cases h
        exact ⟨Nat.lt_succ_self _, hp, firstIndex_none.1 hn⟩
      · cases h

/-- A memory nothing has written is in canonical form. -/
@[simp] theorem Mem.unwritten_wf (sp : Config.Space) (boot : Nat) : (Mem.unwritten sp boot).wf = true := rfl

/-- A word nothing has written is the free value of its memory, power-on and index (R67, R292). -/
@[simp] theorem Mem.read_unwritten (sp : Config.Space) (boot i : Nat) :
    (Mem.unwritten sp boot).read i = Config.powerOnWord boot sp i := rfl

/-- Every memory of the reset state is in canonical form. -/
theorem State.reset_mem_wf (sp : Config.Space) : (State.reset.mem sp).wf = true := by cases sp <;> rfl

/-- A loop that carries a value stepped once an iteration is a loop over the iterates of that value. -/
theorem loop_iterate {α β : Type} (n : Nat) (f : Nat → β → α → α) (g : β → β) (a : α) (b : β) :
    loop n (fun i (st : α × β) => (f i st.2 st.1, g st.2)) (a, b) = (loop n (fun i x => f i (g^[i] b) x) a, g^[n] b) := by
  induction n with
  | zero => rfl
  | succ n ih => rw [loop_succ, ih, loop_succ, Function.iterate_succ_apply']

/-- A loop is the fold over its indices. -/
theorem loop_eq_foldl {α : Type} (n : Nat) (f : Nat → α → α) (a : α) :
    loop n f a = (List.range n).foldl (fun x i => f i x) a := by
  induction n with
  | zero => rfl
  | succ n ih => rw [loop_succ, ih, List.range_succ, List.foldl_append]; rfl

end Sys2Proof.Machine
end

