-- ==== Sys2Proof/Laws/Fourier.lean ====
section
/-! SUPPORT. Which words each algorithm over a memory touches (20_memory.md R74). -/

namespace Sys2Proof.Machine

theorem bitrev_lt (n i : Nat) : bitrev n i < 2 ^ n := by
  induction n generalizing i with
  | zero => simp [bitrev]
  | succ n ih =>
    have h1 := ih (i / 2)
    have h2 : i % 2 * 2 ^ n ≤ 1 * 2 ^ n := Nat.mul_le_mul_right _ (by omega)
    simp only [bitrev, pow_succ]
    omega

theorem swapSamples_touches {P : Nat → Prop} {i j : Nat} (hi : P (2 * i)) (hi' : P (2 * i + 1)) (hj : P (2 * j))
    (hj' : P (2 * j + 1)) (m : Mem) : Mem.Touches P m (swapSamples i j m) :=
  (((m.touches_write hi _).trans (Mem.touches_write _ hj _)).trans (Mem.touches_write _ hi' _)).trans
    (Mem.touches_write _ hj' _)

theorem bitrevPermute_touches (n : Nat) (m : Mem) : Mem.Touches (· < 2 * 2 ^ n) m (bitrevPermute n m) := by
  refine Mem.touches_loop m fun i hi x => ?_
  have := bitrev_lt n i
  split
  · exact swapSamples_touches (by omega) (by omega) (by omega) (by omega) x
  · exact .refl _ x

theorem butterfly_touches {P : Nat → Prop} {i j : Nat} (hi : P (2 * i)) (hi' : P (2 * i + 1)) (hj : P (2 * j))
    (hj' : P (2 * j + 1)) (d : Nat) (w : Twiddle) (m : Mem) : Mem.Touches P m (butterfly d i j w m) :=
  (((m.touches_store hj d _).trans (Mem.touches_store _ hj' d _)).trans (Mem.touches_store _ hi d _)).trans
    (Mem.touches_store _ hi' d _)

/-- Block `g` of stage `s` ends within the 2^n samples. -/
theorem block_bound {s n g mi : Nat} (hg : g < 2 ^ n / (2 * 2 ^ (s - 1))) (hm : mi < 2 ^ (s - 1)) :
    g * (2 * 2 ^ (s - 1)) + mi + 2 ^ (s - 1) < 2 ^ n := by
  have h1 : (g + 1) * (2 * 2 ^ (s - 1)) ≤ 2 ^ n := (Nat.le_div_iff_mul_le (by positivity)).1 hg
  rw [Nat.add_mul] at h1
  omega

theorem stageIndex_touches (d : Nat) {s n mi : Nat} (hm : mi < 2 ^ (s - 1)) (w : Twiddle) (m : Mem) :
    Mem.Touches (· < 2 * 2 ^ n) m (stageIndex d s n mi w m) := by
  refine Mem.touches_loop m fun g hg x => ?_
  have := block_bound hg hm
  exact butterfly_touches (by omega) (by omega) (by omega) (by omega) d w x

theorem stage_touches (d s n : Nat) (dir : Direction) (m : Mem) :
    Mem.Touches (· < 2 * 2 ^ n) m (stage d s n dir m) :=
  loop_induct (fun st : Mem × Twiddle => Mem.Touches (· < 2 * 2 ^ n) m st.1) (.refl _ m) fun _ hm st hst =>
    hst.trans (stageIndex_touches d hm st.2 st.1)

theorem scaleAll_touches (d n : Nat) (m : Mem) : Mem.Touches (· < 2 * 2 ^ n) m (scaleAll d n m) :=
  Mem.touches_loop m fun _ ht x => x.touches_store_lt ht d _

/-- CFFT touches words 0 to 2·2^n − 1 only (R74, R160). -/
theorem cfftCore_touches (d n : Nat) (dir : Direction) (m : Mem) :
    Mem.Touches (· < 2 * 2 ^ n) m (cfftCore d n dir m) := by
  have h := (bitrevPermute_touches n m).trans
    (Mem.touches_loop (n := n) _ fun t _ x => stage_touches d (t + 1) n dir x)
  cases dir with
  | forward => exact h
  | inverse => exact h.trans (scaleAll_touches d n _)

theorem splitPair_touches {P : Nat → Prop} {n k : Nat} (h1 : P (2 * k)) (h2 : P (2 * k + 1)) (h3 : P (2 ^ n - 2 * k))
    (h4 : P (2 ^ n - 2 * k + 1)) (d : Nat) (dir : Direction) (w : Twiddle) (m : Mem) :
    Mem.Touches P m (splitPair d n k dir w m) :=
  (((m.touches_store h1 d _).trans (Mem.touches_store _ h2 d _)).trans (Mem.touches_store _ h3 d _)).trans
    (Mem.touches_store _ h4 d _)

/-- The split pass touches bins 1 to M − 1 only, and not the middle bin M/2 (R172, R173). -/
theorem splitPass_touches (d n : Nat) (dir : Direction) (m : Mem) :
    Mem.Touches (fun i => (2 ≤ i ∧ i < 2 ^ n / 2) ∨ (2 ^ n / 2 + 2 ≤ i ∧ i < 2 ^ n)) m (splitPass d n dir m) := by
  refine loop_induct (fun st : Mem × Twiddle => Mem.Touches _ m st.1) (.refl _ m) fun k hk st hst =>
    hst.trans (splitPair_touches ?_ ?_ ?_ ?_ d dir st.2 st.1)
  all_goals
    rcases n with _ | n
    · simp at hk
    · have h2 : 2 ^ (n + 1) = 2 * 2 ^ n := by rw [pow_succ, Nat.mul_comm]
      rcases n with _ | n
      · simp at hk
      · have h3 : 2 ^ (n + 1) = 2 * 2 ^ n := by rw [pow_succ, Nat.mul_comm]
        omega

theorem zeroTail_touches (n : Nat) (m : Mem) : Mem.Touches (· < 2 ^ n + 2) m (zeroTail n m) :=
  (m.touches_write_lt (by omega) _).trans (Mem.touches_write_lt _ (by omega) _)

theorem packEnds_touches (d n : Nat) (m : Mem) : Mem.Touches (· < 2 ^ n + 2) m (packEnds d n m) :=
  ((m.touches_store_lt (by positivity) d _).trans (Mem.touches_store_lt _ (by omega) d _)).trans
    (Mem.touches_write_lt _ (by have := Nat.one_le_two_pow (n := n); omega) _)

theorem unpackEnds_touches (d n : Nat) (m : Mem) : Mem.Touches (· < 2) m (unpackEnds d n m) :=
  (m.touches_store_lt (by omega) d _).trans (Mem.touches_store_lt _ (by omega) d _)

theorem two_pow_pred {n : Nat} (h : 1 ≤ n) : 2 * 2 ^ (n - 1) = 2 ^ n := by
  obtain ⟨m, rfl⟩ := Nat.exists_eq_add_of_le' h
  simp [pow_succ, Nat.mul_comm]

/-- RFFT.F touches words 0 to L + 1 only (R74, R176), for n = 0 too. -/
theorem rfftForward_touches (d n : Nat) (m : Mem) : Mem.Touches (· < 2 ^ n + 2) m (rfftCore d n .forward m) := by
  have h2 : 2 * 2 ^ (n - 1) ≤ 2 ^ n + 1 := by
    cases n with
    | zero => decide
    | succ k => simp [pow_succ, Nat.mul_comm]
  exact (((zeroTail_touches n m).trans ((cfftCore_touches d (n - 1) .forward _).mono fun i (hi : i < _) => by
    omega)).trans ((splitPass_touches d n .forward _).mono fun i hi => by omega)).trans (packEnds_touches d n _)

/-- RFFT.I touches words 0 to L − 1 only (R175). -/
theorem rfftInverse_touches (d : Nat) {n : Nat} (hn : 1 ≤ n) (m : Mem) :
    Mem.Touches (· < 2 ^ n) m (rfftCore d n .inverse m) := by
  have h2 := two_pow_pred hn
  have h1 : 1 ≤ 2 ^ (n - 1) := Nat.one_le_two_pow
  exact (((unpackEnds_touches d n m).mono fun i (hi : i < 2) => by omega).trans
    ((splitPass_touches d n .inverse _).mono fun i hi => by omega)).trans
      ((cfftCore_touches d (n - 1) .inverse _).mono fun i (hi : i < _) => by omega)

/-- RFFT touches words 0 to L + 1 only (R74). -/
theorem rfftCore_touches (d : Nat) {n : Nat} (hn : 1 ≤ n) (dir : Direction) (m : Mem) :
    Mem.Touches (· < 2 ^ n + 2) m (rfftCore d n dir m) := by
  cases dir with
  | forward => exact rfftForward_touches d n m
  | inverse => exact (rfftInverse_touches d hn m).mono fun i hi => by omega

theorem packFrame_touches (inp : Mem) (inoff inlen h : Nat) (m : Mem) :
    Mem.Touches (· < 2 * h) m (packFrame inp inoff inlen h m) :=
  (Mem.touches_loop m fun i hi x => x.touches_write_lt (by omega) _).trans
    (Mem.touches_loop _ fun i hi x => x.touches_write_lt (by omega) _)

theorem convBands_touches (d : Nat) (buf ktab kdat : Mem) (outoff numk : Nat) (m : Mem) :
    Mem.Touches (fun i => outoff ≤ i ∧ i < outoff + numk) m (convBands d buf ktab kdat outoff numk m) :=
  Mem.touches_loop m fun k hk x => x.touches_store ⟨by omega, by omega⟩ d _

theorem cmulElement_touches {P : Nat → Prop} (d a b dst e : Nat) (h : P (dst + 2 * e)) (h' : P (dst + 2 * e + 1))
    (m : Mem) : Mem.Touches P m (cmulElement d a b dst e m) :=
  (m.touches_store h d _).trans (Mem.touches_store _ h' d _)

/-- CMUL touches the destination range only (R74). -/
theorem cmulRange_touches (d a b dst n : Nat) (m : Mem) :
    Mem.Touches (fun i => dst ≤ i ∧ i < dst + 2 * n) m (cmulRange d a b dst n m) := by
  unfold cmulRange
  split
  · exact Mem.touches_loopDown m fun e he x => cmulElement_touches d a b dst e ⟨by omega, by omega⟩ ⟨by omega, by omega⟩ x
  · exact Mem.touches_loop m fun e he x => cmulElement_touches d a b dst e ⟨by omega, by omega⟩ ⟨by omega, by omega⟩ x

end Sys2Proof.Machine
end

