-- ==== Sys2Proof/Laws/State.lean ====
section
/-! SUPPORT. One lemma for each field of each update of the state, so that no proof unfolds a record update. -/

namespace Sys2Proof.Machine

section raiseFault
variable (s : State) (c : FaultCode) (w : Word)

@[simp] theorem State.raiseFault_busy : (s.raiseFault c w).busy = false := rfl
@[simp] theorem State.raiseFault_ready : (s.raiseFault c w).ready = s.ready := rfl
@[simp] theorem State.raiseFault_err : (s.raiseFault c w).err = true := rfl
@[simp] theorem State.raiseFault_errCode : (s.raiseFault c w).errCode = c.bits := rfl
@[simp] theorem State.raiseFault_errInfo : (s.raiseFault c w).errInfo = w := rfl
@[simp] theorem State.raiseFault_cfgLogn : (s.raiseFault c w).cfgLogn = s.cfgLogn := rfl
@[simp] theorem State.raiseFault_cfgNumk : (s.raiseFault c w).cfgNumk = s.cfgNumk := rfl
@[simp] theorem State.raiseFault_opa : (s.raiseFault c w).opa = s.opa := rfl
@[simp] theorem State.raiseFault_opb : (s.raiseFault c w).opb = s.opb := rfl
@[simp] theorem State.raiseFault_opd : (s.raiseFault c w).opd = s.opd := rfl
@[simp] theorem State.raiseFault_len : (s.raiseFault c w).len = s.len := rfl
@[simp] theorem State.raiseFault_idx : (s.raiseFault c w).idx = s.idx := rfl
@[simp] theorem State.raiseFault_res : (s.raiseFault c w).res = s.res := rfl
@[simp] theorem State.raiseFault_inoff : (s.raiseFault c w).inoff = s.inoff := rfl
@[simp] theorem State.raiseFault_inlen : (s.raiseFault c w).inlen = s.inlen := rfl
@[simp] theorem State.raiseFault_outoff : (s.raiseFault c w).outoff = s.outoff := rfl
@[simp] theorem State.raiseFault_buf : (s.raiseFault c w).buf = s.buf := rfl
@[simp] theorem State.raiseFault_inp : (s.raiseFault c w).inp = s.inp := rfl
@[simp] theorem State.raiseFault_out : (s.raiseFault c w).out = s.out := rfl
@[simp] theorem State.raiseFault_ktab : (s.raiseFault c w).ktab = s.ktab := rfl
@[simp] theorem State.raiseFault_kdat : (s.raiseFault c w).kdat = s.kdat := rfl
@[simp] theorem State.raiseFault_params : (s.raiseFault c w).params = s.params := rfl
@[simp] theorem State.raiseFault_host : (s.raiseFault c w).host = s.host := rfl
@[simp] theorem State.raiseFault_lastRead : (s.raiseFault c w).lastRead = s.lastRead := rfl
@[simp] theorem State.raiseFault_draws : (s.raiseFault c w).draws = s.draws := rfl
@[simp] theorem State.raiseFault_boots : (s.raiseFault c w).boots = s.boots := rfl

end raiseFault

section clearFault
variable (s : State)

@[simp] theorem State.clearFault_busy : s.clearFault.busy = s.busy := rfl
@[simp] theorem State.clearFault_ready : s.clearFault.ready = s.ready := rfl
@[simp] theorem State.clearFault_err : s.clearFault.err = false := rfl
@[simp] theorem State.clearFault_errCode : s.clearFault.errCode = 0 := rfl
@[simp] theorem State.clearFault_errInfo : s.clearFault.errInfo = 0 := rfl
@[simp] theorem State.clearFault_cfgLogn : s.clearFault.cfgLogn = s.cfgLogn := rfl
@[simp] theorem State.clearFault_cfgNumk : s.clearFault.cfgNumk = s.cfgNumk := rfl
@[simp] theorem State.clearFault_opa : s.clearFault.opa = s.opa := rfl
@[simp] theorem State.clearFault_opb : s.clearFault.opb = s.opb := rfl
@[simp] theorem State.clearFault_opd : s.clearFault.opd = s.opd := rfl
@[simp] theorem State.clearFault_len : s.clearFault.len = s.len := rfl
@[simp] theorem State.clearFault_idx : s.clearFault.idx = s.idx := rfl
@[simp] theorem State.clearFault_res : s.clearFault.res = s.res := rfl
@[simp] theorem State.clearFault_inoff : s.clearFault.inoff = s.inoff := rfl
@[simp] theorem State.clearFault_inlen : s.clearFault.inlen = s.inlen := rfl
@[simp] theorem State.clearFault_outoff : s.clearFault.outoff = s.outoff := rfl
@[simp] theorem State.clearFault_buf : s.clearFault.buf = s.buf := rfl
@[simp] theorem State.clearFault_inp : s.clearFault.inp = s.inp := rfl
@[simp] theorem State.clearFault_out : s.clearFault.out = s.out := rfl
@[simp] theorem State.clearFault_ktab : s.clearFault.ktab = s.ktab := rfl
@[simp] theorem State.clearFault_kdat : s.clearFault.kdat = s.kdat := rfl
@[simp] theorem State.clearFault_params : s.clearFault.params = s.params := rfl
@[simp] theorem State.clearFault_host : s.clearFault.host = s.host := rfl
@[simp] theorem State.clearFault_lastRead : s.clearFault.lastRead = s.lastRead := rfl
@[simp] theorem State.clearFault_draws : s.clearFault.draws = s.draws := rfl
@[simp] theorem State.clearFault_boots : s.clearFault.boots = s.boots := rfl

end clearFault

section accept
variable (s : State)

@[simp] theorem State.accept_busy : s.accept.busy = true := rfl
@[simp] theorem State.accept_ready : s.accept.ready = s.ready := rfl
@[simp] theorem State.accept_err : s.accept.err = s.err := rfl
@[simp] theorem State.accept_errCode : s.accept.errCode = s.errCode := rfl
@[simp] theorem State.accept_errInfo : s.accept.errInfo = s.errInfo := rfl
@[simp] theorem State.accept_cfgLogn : s.accept.cfgLogn = s.cfgLogn := rfl
@[simp] theorem State.accept_cfgNumk : s.accept.cfgNumk = s.cfgNumk := rfl
@[simp] theorem State.accept_opa : s.accept.opa = s.opa := rfl
@[simp] theorem State.accept_opb : s.accept.opb = s.opb := rfl
@[simp] theorem State.accept_opd : s.accept.opd = s.opd := rfl
@[simp] theorem State.accept_len : s.accept.len = s.len := rfl
@[simp] theorem State.accept_idx : s.accept.idx = s.idx := rfl
@[simp] theorem State.accept_res : s.accept.res = s.res := rfl
@[simp] theorem State.accept_inoff : s.accept.inoff = s.inoff := rfl
@[simp] theorem State.accept_inlen : s.accept.inlen = s.inlen := rfl
@[simp] theorem State.accept_outoff : s.accept.outoff = s.outoff := rfl
@[simp] theorem State.accept_buf : s.accept.buf = s.buf := rfl
@[simp] theorem State.accept_inp : s.accept.inp = s.inp := rfl
@[simp] theorem State.accept_out : s.accept.out = s.out := rfl
@[simp] theorem State.accept_ktab : s.accept.ktab = s.ktab := rfl
@[simp] theorem State.accept_kdat : s.accept.kdat = s.kdat := rfl
@[simp] theorem State.accept_params : s.accept.params = s.params := rfl
@[simp] theorem State.accept_host : s.accept.host = s.host := rfl
@[simp] theorem State.accept_lastRead : s.accept.lastRead = s.lastRead := rfl
@[simp] theorem State.accept_draws : s.accept.draws = s.draws := rfl
@[simp] theorem State.accept_boots : s.accept.boots = s.boots := rfl

end accept

section finish
variable (s : State)

@[simp] theorem State.finish_busy : s.finish.busy = false := rfl
@[simp] theorem State.finish_ready : s.finish.ready = s.ready := rfl
@[simp] theorem State.finish_err : s.finish.err = s.err := rfl
@[simp] theorem State.finish_errCode : s.finish.errCode = s.errCode := rfl
@[simp] theorem State.finish_errInfo : s.finish.errInfo = s.errInfo := rfl
@[simp] theorem State.finish_cfgLogn : s.finish.cfgLogn = s.cfgLogn := rfl
@[simp] theorem State.finish_cfgNumk : s.finish.cfgNumk = s.cfgNumk := rfl
@[simp] theorem State.finish_opa : s.finish.opa = s.opa := rfl
@[simp] theorem State.finish_opb : s.finish.opb = s.opb := rfl
@[simp] theorem State.finish_opd : s.finish.opd = s.opd := rfl
@[simp] theorem State.finish_len : s.finish.len = s.len := rfl
@[simp] theorem State.finish_idx : s.finish.idx = s.idx := rfl
@[simp] theorem State.finish_res : s.finish.res = s.res := rfl
@[simp] theorem State.finish_inoff : s.finish.inoff = s.inoff := rfl
@[simp] theorem State.finish_inlen : s.finish.inlen = s.inlen := rfl
@[simp] theorem State.finish_outoff : s.finish.outoff = s.outoff := rfl
@[simp] theorem State.finish_buf : s.finish.buf = s.buf := rfl
@[simp] theorem State.finish_inp : s.finish.inp = s.inp := rfl
@[simp] theorem State.finish_out : s.finish.out = s.out := rfl
@[simp] theorem State.finish_ktab : s.finish.ktab = s.ktab := rfl
@[simp] theorem State.finish_kdat : s.finish.kdat = s.kdat := rfl
@[simp] theorem State.finish_params : s.finish.params = s.params := rfl
@[simp] theorem State.finish_host : s.finish.host = s.host := rfl
@[simp] theorem State.finish_lastRead : s.finish.lastRead = s.lastRead := rfl
@[simp] theorem State.finish_draws : s.finish.draws = s.draws := rfl
@[simp] theorem State.finish_boots : s.finish.boots = s.boots := rfl

end finish

section nextDraw
variable (s : State)

@[simp] theorem State.nextDraw_busy : s.nextDraw.busy = s.busy := rfl
@[simp] theorem State.nextDraw_ready : s.nextDraw.ready = s.ready := rfl
@[simp] theorem State.nextDraw_err : s.nextDraw.err = s.err := rfl
@[simp] theorem State.nextDraw_errCode : s.nextDraw.errCode = s.errCode := rfl
@[simp] theorem State.nextDraw_errInfo : s.nextDraw.errInfo = s.errInfo := rfl
@[simp] theorem State.nextDraw_cfgLogn : s.nextDraw.cfgLogn = s.cfgLogn := rfl
@[simp] theorem State.nextDraw_cfgNumk : s.nextDraw.cfgNumk = s.cfgNumk := rfl
@[simp] theorem State.nextDraw_opa : s.nextDraw.opa = s.opa := rfl
@[simp] theorem State.nextDraw_opb : s.nextDraw.opb = s.opb := rfl
@[simp] theorem State.nextDraw_opd : s.nextDraw.opd = s.opd := rfl
@[simp] theorem State.nextDraw_len : s.nextDraw.len = s.len := rfl
@[simp] theorem State.nextDraw_idx : s.nextDraw.idx = s.idx := rfl
@[simp] theorem State.nextDraw_res : s.nextDraw.res = s.res := rfl
@[simp] theorem State.nextDraw_inoff : s.nextDraw.inoff = s.inoff := rfl
@[simp] theorem State.nextDraw_inlen : s.nextDraw.inlen = s.inlen := rfl
@[simp] theorem State.nextDraw_outoff : s.nextDraw.outoff = s.outoff := rfl
@[simp] theorem State.nextDraw_buf : s.nextDraw.buf = s.buf := rfl
@[simp] theorem State.nextDraw_inp : s.nextDraw.inp = s.inp := rfl
@[simp] theorem State.nextDraw_out : s.nextDraw.out = s.out := rfl
@[simp] theorem State.nextDraw_ktab : s.nextDraw.ktab = s.ktab := rfl
@[simp] theorem State.nextDraw_kdat : s.nextDraw.kdat = s.kdat := rfl
@[simp] theorem State.nextDraw_params : s.nextDraw.params = s.params := rfl
@[simp] theorem State.nextDraw_host : s.nextDraw.host = s.host := rfl
@[simp] theorem State.nextDraw_lastRead : s.nextDraw.lastRead = s.lastRead := rfl
@[simp] theorem State.nextDraw_draws : s.nextDraw.draws = s.draws + 1 := rfl
@[simp] theorem State.nextDraw_boots : s.nextDraw.boots = s.boots := rfl

end nextDraw

section markReady
variable (s : State)

@[simp] theorem State.markReady_busy : s.markReady.busy = s.busy := rfl
@[simp] theorem State.markReady_ready : s.markReady.ready = true := rfl
@[simp] theorem State.markReady_err : s.markReady.err = s.err := rfl
@[simp] theorem State.markReady_errCode : s.markReady.errCode = s.errCode := rfl
@[simp] theorem State.markReady_errInfo : s.markReady.errInfo = s.errInfo := rfl
@[simp] theorem State.markReady_cfgLogn : s.markReady.cfgLogn = s.cfgLogn := rfl
@[simp] theorem State.markReady_cfgNumk : s.markReady.cfgNumk = s.cfgNumk := rfl
@[simp] theorem State.markReady_opa : s.markReady.opa = s.opa := rfl
@[simp] theorem State.markReady_opb : s.markReady.opb = s.opb := rfl
@[simp] theorem State.markReady_opd : s.markReady.opd = s.opd := rfl
@[simp] theorem State.markReady_len : s.markReady.len = s.len := rfl
@[simp] theorem State.markReady_idx : s.markReady.idx = s.idx := rfl
@[simp] theorem State.markReady_res : s.markReady.res = s.res := rfl
@[simp] theorem State.markReady_inoff : s.markReady.inoff = s.inoff := rfl
@[simp] theorem State.markReady_inlen : s.markReady.inlen = s.inlen := rfl
@[simp] theorem State.markReady_outoff : s.markReady.outoff = s.outoff := rfl
@[simp] theorem State.markReady_buf : s.markReady.buf = s.buf := rfl
@[simp] theorem State.markReady_inp : s.markReady.inp = s.inp := rfl
@[simp] theorem State.markReady_out : s.markReady.out = s.out := rfl
@[simp] theorem State.markReady_ktab : s.markReady.ktab = s.ktab := rfl
@[simp] theorem State.markReady_kdat : s.markReady.kdat = s.kdat := rfl
@[simp] theorem State.markReady_params : s.markReady.params = s.params := rfl
@[simp] theorem State.markReady_host : s.markReady.host = s.host := rfl
@[simp] theorem State.markReady_lastRead : s.markReady.lastRead = s.lastRead := rfl
@[simp] theorem State.markReady_draws : s.markReady.draws = s.draws := rfl
@[simp] theorem State.markReady_boots : s.markReady.boots = s.boots := rfl

end markReady

section markStale
variable (s : State)

@[simp] theorem State.markStale_busy : s.markStale.busy = s.busy := rfl
@[simp] theorem State.markStale_ready : s.markStale.ready = false := rfl
@[simp] theorem State.markStale_err : s.markStale.err = s.err := rfl
@[simp] theorem State.markStale_errCode : s.markStale.errCode = s.errCode := rfl
@[simp] theorem State.markStale_errInfo : s.markStale.errInfo = s.errInfo := rfl
@[simp] theorem State.markStale_cfgLogn : s.markStale.cfgLogn = s.cfgLogn := rfl
@[simp] theorem State.markStale_cfgNumk : s.markStale.cfgNumk = s.cfgNumk := rfl
@[simp] theorem State.markStale_opa : s.markStale.opa = s.opa := rfl
@[simp] theorem State.markStale_opb : s.markStale.opb = s.opb := rfl
@[simp] theorem State.markStale_opd : s.markStale.opd = s.opd := rfl
@[simp] theorem State.markStale_len : s.markStale.len = s.len := rfl
@[simp] theorem State.markStale_idx : s.markStale.idx = s.idx := rfl
@[simp] theorem State.markStale_res : s.markStale.res = s.res := rfl
@[simp] theorem State.markStale_inoff : s.markStale.inoff = s.inoff := rfl
@[simp] theorem State.markStale_inlen : s.markStale.inlen = s.inlen := rfl
@[simp] theorem State.markStale_outoff : s.markStale.outoff = s.outoff := rfl
@[simp] theorem State.markStale_buf : s.markStale.buf = s.buf := rfl
@[simp] theorem State.markStale_inp : s.markStale.inp = s.inp := rfl
@[simp] theorem State.markStale_out : s.markStale.out = s.out := rfl
@[simp] theorem State.markStale_ktab : s.markStale.ktab = s.ktab := rfl
@[simp] theorem State.markStale_kdat : s.markStale.kdat = s.kdat := rfl
@[simp] theorem State.markStale_params : s.markStale.params = s.params := rfl
@[simp] theorem State.markStale_host : s.markStale.host = s.host := rfl
@[simp] theorem State.markStale_lastRead : s.markStale.lastRead = s.lastRead := rfl
@[simp] theorem State.markStale_draws : s.markStale.draws = s.draws := rfl
@[simp] theorem State.markStale_boots : s.markStale.boots = s.boots := rfl

end markStale

section rfftBuf
variable (s : State) (d : Direction) (n : Nat)

@[simp] theorem State.rfftBuf_busy : (s.rfftBuf d n).busy = s.busy := rfl
@[simp] theorem State.rfftBuf_ready : (s.rfftBuf d n).ready = s.ready := rfl
@[simp] theorem State.rfftBuf_err : (s.rfftBuf d n).err = s.err := rfl
@[simp] theorem State.rfftBuf_errCode : (s.rfftBuf d n).errCode = s.errCode := rfl
@[simp] theorem State.rfftBuf_errInfo : (s.rfftBuf d n).errInfo = s.errInfo := rfl
@[simp] theorem State.rfftBuf_cfgLogn : (s.rfftBuf d n).cfgLogn = s.cfgLogn := rfl
@[simp] theorem State.rfftBuf_cfgNumk : (s.rfftBuf d n).cfgNumk = s.cfgNumk := rfl
@[simp] theorem State.rfftBuf_opa : (s.rfftBuf d n).opa = s.opa := rfl
@[simp] theorem State.rfftBuf_opb : (s.rfftBuf d n).opb = s.opb := rfl
@[simp] theorem State.rfftBuf_opd : (s.rfftBuf d n).opd = s.opd := rfl
@[simp] theorem State.rfftBuf_len : (s.rfftBuf d n).len = s.len := rfl
@[simp] theorem State.rfftBuf_idx : (s.rfftBuf d n).idx = s.idx := rfl
@[simp] theorem State.rfftBuf_res : (s.rfftBuf d n).res = s.res := rfl
@[simp] theorem State.rfftBuf_inoff : (s.rfftBuf d n).inoff = s.inoff := rfl
@[simp] theorem State.rfftBuf_inlen : (s.rfftBuf d n).inlen = s.inlen := rfl
@[simp] theorem State.rfftBuf_outoff : (s.rfftBuf d n).outoff = s.outoff := rfl
@[simp] theorem State.rfftBuf_buf : (s.rfftBuf d n).buf = rfftCore s.draws n d s.buf := rfl
@[simp] theorem State.rfftBuf_inp : (s.rfftBuf d n).inp = s.inp := rfl
@[simp] theorem State.rfftBuf_out : (s.rfftBuf d n).out = s.out := rfl
@[simp] theorem State.rfftBuf_ktab : (s.rfftBuf d n).ktab = s.ktab := rfl
@[simp] theorem State.rfftBuf_kdat : (s.rfftBuf d n).kdat = s.kdat := rfl
@[simp] theorem State.rfftBuf_params : (s.rfftBuf d n).params = s.params := rfl
@[simp] theorem State.rfftBuf_host : (s.rfftBuf d n).host = s.host := rfl
@[simp] theorem State.rfftBuf_lastRead : (s.rfftBuf d n).lastRead = s.lastRead := rfl
@[simp] theorem State.rfftBuf_draws : (s.rfftBuf d n).draws = s.draws + 1 := rfl
@[simp] theorem State.rfftBuf_boots : (s.rfftBuf d n).boots = s.boots := rfl

end rfftBuf

section convOut
variable (s : State)

@[simp] theorem State.convOut_busy : s.convOut.busy = s.busy := rfl
@[simp] theorem State.convOut_ready : s.convOut.ready = s.ready := rfl
@[simp] theorem State.convOut_err : s.convOut.err = s.err := rfl
@[simp] theorem State.convOut_errCode : s.convOut.errCode = s.errCode := rfl
@[simp] theorem State.convOut_errInfo : s.convOut.errInfo = s.errInfo := rfl
@[simp] theorem State.convOut_cfgLogn : s.convOut.cfgLogn = s.cfgLogn := rfl
@[simp] theorem State.convOut_cfgNumk : s.convOut.cfgNumk = s.cfgNumk := rfl
@[simp] theorem State.convOut_opa : s.convOut.opa = s.opa := rfl
@[simp] theorem State.convOut_opb : s.convOut.opb = s.opb := rfl
@[simp] theorem State.convOut_opd : s.convOut.opd = s.opd := rfl
@[simp] theorem State.convOut_len : s.convOut.len = s.len := rfl
@[simp] theorem State.convOut_idx : s.convOut.idx = s.idx := rfl
@[simp] theorem State.convOut_res : s.convOut.res = s.res := rfl
@[simp] theorem State.convOut_inoff : s.convOut.inoff = s.inoff := rfl
@[simp] theorem State.convOut_inlen : s.convOut.inlen = s.inlen := rfl
@[simp] theorem State.convOut_outoff : s.convOut.outoff = s.outoff := rfl
@[simp] theorem State.convOut_buf : s.convOut.buf = s.buf := rfl
@[simp] theorem State.convOut_inp : s.convOut.inp = s.inp := rfl
@[simp] theorem State.convOut_out : s.convOut.out = convBands s.draws s.buf s.ktab s.kdat s.outoff.toNat s.cfgNumk.toNat s.out := rfl
@[simp] theorem State.convOut_ktab : s.convOut.ktab = s.ktab := rfl
@[simp] theorem State.convOut_kdat : s.convOut.kdat = s.kdat := rfl
@[simp] theorem State.convOut_params : s.convOut.params = s.params := rfl
@[simp] theorem State.convOut_host : s.convOut.host = s.host := rfl
@[simp] theorem State.convOut_lastRead : s.convOut.lastRead = s.lastRead := rfl
@[simp] theorem State.convOut_draws : s.convOut.draws = s.draws + 1 := rfl
@[simp] theorem State.convOut_boots : s.convOut.boots = s.boots := rfl

end convOut

section packBuf
variable (s : State)

@[simp] theorem State.packBuf_busy : s.packBuf.busy = s.busy := rfl
@[simp] theorem State.packBuf_ready : s.packBuf.ready = s.ready := rfl
@[simp] theorem State.packBuf_err : s.packBuf.err = s.err := rfl
@[simp] theorem State.packBuf_errCode : s.packBuf.errCode = s.errCode := rfl
@[simp] theorem State.packBuf_errInfo : s.packBuf.errInfo = s.errInfo := rfl
@[simp] theorem State.packBuf_cfgLogn : s.packBuf.cfgLogn = s.cfgLogn := rfl
@[simp] theorem State.packBuf_cfgNumk : s.packBuf.cfgNumk = s.cfgNumk := rfl
@[simp] theorem State.packBuf_opa : s.packBuf.opa = s.opa := rfl
@[simp] theorem State.packBuf_opb : s.packBuf.opb = s.opb := rfl
@[simp] theorem State.packBuf_opd : s.packBuf.opd = s.opd := rfl
@[simp] theorem State.packBuf_len : s.packBuf.len = s.len := rfl
@[simp] theorem State.packBuf_idx : s.packBuf.idx = s.idx := rfl
@[simp] theorem State.packBuf_res : s.packBuf.res = s.res := rfl
@[simp] theorem State.packBuf_inoff : s.packBuf.inoff = s.inoff := rfl
@[simp] theorem State.packBuf_inlen : s.packBuf.inlen = s.inlen := rfl
@[simp] theorem State.packBuf_outoff : s.packBuf.outoff = s.outoff := rfl
@[simp] theorem State.packBuf_buf : s.packBuf.buf = packFrame s.inp s.inoff.toNat s.inlen.toNat (s.fftSize / 2) s.buf := rfl
@[simp] theorem State.packBuf_inp : s.packBuf.inp = s.inp := rfl
@[simp] theorem State.packBuf_out : s.packBuf.out = s.out := rfl
@[simp] theorem State.packBuf_ktab : s.packBuf.ktab = s.ktab := rfl
@[simp] theorem State.packBuf_kdat : s.packBuf.kdat = s.kdat := rfl
@[simp] theorem State.packBuf_params : s.packBuf.params = s.params := rfl
@[simp] theorem State.packBuf_host : s.packBuf.host = s.host := rfl
@[simp] theorem State.packBuf_lastRead : s.packBuf.lastRead = s.lastRead := rfl
@[simp] theorem State.packBuf_draws : s.packBuf.draws = s.draws := rfl
@[simp] theorem State.packBuf_boots : s.packBuf.boots = s.boots := rfl

end packBuf

/-- The memories of a state after one of them is replaced. -/
theorem State.mem_setMem (s : State) (a b : Config.Space) (m : Mem) :
    (s.setMem a m).mem b = if a = b then m else s.mem b := by cases a <;> cases b <;> rfl

@[simp] theorem State.setMem_busy (s : State) (sp : Config.Space) (m : Mem) : (s.setMem sp m).busy = s.busy := by cases sp <;> rfl
@[simp] theorem State.setMem_ready (s : State) (sp : Config.Space) (m : Mem) : (s.setMem sp m).ready = s.ready := by cases sp <;> rfl
@[simp] theorem State.setMem_err (s : State) (sp : Config.Space) (m : Mem) : (s.setMem sp m).err = s.err := by cases sp <;> rfl
@[simp] theorem State.setMem_errCode (s : State) (sp : Config.Space) (m : Mem) : (s.setMem sp m).errCode = s.errCode := by cases sp <;> rfl
@[simp] theorem State.setMem_errInfo (s : State) (sp : Config.Space) (m : Mem) : (s.setMem sp m).errInfo = s.errInfo := by cases sp <;> rfl
@[simp] theorem State.setMem_cfgLogn (s : State) (sp : Config.Space) (m : Mem) : (s.setMem sp m).cfgLogn = s.cfgLogn := by cases sp <;> rfl
@[simp] theorem State.setMem_cfgNumk (s : State) (sp : Config.Space) (m : Mem) : (s.setMem sp m).cfgNumk = s.cfgNumk := by cases sp <;> rfl
@[simp] theorem State.setMem_opa (s : State) (sp : Config.Space) (m : Mem) : (s.setMem sp m).opa = s.opa := by cases sp <;> rfl
@[simp] theorem State.setMem_opb (s : State) (sp : Config.Space) (m : Mem) : (s.setMem sp m).opb = s.opb := by cases sp <;> rfl
@[simp] theorem State.setMem_opd (s : State) (sp : Config.Space) (m : Mem) : (s.setMem sp m).opd = s.opd := by cases sp <;> rfl
@[simp] theorem State.setMem_len (s : State) (sp : Config.Space) (m : Mem) : (s.setMem sp m).len = s.len := by cases sp <;> rfl
@[simp] theorem State.setMem_idx (s : State) (sp : Config.Space) (m : Mem) : (s.setMem sp m).idx = s.idx := by cases sp <;> rfl
@[simp] theorem State.setMem_res (s : State) (sp : Config.Space) (m : Mem) : (s.setMem sp m).res = s.res := by cases sp <;> rfl
@[simp] theorem State.setMem_inoff (s : State) (sp : Config.Space) (m : Mem) : (s.setMem sp m).inoff = s.inoff := by cases sp <;> rfl
@[simp] theorem State.setMem_inlen (s : State) (sp : Config.Space) (m : Mem) : (s.setMem sp m).inlen = s.inlen := by cases sp <;> rfl
@[simp] theorem State.setMem_outoff (s : State) (sp : Config.Space) (m : Mem) : (s.setMem sp m).outoff = s.outoff := by cases sp <;> rfl
@[simp] theorem State.setMem_params (s : State) (sp : Config.Space) (m : Mem) : (s.setMem sp m).params = s.params := by cases sp <;> rfl
@[simp] theorem State.setMem_host (s : State) (sp : Config.Space) (m : Mem) : (s.setMem sp m).host = s.host := by cases sp <;> rfl
@[simp] theorem State.setMem_lastRead (s : State) (sp : Config.Space) (m : Mem) : (s.setMem sp m).lastRead = s.lastRead := by cases sp <;> rfl
@[simp] theorem State.setMem_draws (s : State) (sp : Config.Space) (m : Mem) : (s.setMem sp m).draws = s.draws := by cases sp <;> rfl
@[simp] theorem State.setMem_boots (s : State) (sp : Config.Space) (m : Mem) : (s.setMem sp m).boots = s.boots := by cases sp <;> rfl

@[simp] theorem State.afterReset_busy (s : State) : s.afterReset.busy = false := rfl
@[simp] theorem State.afterReset_ready (s : State) : s.afterReset.ready = false := rfl
@[simp] theorem State.afterReset_err (s : State) : s.afterReset.err = false := rfl
@[simp] theorem State.afterReset_errCode (s : State) : s.afterReset.errCode = 0 := rfl
@[simp] theorem State.afterReset_errInfo (s : State) : s.afterReset.errInfo = 0 := rfl
@[simp] theorem State.afterReset_cfgLogn (s : State) : s.afterReset.cfgLogn = 0 := rfl
@[simp] theorem State.afterReset_cfgNumk (s : State) : s.afterReset.cfgNumk = 0 := rfl
@[simp] theorem State.afterReset_opa (s : State) : s.afterReset.opa = 0 := rfl
@[simp] theorem State.afterReset_opb (s : State) : s.afterReset.opb = 0 := rfl
@[simp] theorem State.afterReset_opd (s : State) : s.afterReset.opd = 0 := rfl
@[simp] theorem State.afterReset_len (s : State) : s.afterReset.len = 0 := rfl
@[simp] theorem State.afterReset_idx (s : State) : s.afterReset.idx = 0 := rfl
@[simp] theorem State.afterReset_inoff (s : State) : s.afterReset.inoff = 0 := rfl
@[simp] theorem State.afterReset_inlen (s : State) : s.afterReset.inlen = 0 := rfl
@[simp] theorem State.afterReset_outoff (s : State) : s.afterReset.outoff = 0 := rfl
@[simp] theorem State.afterReset_params (s : State) : s.afterReset.params = s.params := rfl
@[simp] theorem State.afterReset_host (s : State) : s.afterReset.host = s.host := rfl
@[simp] theorem State.afterReset_lastRead (s : State) : s.afterReset.lastRead = s.lastRead := rfl
@[simp] theorem State.afterReset_draws (s : State) : s.afterReset.draws = s.draws := rfl
@[simp] theorem State.afterReset_boots (s : State) : s.afterReset.boots = s.boots + 1 := rfl
@[simp] theorem State.afterReset_mem (s : State) (sp : Config.Space) :
    s.afterReset.mem sp = Mem.unwritten sp (s.boots + 1) := by cases sp <;> rfl

end Sys2Proof.Machine
end

