-- ==== Sys2Proof/Laws/Commands.lean ====
section
/-! SUPPORT. What each command can do, said once: the checks as conditions on numbers, and how a command can end. -/

namespace Sys2Proof.Machine

open Sys2Proof.Config

/-- The conditions of R233 on one descriptor. -/
theorem Descriptor.legal_iff (d : Descriptor) (fftSize kdw : Nat) :
    d.legal fftSize kdw = true ↔
      d.len % 2 = 0 ∧ d.len ≤ fftSize ∧ d.off + d.len ≤ fftSize + 2 ∧ d.ptr + d.len ≤ kdw := by
  simp [Descriptor.legal, rangeFits, and_assoc]

theorem State.inputFits_iff (s : State) : s.inputFits = true ↔ s.inoff.toNat + s.inlen.toNat ≤ s.params.inw := by
  simp [State.inputFits, rangeFits]

theorem State.outputFits_iff (s : State) : s.outputFits = true ↔ s.outoff.toNat + s.cfgNumk.toNat ≤ s.params.outw := by
  simp [State.outputFits, rangeFits]

/-- CMUL faults with nothing: all three ranges lie in BUF (R191). -/
theorem cmulFault_none (s : State) :
    cmulFault s = none ↔
      s.opa.toNat + 2 * s.len.toNat ≤ s.params.bufw ∧ s.opb.toNat + 2 * s.len.toNat ≤ s.params.bufw ∧
        s.opd.toNat + 2 * s.len.toNat ≤ s.params.bufw := by
  unfold cmulFault rangeFits
  by_cases ha : s.opa.toNat + 2 * s.len.toNat ≤ s.params.bufw <;>
    by_cases hb : s.opb.toNat + 2 * s.len.toNat ≤ s.params.bufw <;>
      by_cases hd : s.opd.toNat + 2 * s.len.toNat ≤ s.params.bufw <;> simp [ha, hb, hd]

/-- CMUL faults with a range number: that range is the first that leaves BUF (R191). -/
theorem cmulFault_some (s : State) (w : Word) (h : cmulFault s = some w) :
    (w = 1 ∧ s.params.bufw < s.opa.toNat + 2 * s.len.toNat) ∨
      (w = 2 ∧ s.opa.toNat + 2 * s.len.toNat ≤ s.params.bufw ∧ s.params.bufw < s.opb.toNat + 2 * s.len.toNat) ∨
      (w = 3 ∧ s.opa.toNat + 2 * s.len.toNat ≤ s.params.bufw ∧ s.opb.toNat + 2 * s.len.toNat ≤ s.params.bufw ∧
        s.params.bufw < s.opd.toNat + 2 * s.len.toNat) := by
  unfold cmulFault rangeFits at h
  by_cases ha : s.opa.toNat + 2 * s.len.toNat ≤ s.params.bufw <;>
    by_cases hb : s.opb.toNat + 2 * s.len.toNat ≤ s.params.bufw <;>
      by_cases hd : s.opd.toNat + 2 * s.len.toNat ≤ s.params.bufw <;> simp [ha, hb, hd] at h <;> simp [← h] <;> omega

/-- The descriptor KCOMMIT reports is the lowest that breaks a condition (R233). -/
theorem State.badKernel_some {s : State} {k : Nat} (h : s.badKernel = some k) :
    k < s.cfgNumk.toNat ∧ (descriptor s.ktab k).legal s.fftSize s.params.kdw = false ∧
      ∀ j < k, (descriptor s.ktab j).legal s.fftSize s.params.kdw = true := by
  obtain ⟨hk, hb, hj⟩ := firstIndex_some h
  exact ⟨hk, by simpa using hb, fun j h => by simpa using hj j h⟩

/-- KCOMMIT reports no descriptor exactly when all are legal (R233). -/
theorem State.badKernel_none {s : State} :
    s.badKernel = none ↔ ∀ k < s.cfgNumk.toNat, (descriptor s.ktab k).legal s.fftSize s.params.kdw = true := by
  simp [State.badKernel, firstIndex_none]

/-- The lowest descriptor that breaks a condition is the one KCOMMIT reports (R233). -/
theorem State.badKernel_eq {s : State} {k : Nat} (hk : k < s.cfgNumk.toNat)
    (hb : (descriptor s.ktab k).legal s.fftSize s.params.kdw = false)
    (hj : ∀ j < k, (descriptor s.ktab j).legal s.fftSize s.params.kdw = true) : s.badKernel = some k := by
  cases hf : s.badKernel with
  | none => simp [State.badKernel_none.1 hf k hk] at hb
  | some l =>
    obtain ⟨-, hl, hlow⟩ := State.badKernel_some hf
    rcases Nat.lt_trichotomy l k with h | rfl | h
    · simp [hj l h] at hl
    · rfl
    · simp [hlow k h] at hb

/-- How a command can end: with a fault recorded and nothing else changed, or completed; BUSY is low after it (R93, R250,
R262). In the second case the state is the listed one. -/
theorem exec_ends (i : Instr) (s : State) :
    (∃ code info, exec i s = .next (s.raiseFault code info)) ∨
      match i with
      | .nop => exec .nop s = .next s.finish
      | .cfftF n =>
        n ≤ s.params.lognMax ∧
          exec (.cfftF n) s = .next (State.nextDraw { s with buf := cfftCore s.draws n .forward s.buf }).finish
      | .cfftI n =>
        n ≤ s.params.lognMax ∧
          exec (.cfftI n) s = .next (State.nextDraw { s with buf := cfftCore s.draws n .inverse s.buf }).finish
      | .rfftF n => 1 ≤ n ∧ n ≤ s.params.lognMax ∧ exec (.rfftF n) s = .next (s.rfftBuf .forward n).finish
      | .rfftI n => 1 ≤ n ∧ n ≤ s.params.lognMax ∧ exec (.rfftI n) s = .next (s.rfftBuf .inverse n).finish
      | .cmul =>
        cmulFault s = none ∧
          exec .cmul s = .next (State.nextDraw
            { s with buf := cmulRange s.draws s.opa.toNat s.opb.toNat s.opd.toNat s.len.toNat s.buf }).finish
      | .conv => s.ready = true ∧ s.outputFits = true ∧ exec .conv s = .next s.convOut.finish
      | .pack => s.ready = true ∧ s.inputFits = true ∧ exec .pack s = .next s.packBuf.finish
      | .xform =>
        s.ready = true ∧ s.inputFits = true ∧ s.outputFits = true ∧
          exec .xform s = .next (s.packBuf.rfftBuf .forward s.cfgLogn.toNat).convOut.finish
      | .kcommit =>
        (1 ≤ s.cfgLogn.toNat ∧ s.cfgLogn.toNat ≤ s.params.lognMax) ∧
          (1 ≤ s.cfgNumk.toNat ∧ s.cfgNumk.toNat ≤ s.params.kmax) ∧ s.badKernel = none ∧
            exec .kcommit s = .next s.markReady.finish
      | .kfreq =>
        s.ready = true ∧ s.idx.toNat < s.cfgNumk.toNat ∧
          exec .kfreq s = .next (State.finish { s with res := (descriptor s.ktab s.idx.toNat).cf }) := by
  cases i with
  | nop => exact .inr rfl
  | cfftF n =>
    by_cases h : s.params.lognMax < n
    · exact .inl ⟨_, _, if_pos h⟩
    · exact .inr ⟨by omega, if_neg h⟩
  | cfftI n =>
    by_cases h : s.params.lognMax < n
    · exact .inl ⟨_, _, if_pos h⟩
    · exact .inr ⟨by omega, if_neg h⟩
  | rfftF n =>
    by_cases h : n = 0 ∨ s.params.lognMax < n
    · exact .inl ⟨_, _, if_pos h⟩
    · exact .inr ⟨by omega, by omega, if_neg h⟩
  | rfftI n =>
    by_cases h : n = 0 ∨ s.params.lognMax < n
    · exact .inl ⟨_, _, if_pos h⟩
    · exact .inr ⟨by omega, by omega, if_neg h⟩
  | cmul =>
    cases h : cmulFault s with
    | some w => exact .inl ⟨.range, w, by simp only [exec, execCmul, h, faulted]⟩
    | none => exact .inr ⟨rfl, by simp only [exec, execCmul, h, complete]⟩
  | conv =>
    by_cases h : s.ready = false
    · exact .inl ⟨_, _, if_pos h⟩
    by_cases ho : s.outputFits = false
    · exact .inl ⟨_, _, (if_neg h).trans (if_pos ho)⟩
    · exact .inr ⟨by simpa using h, by simpa using ho, (if_neg h).trans (if_neg ho)⟩
  | pack =>
    by_cases h : s.ready = false
    · exact .inl ⟨_, _, if_pos h⟩
    by_cases hi : s.inputFits = false
    · exact .inl ⟨_, _, (if_neg h).trans (if_pos hi)⟩
    · exact .inr ⟨by simpa using h, by simpa using hi, (if_neg h).trans (if_neg hi)⟩
  | xform =>
    by_cases h : s.ready = false
    · exact .inl ⟨_, _, if_pos h⟩
    by_cases hi : s.inputFits = false
    · exact .inl ⟨_, _, (if_neg h).trans (if_pos hi)⟩
    by_cases ho : s.outputFits = false
    · exact .inl ⟨_, _, (if_neg h).trans ((if_neg hi).trans (if_pos ho))⟩
    · exact .inr ⟨by simpa using h, by simpa using hi, by simpa using ho,
        (if_neg h).trans ((if_neg hi).trans (if_neg ho))⟩
  | kcommit =>
    by_cases hl : s.cfgLogn.toNat < 1 ∨ s.params.lognMax < s.cfgLogn.toNat
    · exact .inl ⟨_, _, if_pos hl⟩
    by_cases hn : s.cfgNumk.toNat < 1 ∨ s.params.kmax < s.cfgNumk.toNat
    · exact .inl ⟨_, _, (if_neg hl).trans (if_pos hn)⟩
    cases h : s.badKernel with
    | some k =>
      exact .inl ⟨.badKernel, BitVec.ofNat 32 k, (if_neg hl).trans ((if_neg hn).trans (by simp only [h, faulted]))⟩
    | none =>
      exact .inr ⟨⟨by omega, by omega⟩, ⟨by omega, by omega⟩, rfl,
        (if_neg hl).trans ((if_neg hn).trans (by simp only [h, complete]))⟩
  | kfreq =>
    by_cases h : s.ready = false
    · exact .inl ⟨_, _, if_pos h⟩
    by_cases hi : s.cfgNumk.toNat ≤ s.idx.toNat
    · exact .inl ⟨_, _, (if_neg h).trans (if_pos hi)⟩
    · exact .inr ⟨by simpa using h, by omega, (if_neg h).trans (if_neg hi)⟩

end Sys2Proof.Machine
end

