-- ==== Sys2Proof/Laws/Decode.lean ====
section
/-! SUPPORT. Command words and their fields as numbers, and what the decoder makes of them. -/

namespace Sys2Proof

/-- A command word as a number. -/
theorem commandWord_toNat (o : BitVec 8) (d : Bool) (n : Nat) :
    (commandWord o d n).toNat = o.toNat * 2^24 + d.toNat * 2^8 + n % 2^5 := by
  unfold commandWord
  simp only [BitVec.toNat_append, BitVec.toNat_ofNat, BitVec.toNat_ofBool]
  simp only [Nat.shiftLeft_eq]
  have h1 : ∀ a : Nat, ∀ b < 2^5, a * 2^5 ||| b = a * 2^5 + b := fun a b h => by
    rw [Nat.mul_comm]; exact (Nat.two_pow_add_eq_or_of_lt h a).symm
  have h2 : ∀ a : Nat, a * 2^3 ||| 0 = a * 2^3 := fun a => by simp
  have h3 : ∀ a : Nat, ∀ b < 2^1, a * 2^1 ||| b = a * 2^1 + b := fun a b h => by
    rw [Nat.mul_comm]; exact (Nat.two_pow_add_eq_or_of_lt h a).symm
  have h4 : ∀ a : Nat, a * 2^15 ||| 0 = a * 2^15 := fun a => by simp
  simp only [Nat.zero_mod]
  rw [h1 _ _ (Nat.mod_lt _ (by norm_num)), h2, h3 _ _ (by cases d <;> simp), h4]
  omega

/-- OPC as a number (R91). -/
theorem opcField_toNat (w : Word) : (opcField w).toNat = w.toNat / 2^24 := by
  have := w.isLt
  simp [opcField, BitVec.extractLsb'_toNat, Nat.shiftRight_eq_div_pow]; omega

/-- RSV1 as a number (R91). -/
theorem rsv1Field_toNat (w : Word) : (rsv1Field w).toNat = w.toNat / 2^9 % 2^15 := by
  simp [rsv1Field, BitVec.extractLsb'_toNat, Nat.shiftRight_eq_div_pow]

/-- RSV0 as a number (R91). -/
theorem rsv0Field_toNat (w : Word) : (rsv0Field w).toNat = w.toNat / 2^5 % 2^3 := by
  simp [rsv0Field, BitVec.extractLsb'_toNat, Nat.shiftRight_eq_div_pow]

/-- LOGN as a number (R91). -/
theorem lognField_toNat (w : Word) : (lognField w).toNat = w.toNat % 2^5 := by
  simp [lognField, BitVec.extractLsb'_toNat]

/-- DIR as a number (R91). -/
theorem dirField_toNat (w : Word) : (dirField w).toNat = w.toNat / 2^8 % 2 := by
  simp only [dirField, BitVec.getLsbD]
  rw [Nat.toNat_testBit]

theorem dirField_false (w : Word) (h : w.toNat / 2^8 % 2 = 0) : dirField w = false := by
  have := dirField_toNat w; cases hd : dirField w <;> simp_all
theorem dirField_true (w : Word) (h : w.toNat / 2^8 % 2 = 1) : dirField w = true := by
  have := dirField_toNat w; cases hd : dirField w <;> simp_all

/-- A word made of its fields goes on to the opcode map, and its fields are the ones it was made of. -/
theorem decode_commandWord (o : BitVec 8) (d : Bool) (n : Nat) : decode (commandWord o d n) = decodeOpcode (commandWord o d n) ∧
  (opcField (commandWord o d n)) = o ∧ dirField (commandWord o d n) = d ∧ (lognField (commandWord o d n)).toNat = n % 2^5 := by
  have e := commandWord_toNat o d n
  have ho := o.isLt
  have hd : d.toNat < 2 := by cases d <;> simp
  refine ⟨?_, ?_, ?_, ?_⟩
  · unfold decode
    rw [if_neg]
    simp only [not_or, not_not]
    constructor
    · apply BitVec.eq_of_toNat_eq; rw [rsv1Field_toNat, e]; simp; omega
    · apply BitVec.eq_of_toNat_eq; rw [rsv0Field_toNat, e]; simp; omega
  · apply BitVec.eq_of_toNat_eq; rw [opcField_toNat, e]; omega
  · have := dirField_toNat (commandWord o d n)
    rw [e] at this
    cases d <;> cases h : dirField (commandWord o _ n) <;> simp_all <;> omega
  · rw [lognField_toNat, e]; omega

end Sys2Proof
end

