-- ==== Sys2Proof/Laws/Numerics.lean ====
section
/-! SUPPORT. What rounding does: the highest bit, division with ties to even, and rounding of a scaled number. -/

namespace Sys2Proof.Machine

/-- Halving finds the highest bit, when the doublings listed cover the number. -/
theorem topBitBy_eq : ∀ (n k : Nat), k < 2 ^ 2 ^ n → topBitBy ((List.range n).reverse.map (2 ^ ·)) k = Nat.log2 k := by
  intro n
  induction n with
  | zero =>
    intro k hk
    have : k < 2 := by simpa using hk
    interval_cases k <;> decide
  | succ n ih =>
    intro k hk
    rw [List.range_succ, List.reverse_append, List.reverse_singleton, List.singleton_append, List.map_cons, topBitBy,
      Nat.one_shiftLeft]
    split
    · next h => exact ih k h
    · next h =>
      have hpos : 2 ^ 2 ^ n ≤ k := Nat.le_of_not_lt h
      have hne : k ≠ 0 := by have := Nat.two_pow_pos (2 ^ n); omega
      have hsq : k < 2 ^ 2 ^ n * 2 ^ 2 ^ n := by rw [← pow_add, ← two_mul, ← pow_succ']; exact hk
      rw [Nat.shiftRight_eq_div_pow, ih _ (Nat.div_lt_of_lt_mul hsq)]
      have hq : k / 2 ^ 2 ^ n ≠ 0 := by
        have := Nat.div_pos hpos (Nat.two_pow_pos _); omega
      have hlog := (Nat.le_log2 hne).2 hpos
      refine ((Nat.log2_eq_iff hne).2 ⟨?_, ?_⟩).symm
      · have := Nat.log2_self_le hq
        calc 2 ^ (2 ^ n + Nat.log2 (k / 2 ^ 2 ^ n)) = 2 ^ 2 ^ n * 2 ^ Nat.log2 (k / 2 ^ 2 ^ n) := pow_add _ _ _
          _ ≤ 2 ^ 2 ^ n * (k / 2 ^ 2 ^ n) := Nat.mul_le_mul_left _ this
          _ ≤ k := Nat.mul_div_le _ _
      · have := Nat.lt_log2_self (n := k / 2 ^ 2 ^ n)
        have h1 := (Nat.div_lt_iff_lt_mul (Nat.two_pow_pos (2 ^ n))).1 this
        calc k < 2 ^ (Nat.log2 (k / 2 ^ 2 ^ n) + 1) * 2 ^ 2 ^ n := h1
          _ = 2 ^ (2 ^ n + Nat.log2 (k / 2 ^ 2 ^ n) + 1) := by rw [← pow_add]; congr 1; omega

set_option exponentiation.threshold 8192 in
/-- The highest set bit is the base-2 logarithm. -/
theorem topBit_eq (k : Nat) : topBit k = Nat.log2 k := by
  unfold topBit
  split
  · next h =>
    rw [Nat.one_shiftLeft] at h
    exact topBitBy_eq 13 k h
  · rfl

/-- A positive number lies between its highest bit and the next. -/
theorem topBit_bounds {k : Nat} (h : 0 < k) : 2 ^ topBit k ≤ k ∧ k < 2 ^ (topBit k + 1) := by
  rw [topBit_eq]
  exact ⟨Nat.log2_self_le (by omega), Nat.lt_log2_self⟩

/-- The highest bit is the only exponent with those bounds. -/
theorem topBit_unique {k e : Nat} (h : 2 ^ e ≤ k) (h' : k < 2 ^ (e + 1)) : topBit k = e := by
  rw [topBit_eq]
  have := Nat.two_pow_pos e
  exact (Nat.log2_eq_iff (by omega)).2 ⟨h, h'⟩

@[simp] theorem topBit_zero : topBit 0 = 0 := by
  rw [topBit_eq]; rfl

theorem topBit_mul_pow {k : Nat} (a : Nat) (h : 0 < k) : topBit (2 ^ a * k) = topBit k + a := by
  obtain ⟨hl, hu⟩ := topBit_bounds h
  apply topBit_unique
  · rw [pow_add, mul_comm]; exact Nat.mul_le_mul_left _ hl
  · rw [show topBit k + a + 1 = a + (topBit k + 1) by omega, pow_add]
    exact Nat.mul_lt_mul_of_pos_left hu (Nat.two_pow_pos a)

/-- `divRoundEven` without shifts. -/
theorem divRoundEven_eq (k t : Nat) :
    divRoundEven k t =
      if 2 * (k % 2 ^ t) > 2 ^ t ∨ (2 * (k % 2 ^ t) = 2 ^ t ∧ k / 2 ^ t % 2 = 1) then k / 2 ^ t + 1 else k / 2 ^ t := by
  have h : k - k / 2 ^ t * 2 ^ t = k % 2 ^ t := by
    have := Nat.div_add_mod k (2 ^ t)
    rw [mul_comm] at this
    omega
  unfold divRoundEven
  simp only [Nat.shiftRight_eq_div_pow, Nat.shiftLeft_eq, h]

@[simp] theorem divRoundEven_zero (t : Nat) : divRoundEven 0 t = 0 := by
  simp [divRoundEven_eq]

/-- The rounded quotient is within half a place; exactly half a place away it is even. -/
theorem divRoundEven_spec (k t : Nat) :
    2 * (2 ^ t * divRoundEven k t) ≤ 2 * k + 2 ^ t ∧ 2 * k ≤ 2 * (2 ^ t * divRoundEven k t) + 2 ^ t ∧
      (2 * (2 ^ t * divRoundEven k t) = 2 * k + 2 ^ t ∨ 2 * k = 2 * (2 ^ t * divRoundEven k t) + 2 ^ t →
        divRoundEven k t % 2 = 0) := by
  have hk := Nat.div_add_mod k (2 ^ t)
  have hr := Nat.mod_lt k (Nat.two_pow_pos t)
  rw [divRoundEven_eq]
  generalize k / 2 ^ t = q at *
  generalize k % 2 ^ t = r at *
  have hq : 2 ^ t * (q + 1) = 2 ^ t * q + 2 ^ t := by ring
  generalize 2 ^ t = p at *
  generalize hpq : p * q = pq at *
  split
  · rw [hq]; refine ⟨by omega, by omega, fun h => by omega⟩
  · rw [hpq]; refine ⟨by omega, by omega, fun h => by omega⟩

/-- An exact quotient is not changed. -/
theorem divRoundEven_exact (q t : Nat) : divRoundEven (2 ^ t * q) t = q := by
  have := Nat.two_pow_pos t
  simp only [divRoundEven_eq, Nat.mul_mod_right, Nat.mul_div_cancel_left _ this]
  rw [if_neg (by omega)]

/-- Scaling the number and the place together changes nothing. -/
theorem divRoundEven_scale (a k t : Nat) : divRoundEven (2 ^ a * k) (a + t) = divRoundEven k t := by
  have hp := Nat.two_pow_pos a
  rw [divRoundEven_eq, divRoundEven_eq, pow_add, Nat.mul_div_mul_left _ _ hp, Nat.mul_mod_mul_left]
  have h1 : 2 * (2 ^ a * (k % 2 ^ t)) > 2 ^ a * 2 ^ t ↔ 2 * (k % 2 ^ t) > 2 ^ t := by
    rw [show 2 * (2 ^ a * (k % 2 ^ t)) = 2 ^ a * (2 * (k % 2 ^ t)) by ring]
    exact Nat.mul_lt_mul_left hp
  have h2 : 2 * (2 ^ a * (k % 2 ^ t)) = 2 ^ a * 2 ^ t ↔ 2 * (k % 2 ^ t) = 2 ^ t := by
    rw [show 2 * (2 ^ a * (k % 2 ^ t)) = 2 ^ a * (2 * (k % 2 ^ t)) by ring]
    exact Nat.mul_right_inj (by omega)
  simp only [h1, h2]

@[simp] theorem roundTo_zero (f : Format) (neg : Bool) (sh : Nat) : roundTo f neg 0 sh = .fin neg 0 := by
  have := Nat.two_pow_pos f.limit
  simp [roundTo, Nat.zero_shiftLeft]

/-- `roundTo` without shifts. -/
theorem roundTo_eq (f : Format) (neg : Bool) (k sh : Nat) :
    roundTo f neg k sh =
      if divRoundEven k (lastPlace f k sh) * 2 ^ (lastPlace f k sh - sh) < 2 ^ f.limit then
        .fin neg (divRoundEven k (lastPlace f k sh) * 2 ^ (lastPlace f k sh - sh))
      else .inf neg := by
  simp only [roundTo, Nat.shiftLeft_eq]

/-- Rounding depends on the number only, not on how many parts it is counted in. -/
theorem roundTo_scale (f : Format) (neg : Bool) (a k sh : Nat) :
    roundTo f neg (2 ^ a * k) (a + sh) = roundTo f neg k sh := by
  rcases Nat.eq_zero_or_pos k with rfl | h
  · simp
  · have hp : lastPlace f (2 ^ a * k) (a + sh) = a + lastPlace f k sh := by
      simp only [lastPlace, topBit_mul_pow a h]; omega
    rw [roundTo_eq, roundTo_eq, hp, divRoundEven_scale, Nat.add_sub_add_left]

/-- The last place kept: not below the format's least value, high enough that `prec` places hold the number, and no higher. -/
theorem lastPlace_bounds (f : Format) (k sh : Nat) (hp : 1 ≤ f.prec) :
    sh + f.least ≤ lastPlace f k sh ∧ k < 2 ^ f.prec * 2 ^ lastPlace f k sh ∧
      (sh + f.least < lastPlace f k sh → 2 ^ (f.prec - 1) * 2 ^ lastPlace f k sh ≤ k) := by
  unfold lastPlace
  rcases Nat.eq_zero_or_pos k with rfl | hk
  · refine ⟨le_max_right _ _, by positivity, fun h => ?_⟩
    simp only [topBit_zero] at h
    omega
  · obtain ⟨hl, hu⟩ := topBit_bounds hk
    refine ⟨le_max_right _ _, lt_of_lt_of_le hu ?_, fun h => le_trans ?_ hl⟩
    · rw [← pow_add]; exact Nat.pow_le_pow_right (by omega) (by omega)
    · rw [← pow_add]; exact Nat.pow_le_pow_right (by omega) (by omega)

/-- The rounded significand has at most `prec` bits, or is the next power of two. -/
theorem divRoundEven_le (f : Format) (k sh : Nat) (hp : 1 ≤ f.prec) :
    divRoundEven k (lastPlace f k sh) ≤ 2 ^ f.prec := by
  obtain ⟨-, hk, -⟩ := lastPlace_bounds f k sh hp
  obtain ⟨hs, -, -⟩ := divRoundEven_spec k (lastPlace f k sh)
  by_contra hc
  have h := Nat.mul_le_mul_left (2 ^ lastPlace f k sh) (Nat.lt_of_not_le hc)
  rw [Nat.succ_eq_add_one, mul_add, mul_comm _ (2 ^ f.prec)] at h
  omega

end Sys2Proof.Machine
end

