-- ==== Sys2Proof/Laws/PerInstr.lean ====
section
/-! SUPPORT. One family of statements about every command as syntax: the fields of its own word. -/

namespace Sys2Proof.Laws.EncodedFields

/-- The reserved fields of a command's word are zero and its OPC is one of the nine of R92 (R91, R92). -/
def Statement (i : Instr) : Prop :=
  rsv1Field (encode i) = 0 ∧ rsv0Field (encode i) = 0 ∧ (opcField (encode i)).toNat ≤ 8

/-- Any word made of an OPC up to 8, a direction and a length has those fields. -/
theorem of_commandWord (opc : BitVec 8) (dir : Bool) (logn : Nat) (h : opc.toNat ≤ 8) :
    rsv1Field (commandWord opc dir logn) = 0 ∧ rsv0Field (commandWord opc dir logn) = 0 ∧
      (opcField (commandWord opc dir logn)).toNat ≤ 8 := by
  have e := commandWord_toNat opc dir logn
  have hd : dir.toNat < 2 := by cases dir <;> simp
  refine ⟨BitVec.eq_of_toNat_eq ?_, BitVec.eq_of_toNat_eq ?_, ?_⟩
  · rw [rsv1Field_toNat, e]; simp; omega
  · rw [rsv0Field_toNat, e]; simp; omega
  · rw [opcField_toNat, e]; omega

theorem nop : Statement .nop := of_commandWord _ _ 0 (by decide)
theorem cfftF (n : Nat) : Statement (.cfftF n) := of_commandWord _ _ n (by decide)
theorem cfftI (n : Nat) : Statement (.cfftI n) := of_commandWord _ _ n (by decide)
theorem rfftF (n : Nat) : Statement (.rfftF n) := of_commandWord _ _ n (by decide)
theorem rfftI (n : Nat) : Statement (.rfftI n) := of_commandWord _ _ n (by decide)
theorem cmul : Statement .cmul := of_commandWord _ _ 0 (by decide)
theorem conv : Statement .conv := of_commandWord _ _ 0 (by decide)
theorem pack : Statement .pack := of_commandWord _ _ 0 (by decide)
theorem xform : Statement .xform := of_commandWord _ _ 0 (by decide)
theorem kcommit : Statement .kcommit := of_commandWord _ _ 0 (by decide)
theorem kfreq : Statement .kfreq := of_commandWord _ _ 0 (by decide)

end Sys2Proof.Laws.EncodedFields
end

