-- ==== Sys2Proof/Laws/Window.lean ====
section
/-! SUPPORT. What the window selects, and one lemma for each kind of step: what the host's next action does. -/

namespace Sys2Proof.Machine

open Sys2Proof.Config

/-- R24: a register's own address selects it, for every parameter value. -/
@[simp] theorem target_regAddr (p : Params) (r : Reg) : target p (regAddr r) = .reg r := by
  cases r <;> rfl

/-- A[31:28] as a quotient. -/
theorem space_field (a : Word) : (a.extractLsb' 28 4).toNat = a.toNat / 2 ^ 28 := by
  have := a.isLt
  rw [BitVec.extractLsb'_toNat, Nat.shiftRight_eq_div_pow]
  omega

/-- A[27:0] as a remainder. -/
theorem index_field (a : Word) : (a.extractLsb' 0 28).toNat = a.toNat % 2 ^ 28 := by
  rw [BitVec.extractLsb'_toNat, Nat.shiftRight_eq_div_pow, pow_zero, Nat.div_one]

/-- Zero extension keeps the number. -/
theorem zero_append_toNat {n m : Nat} (x : BitVec m) : (0#n ++ x).toNat = x.toNat := by
  simp [BitVec.toNat_append]

/-- `target` on numbers (R60). -/
theorem target_eq (p : Params) (a : Word) :
    target p a =
      if a.toNat / 2 ^ 28 = 0 then
        match regAt (a.toNat % 2 ^ 28) with
        | some r => .reg r
        | none => .absent
      else
        match spaceAt (a.toNat / 2 ^ 28) with
        | some sp => if a.toNat % 2 ^ 28 < p.size sp then .word sp (a.toNat % 2 ^ 28) else .absent
        | none => .absent := by
  rw [← space_field, ← index_field]; rfl

@[simp] theorem regAt_index (r : Reg) : regAt r.index = some r := by
  cases r <;> rfl

theorem regAt_reserved {i : Nat} (h : 0x0F < i) : regAt i = none := by
  unfold regAt
  split <;> first | rfl | omega

@[simp] theorem spaceAt_number (sp : Space) : spaceAt (spaceNumber sp) = some sp := by
  cases sp <;> rfl

theorem spaceAt_reserved {n : Nat} (h : 5 < n) : spaceAt n = none := by
  unfold spaceAt
  split <;> first | rfl | omega

theorem spaceNumber_range (sp : Space) : 1 ≤ spaceNumber sp ∧ spaceNumber sp ≤ 5 := by
  cases sp <;> decide

/-- Within R7 every memory fits its space. -/
theorem size_le {p : Params} (h : p.Valid) (sp : Space) : p.size sp ≤ 2 ^ 28 := by
  obtain ⟨⟨_, hl⟩, ⟨_, hk⟩, ⟨_, hd⟩, ⟨_, hi⟩, ⟨_, ho⟩⟩ := h
  have : 2 ^ p.lognMax ≤ 2 ^ 24 := Nat.pow_le_pow_right (by omega) hl
  cases sp <;> simp only [Params.size, Params.bufw, Params.nmax, Params.ktabw] <;> omega

theorem wordAddr_toNat {p : Params} (hp : p.Valid) {sp : Space} {i : Nat} (hi : i < p.size sp) :
    (wordAddr sp i).toNat = spaceNumber sp * 2 ^ 28 + i := by
  have := size_le hp sp
  have := spaceNumber_range sp
  rw [wordAddr, BitVec.toNat_ofNat, Nat.mod_eq_of_lt (by omega)]

/-- R60: a word's own address selects it. -/
theorem target_wordAddr {p : Params} (hp : p.Valid) {sp : Space} {i : Nat} (hi : i < p.size sp) :
    target p (wordAddr sp i) = .word sp i := by
  have hs := size_le hp sp
  have hr := spaceNumber_range sp
  have ht := wordAddr_toNat hp hi
  rw [target_eq, ht, if_neg (by omega), show (spaceNumber sp * 2 ^ 28 + i) / 2 ^ 28 = spaceNumber sp by omega,
    show (spaceNumber sp * 2 ^ 28 + i) % 2 ^ 28 = i by omega, spaceAt_number]
  exact if_pos hi

/-- A step with a write pending, outside a running command. -/
theorem step_write {s : State} {a v : Word} {rest : List HostAction} (h : s.host = .write a v :: rest)
    (hb : s.busy = false) : step s = hostWrite a v { s with host := rest } := by
  simp [step, hostStep, h, hostAct, hb]

/-- A step with a read pending, outside a running command. -/
theorem step_read {s : State} {a : Word} {rest : List HostAction} (h : s.host = .read a :: rest)
    (hb : s.busy = false) :
    step s = .next { s with host := rest, lastRead := some (s.hostRead a) } := by
  have hn : ¬(s.busy = true ∧ target s.params a ≠ .reg .status) := by simp [hb]
  simp only [step, hostStep, h, hostAct]
  rw [if_neg hn]
  rfl

/-- The same, said of a state whose pending actions are written out. -/
theorem step_read_at (s : State) (a : Word) (rest : List HostAction) (hb : s.busy = false) :
    step { s with host := .read a :: rest } = .next { s with host := rest, lastRead := some (s.hostRead a) } :=
  step_read (s := { s with host := .read a :: rest }) rfl hb

/-- A step with a reset pending (R290). -/
theorem step_reset {s : State} {rest : List HostAction} (h : s.host = .reset :: rest) :
    step s = .next (State.afterReset { s with host := rest }) := by
  simp [step, hostStep, h, hostAct]

/-- A step with nothing pending (R277). -/
theorem step_idle {s : State} (h : s.host = []) : step s = .next s := by
  simp [step, hostStep, h]

/-- A write to a register's own address. -/
@[simp] theorem hostWrite_regAddr (r : Reg) (v : Word) (s : State) : hostWrite (regAddr r) v s = writeReg r v s := by
  simp [hostWrite]

/-- A read of a register's own address. -/
@[simp] theorem hostRead_regAddr (s : State) (r : Reg) : s.hostRead (regAddr r) = s.readReg r := by
  simp [State.hostRead]

@[simp] theorem State.setMem_mem_same (s : State) (sp : Space) (m : Mem) : (s.setMem sp m).mem sp = m := by
  cases sp <;> rfl

theorem State.setMem_mem_other (s : State) {sp sq : Space} (h : sq ≠ sp) (m : Mem) :
    (s.setMem sp m).mem sq = s.mem sq := by
  cases sp <;> cases sq <;> first | rfl | exact absurd rfl h

/-- Replacing a memory changes no register. -/
theorem State.setMem_readReg (s : State) (sp : Space) (m : Mem) (r : Reg) : (s.setMem sp m).readReg r = s.readReg r := by
  cases sp <;> rfl

/-- A host write to a word of a memory, as one update (R26, R60). -/
theorem writeMem_eq (sp : Space) (i : Nat) (v : Word) (s : State) :
    writeMem sp i v s =
      { s.setMem sp ((s.mem sp).write i v) with ready := s.ready && !writeMakesStale sp } := by
  cases sp <;> simp [writeMem, writeMakesStale, State.markStale, State.setMem]

end Sys2Proof.Machine
end

