-- ==== Sys2Proof/Tests/Slice0.lean ====
section
/-! SUPPORT. The model's own tests: the syntax checks, decoding, the spec's worked vectors one step at a time, and for each
statement with hypotheses a state that meets them. Every expected value is the spec's. -/

namespace Sys2Proof.Tests

open Sys2Proof.Machine Sys2Proof.Config

/- One test after another: each kernel evaluation waits for the ones before it, and waiting side by side costs a thread
each. -/
set_option Elab.async false

/-! ### Builders -/

/-- A memory with a list of words written from `base` on. -/
def fill (m : Mem) (base : Nat) : List Word → Mem
  | [] => m
  | w :: ws => fill (m.write base w) (base + 1) ws

/-- `n` words from `base` on. -/
def words (m : Mem) (base n : Nat) : List Word := (List.range n).map fun i => m.read (base + i)

/-- The reset state with words written in BUF from 0 on. -/
def withBuf (l : List Word) : State := { State.reset with buf := fill State.reset.buf 0 l }

/-- What `f` says of the state a command leaves. -/
def after {α : Type} (i : Instr) (s : State) (f : State → α) : Option α :=
  match exec i s with
  | .next t => some (f t)
  | .fault _ => none
  | .refused _ => none

/-- What `f` says of the state a step leaves. -/
def stepped {α : Type} (s : State) (f : State → α) : Option α :=
  match step s with
  | .next t => some (f t)
  | .fault _ => none
  | .refused _ => none

/-- The reset state with the host about to do `l`. -/
def pending (l : List HostAction) : State := { State.reset with host := l }

/-- The fault registers: ERR, CODE, INFO. -/
def faultOf (s : State) : Bool × BitVec 4 × Word := (s.err, s.errCode, s.errInfo)

/-- 1.0 to 16.0 (95_test_vectors.md, section 2.4). -/
def ramp : List Word :=
  [0x3F800000, 0x40000000, 0x40400000, 0x40800000, 0x40A00000, 0x40C00000, 0x40E00000, 0x41000000] ++
    [0x41100000, 0x41200000, 0x41300000, 0x41400000, 0x41500000, 0x41600000, 0x41700000, 0x41800000]

/-- A Ready state with one band: fftSize 2, the run (0, 2, 0), CF 55.0. -/
def ready1 : State :=
  { State.reset with
    ready := true, cfgLogn := 1, cfgNumk := 1,
    ktab := fill State.reset.ktab 0 [0, 2, 0, 0x425C0000],
    kdat := fill State.reset.kdat 0 [0x3F800000, 0],
    inp := fill State.reset.inp 0 [0x3F800000, 0x40000000],
    buf := fill State.reset.buf 0 [0x3F800000, 0x40000000] }

/-! ### Well-formedness -/

theorem test_wellFormed_refuses : Instr.wellFormed (.cfftF 32) = false ∧ Instr.wellFormed (.cfftI 32) = false ∧
    Instr.wellFormed (.rfftF 32) = false ∧ Instr.wellFormed (.rfftI 1000) = false := by decide

theorem test_wellFormed_accepts : Instr.wellFormed (.cfftF 31) = true ∧ Instr.wellFormed (.rfftI 0) = true ∧
    Instr.wellFormed .kfreq = true := by decide

/-! ### Decoding: words written field by field from R91 and R92 -/

theorem test_decode_transforms :
    decode (0x01#8 ++ 0#15 ++ 0#1 ++ 0#3 ++ 0b00011#5) = .ok (.cfftF 3) ∧
    decode (0x01#8 ++ 0#15 ++ 1#1 ++ 0#3 ++ 0b10110#5) = .ok (.cfftI 22) ∧
    decode (0x02#8 ++ 0#15 ++ 0#1 ++ 0#3 ++ 0b00100#5) = .ok (.rfftF 4) ∧
    decode (0x02#8 ++ 0#15 ++ 1#1 ++ 0#3 ++ 0b11111#5) = .ok (.rfftI 31) := by decide

theorem test_decode_plain :
    decode (0x00#8 ++ 0#15 ++ 0#1 ++ 0#3 ++ 0#5) = .ok .nop ∧ decode (0x03#8 ++ 0#15 ++ 0#1 ++ 0#3 ++ 0#5) = .ok .cmul ∧
    decode (0x04#8 ++ 0#15 ++ 0#1 ++ 0#3 ++ 0#5) = .ok .conv ∧ decode (0x05#8 ++ 0#15 ++ 0#1 ++ 0#3 ++ 0#5) = .ok .pack ∧
    decode (0x06#8 ++ 0#15 ++ 0#1 ++ 0#3 ++ 0#5) = .ok .xform ∧
    decode (0x07#8 ++ 0#15 ++ 0#1 ++ 0#3 ++ 0#5) = .ok .kcommit ∧
    decode (0x08#8 ++ 0#15 ++ 0#1 ++ 0#3 ++ 0#5) = .ok .kfreq := by decide

/-- 95_test_vectors.md, section 2.8. -/
theorem test_decode_illegal :
    decode 0x00000001 = .error .unusedField ∧ decode 0x00000100 = .error .unusedField ∧
    decode 0x01000203 = .error .reservedBits ∧ decode 0x01000023 = .error .reservedBits ∧
    decode 0x01800003 = .error .reservedBits ∧ decode 0x03000100 = .error .unusedField ∧
    decode 0x09000000 = .error .opcode ∧ decode 0xFFFFFFFF = .error .reservedBits := by decide

theorem test_decodeTableWord : decodeTableWord 32 0x01000103 = some (.cfftI 3) ∧ decodeTableWord 32 0x09000000 = none := by
  decide

/-! ### Primitives (95_test_vectors.md, section 2.1) -/

/-- A binary32 operation on words; a NaN shows as its quiet encoding here. -/
def on32 (f : Fp → Fp → Fp) (a b : Word) : Word := encode32 0x7FC00000 (f (decode32 a) (decode32 b))

theorem test_add32 :
    on32 add32 0x3F800000 0x33800000 = 0x3F800000 ∧ on32 add32 0x3F800001 0x33800000 = 0x3F800002 ∧
    on32 add32 0x7F7FFFFF 0x7F7FFFFF = 0x7F800000 ∧ on32 sub32 0x3F800000 0x3F800000 = 0 ∧
    on32 add32 0x80000000 0x00000000 = 0 ∧ on32 add32 0x80000000 0x80000000 = 0x80000000 ∧
    sub32 (decode32 0x7F800000) (decode32 0x7F800000) = .nan := by decide +kernel

theorem test_mul32 :
    on32 mul32 0x3F800001 0x3F800001 = 0x3F800002 ∧ on32 mul32 0x80000000 0x40000000 = 0x80000000 ∧
    mul32 (decode32 0x00000000) (decode32 0x7F800000) = .nan := by decide +kernel

theorem test_scale32 :
    encode32 0 (scale32 1 (decode32 0x00800000)) = 0x00400000 ∧ encode32 0 (scale32 1 (decode32 0x00000001)) = 0 ∧
    encode32 0 (scale32 1 (decode32 0x00000003)) = 0x00000002 ∧
    encode32 0 (scale32 12 (decode32 0x45800000)) = 0x3F800000 := by decide +kernel

theorem test_round32 :
    encode32 0 (round32 (decode64 0x3FF0000010000000)) = 0x3F800000 ∧
    encode32 0 (round32 (decode64 0x3FF0000010000001)) = 0x3F800001 ∧
    encode32 0 (round32 (decode64 0x47EFFFFFF0000000)) = 0x7F800000 ∧
    encode32 0 (round32 (decode64 0x47EFFFFFEFFFFFFF)) = 0x7F7FFFFF ∧
    encode32 0 (round32 (decode64 0x36A0000000000000)) = 0x00000001 ∧
    encode32 0 (round32 (decode64 0x3690000000000000)) = 0x00000000 ∧
    encode32 0 (round32 (decode64 0x3690000000000001)) = 0x00000001 := by decide +kernel

theorem test_to64 :
    encode64 0 (to64 (decode32 0x00000001)) = 0x36A0000000000000 ∧
    encode64 0 (to64 (decode32 0x80000000)) = 0x8000000000000000 := by decide +kernel

/-! ### Commands, one step each -/

theorem test_nop : stepped (State.reset.withFetchWord 32 0x00000000) id = some State.reset := by decide

/-- Section 2.2: the impulse at sample 1, whose transform shows the sign of the exponent. -/
theorem test_cfftF_sign :
    after (.cfftF 2) (withBuf [0, 0, 0x3F800000, 0, 0, 0, 0, 0]) (fun t => words t.buf 0 8) =
      some [0x3F800000, 0, 0, 0x3F800000, 0xBF800000, 0, 0, 0xBF800000] := by decide +kernel

/-- Section 2.2: N = 8, where the recurrence's residue shows. -/
theorem test_cfftF_residue :
    after (.cfftF 3) (withBuf [0, 0, 0x3F800000, 0, 0, 0, 0, 0, 0, 0, 0, 0, 0, 0, 0, 0]) (fun t => words t.buf 0 8) =
      some [0x3F800000, 0, 0x3F3504F3, 0x3F3504F3, 0xA5800000, 0x3F800000, 0xBF3504F3, 0x3F3504F3] := by decide +kernel

/-- Section 2.2. -/
theorem test_cfftI :
    after (.cfftI 2) (withBuf [0x3F800000, 0, 0x40000000, 0xBF800000, 0, 0xBF800000, 0xBF800000, 0x40000000])
      (fun t => words t.buf 0 8) =
      some [0x3F000000, 0, 0xBF000000, 0xBF000000, 0, 0xBF000000, 0x3F800000, 0x3F800000] := by decide +kernel

/-- Section 2.2: LOGN above LOGN_MAX. -/
theorem test_cfftI_badLength :
    after (.cfftI 31) (withBuf [0x3F800000]) (fun t => (faultOf t, t.buf)) =
      some ((true, 2, 0x0100011F), (withBuf [0x3F800000]).buf) := by decide +kernel

/-- Section 2.3, the ramp of 8: it differs from CFFT's in the last bit of word 7. -/
theorem test_rfftF :
    after (.rfftF 3) (withBuf ((ramp.take 8) ++ [0xFFFFFFFF, 0x12345678])) (fun t => words t.buf 0 10) =
      some [0x42100000, 0, 0xC0800000, 0xC11A827A, 0xC0800000, 0xC0800000, 0xC0800000, 0xBFD413CD, 0xC0800000, 0] := by
  decide +kernel

/-- Section 2.3, L = 16: the split pass advances its twiddle twice. And `RFFT.F 0`, which has no half-length transform. -/
theorem test_rfftF_advances :
    after (.rfftF 4) (withBuf ramp) (fun t => words t.buf 0 18) =
      some ([0x43080000, 0, 0xC0FFFFFF, 0xC220DFF7, 0xC1000000, 0xC19A827A, 0xC1000000, 0xC13F90C7, 0xC1000000] ++
        [0xC1000000, 0xC1000000, 0xC0AB0DC2, 0xC1000000, 0xC05413CD, 0xC1000000, 0xBFCBAFAF, 0xC1000000, 0]) ∧
    after (.rfftF 0) State.reset faultOf = some (true, 2, 0x02000000) := by decide +kernel

/-- Section 2.3: words 1 and 9 are ignored, words 8 and 9 are left. -/
theorem test_rfftI :
    after (.rfftI 3)
      (withBuf [0x42100000, 0x40E00000, 0xC0800000, 0xC11A827A, 0xC0800000, 0xC0800000, 0xC0800000, 0xBFD413CD, 0xC0800000,
        0x40E00000]) (fun t => words t.buf 0 10) =
      some [0x3F800001, 0x40000000, 0x40400000, 0x40800000, 0x40A00000, 0x40C00000, 0x40E00000, 0x41000000, 0xC0800000,
        0x40E00000] := by decide +kernel

/-- Section 2.3, L = 16: the inverse of the ramp's spectrum. -/
theorem test_rfftI_advances :
    after (.rfftI 4)
      (withBuf ([0x43080000, 0, 0xC0FFFFFF, 0xC220DFF7, 0xC1000000, 0xC19A827A, 0xC1000000, 0xC13F90C7, 0xC1000000] ++
        [0xC1000000, 0xC1000000, 0xC0AB0DC2, 0xC1000000, 0xC05413CD, 0xC1000000, 0xBFCBAFAF, 0xC1000000, 0]))
      (fun t => words t.buf 0 18) =
      some ([0x3F800000, 0x40000001, 0x403FFFFE, 0x40800000, 0x40A00000, 0x40C00001, 0x40E00000, 0x41000000, 0x41100000] ++
        [0x41200000, 0x41300000, 0x41400000, 0x41500000, 0x41600000, 0x41700000, 0x41800000, 0xC1000000, 0]) := by
  decide +kernel

/-- Section 2.3: the split-pass twiddles of L = 16, and the inverse's of k = 3. -/
theorem test_splitTwiddle :
    encode64 0 (splitTwiddle 4 .forward 1).wr = 0x3FED906BCF328D46 ∧
    encode64 0 (splitTwiddle 4 .forward 1).wi = 0x3FD87DE2A6AEA963 ∧
    encode64 0 (splitTwiddle 4 .forward 2).wr = 0x3FE6A09E667F3BCC ∧
    encode64 0 (splitTwiddle 4 .forward 2).wi = 0x3FE6A09E667F3BCD ∧
    encode64 0 (splitTwiddle 4 .inverse 3).wr = 0x3FD87DE2A6AEA962 ∧
    encode64 0 (splitTwiddle 4 .inverse 3).wi = 0xBFED906BCF328D46 := by decide +kernel

/-- Section 2.4: the unsafe overlap, followed literally. -/
theorem test_cmul_unsafe :
    after .cmul { withBuf ramp with opa := 0, opb := 4, opd := 2, len := 3 } (fun t => words t.buf 0 9) =
      some [0x3F800000, 0x40000000, 0xC4714000, 0xC4278000, 0xC3E68000, 0x437C0000, 0xC1700000, 0x42D00000, 0x41100000] := by
  decide +kernel

/-- Section 2.4: the sums do not wrap. -/
theorem test_cmul_range :
    after .cmul { State.reset with opa := 0xFFFFFFFF, len := 0x80000000 } faultOf = some (true, 4, 1) := by decide +kernel

/-- Section 2.5: four bands. -/
theorem test_conv :
    after .conv
      { State.reset with
        ready := true, cfgLogn := 3, cfgNumk := 4, outoff := 1,
        buf := fill State.reset.buf 0 [0x41200000, 0, 0x3F800000, 0x40000000, 0x40400000, 0xBF800000, 0, 0x40800000,
          0xC0000000, 0],
        kdat := fill State.reset.kdat 0 [0x3F800000, 0, 0x3F000000, 0x3F000000, 0x40000000, 0xBF800000, 0, 0x3F800000],
        ktab := fill State.reset.ktab 0 [2, 2, 0, 0, 2, 4, 2, 0, 6, 4, 4, 0, 0, 0, 0, 0],
        out := fill State.reset.out 0 [0x41100000, 0x41100000, 0x41100000, 0x41100000, 0x41100000, 0x41100000] }
      (fun t => words t.out 0 6) =
      some [0x41100000, 0x40A00000, 0x42020000, 0x42500000, 0, 0x41100000] := by decide +kernel

/-- Section 2.5: OUTOFF = 509 with four bands. -/
theorem test_conv_range :
    after .conv { State.reset with ready := true, cfgLogn := 3, cfgNumk := 4, outoff := 509 } faultOf =
      some (true, 4, 5) := by decide +kernel

/-- Section 2.6: a partial frame. -/
theorem test_pack :
    after .pack
      { State.reset with
        ready := true, cfgLogn := 3, inlen := 6, inp := fill State.reset.inp 0 ramp,
        buf := fill State.reset.buf 8 [0x42C60000, 0x42C60000] } (fun t => words t.buf 0 10) =
      some [0x40A00000, 0x40C00000, 0, 0, 0x3F800000, 0x40000000, 0x40400000, 0x40800000, 0x42C60000, 0x42C60000] := by
  decide +kernel

/-- Section 2.6: 8193 samples end beyond IN. -/
theorem test_pack_range :
    after .pack { State.reset with ready := true, cfgLogn := 3, inoff := 8190, inlen := 3 } faultOf = some (true, 4, 4) := by
  decide +kernel

/-- Program P2: the frame with three kernels. -/
theorem test_xform :
    after .xform
      { State.reset with
        ready := true, cfgLogn := 3, cfgNumk := 3, inlen := 8, outoff := 1,
        kdat := fill State.reset.kdat 0 [0x3F000000, 0, 0x3F800000, 0x3F800000, 0, 0xBF800000, 0x3E800000, 0],
        ktab := fill State.reset.ktab 0 [4, 2, 0, 0x43DC0000, 2, 4, 2, 0x435C0000, 8, 2, 6, 0x445C0000],
        inp := fill State.reset.inp 0 (ramp.take 8) }
      (fun t => (words t.buf 0 10, words t.out 1 3)) =
      some ([0x42100000, 0, 0x40800000, 0x411A827A, 0xC0800000, 0xC0800000, 0x40800000, 0x3FD413CD, 0xC0800000, 0],
        [0x41000000, 0x43CA827B, 0x3F800000]) := by decide +kernel

/-- Section 2.7: the second descriptor fails. -/
theorem test_kcommit_badKernel :
    after .kcommit
      { State.reset with cfgLogn := 3, cfgNumk := 2, ktab := fill State.reset.ktab 0 [2, 2, 0, 0, 8, 4, 0, 0] }
      (fun t => (faultOf t, t.ready)) = some ((true, 6, 1), false) := by decide +kernel

/-- Section 2.7: an empty run at the limits passes. -/
theorem test_kcommit_limits :
    after .kcommit
      { State.reset with cfgLogn := 3, cfgNumk := 1, ktab := fill State.reset.ktab 0 [10, 0, 65536, 0] }
      (fun t => (faultOf t, t.ready)) = some ((false, 0, 0), true) := by decide +kernel

/-- Section 2.7: band 1, and the index beyond the last band. -/
theorem test_kfreq :
    after .kfreq
      { State.reset with
        ready := true, cfgNumk := 2, idx := 1,
        ktab := fill State.reset.ktab 0 [0, 0, 0, 0x435C0000, 0, 0, 0, 0x425C0000] } (fun t => t.res) = some 0x425C0000 ∧
    after .kfreq { State.reset with ready := true, cfgNumk := 2, idx := 2 } faultOf = some (true, 4, 6) := by
  decide +kernel

/-- Program P4: a command while ERR = 1 is ignored. -/
theorem test_ignored_while_err :
    stepped { pending [.write 0x00000000 0xFFFFFFFF] with err := true, errCode := 3, errInfo := 0x04000000 } id =
      some { State.reset with err := true, errCode := 3, errInfo := 0x04000000 } := by decide +kernel

/-- Program P5: any write to KDAT makes the engine Stale. -/
theorem test_kdat_write_is_stale :
    stepped { ready1 with host := [.write 0x50000000 0x3F800000] } (fun t => (t.ready, t.kdat.read 0)) =
      some (false, 0x3F800000) := by decide +kernel

/-! ### States that meet the statements' hypotheses -/

theorem witness_DecodeReadsBackEveryCommand :
    Instr.wellFormed (.cfftF 0) = true ∧ Instr.wellFormed (.cfftI 31) = true ∧ Instr.wellFormed (.rfftF 31) = true ∧
    Instr.wellFormed (.rfftI 0) = true ∧ Instr.wellFormed .xform = true := by decide

theorem witness_DecodedWordIsTheCommandsOwn :
    decode 0x0200011F = .ok (.rfftI 31) ∧ decode 0x08000000 = .ok .kfreq := by decide

/-- The transform clauses, with LOGN_MAX = 12: 13 and 31 are too long, and 0 for RFFT. -/
theorem witness_LegalWordsAreTheListed :
    (13 < 32 ∧ State.reset.params.lognMax < 13) ∧ (31 < 32 ∧ State.reset.params.lognMax < 31) ∧
    (0 < 32 ∧ ((0 : Nat) = 0 ∨ State.reset.params.lognMax < 0)) := by decide

/-- Each kind of illegal word at the edge of its range, and legal words beside them. -/
theorem witness_illegalWord :
    illegalWord 0x00000200 ∧ illegalWord 0x01800003 ∧ illegalWord 0x01000020 ∧ illegalWord 0x01000080 ∧
    ¬ illegalWord 0x0100011F ∧ ¬ illegalWord 0x08000000 := by
  unfold illegalWord; decide

theorem witness_illegalWord_opcode :
    illegalWord 0x09000000 ∧ illegalWord 0xFF000000 ∧ illegalWord 0x00000100 ∧ illegalWord 0x0800001F := by
  unfold illegalWord; decide

theorem witness_IllegalWordFaultsAndChangesNothingElse :
    let s := pending [.write (regAddr .cmd) 0x09000000]
    s.host = [.write (regAddr .cmd) 0x09000000] ∧ s.busy = false ∧ s.err = false := by decide

/-- One state for each clause: BUSY = 1; ERR = 1; an illegal word; a command. -/
theorem witness_StepRunsTheDecodedCommand :
    ({ pending [.write (regAddr .cmd) 0] with busy := true } : State).busy = true ∧
    (({ pending [.write (regAddr .cmd) 0] with err := true } : State).busy = false ∧
      ({ pending [.write (regAddr .cmd) 0] with err := true } : State).err = true) ∧
    ((pending [.write (regAddr .cmd) 0]).busy = false ∧ (pending [.write (regAddr .cmd) 0]).err = false) ∧
    illegalWord 0x09000000 ∧ ¬ illegalWord 0x00000000 ∧ decode 0x00000000 = .ok .nop := by
  unfold illegalWord; decide

/-- A fault recorded, and a step: a command ignored, ERRCLR, and reset. -/
theorem witness_RecordedFaultStaysUntilCleared :
    let s (a : HostAction) : State := { pending [a] with err := true, errCode := 3, errInfo := 0x04000000 }
    (s .reset).err = true ∧ stepped (s (.write (regAddr .cmd) 0)) faultOf = some (true, 3, 0x04000000) ∧
    stepped (s (.write (regAddr .errclr) 7)) faultOf = some (false, 0, 0) ∧
    stepped (s .reset) faultOf = some (false, 0, 0) := by decide

/-- A forbidden access of each kind, reading STATUS while BUSY = 1, and an idle engine. -/
theorem witness_StepStopsExactlyOnForbiddenAccess :
    forbidden State.reset (.narrow 0) ∧ forbidden { State.reset with busy := true } (.write 0x10000000 0) ∧
    forbidden { State.reset with busy := true } (.read 0x10000000) ∧
    ¬ forbidden { State.reset with busy := true } (.read (regAddr .status)) ∧
    (pending [.read (regAddr .status)]).host = [.read (regAddr .status)] ∧ State.reset.host = [] := by
  unfold forbidden; decide

/-- The ends of REG, of each memory, and of the reserved spaces. -/
theorem witness_WindowSelectsSpaceAndIndex :
    ((0x00000000 : Word).toNat / 2 ^ 28 = 0 ∧ Reg.index .cmd = (0x00000000 : Word).toNat % 2 ^ 28) ∧
    ((0x0000000F : Word).toNat / 2 ^ 28 = 0 ∧ Reg.index .outoff = (0x0000000F : Word).toNat % 2 ^ 28) ∧
    ((0x00000010 : Word).toNat / 2 ^ 28 = 0 ∧ 0x0F < (0x00000010 : Word).toNat % 2 ^ 28) ∧
    (0x10001FFF : Word).toNat / 2 ^ 28 = spaceNumber .buf ∧ (0x10002000 : Word).toNat / 2 ^ 28 = spaceNumber .buf ∧
    (0x5000FFFF : Word).toNat / 2 ^ 28 = spaceNumber .kdat ∧ 5 < (0x60000000 : Word).toNat / 2 ^ 28 ∧
    recommended.Valid ∧ 8191 < recommended.size .buf ∧ 0 < recommended.size .kdat := by decide

theorem witness_OutsideTheMapReadsZeroAndIgnoresWrites :
    (pending [.read 0x60000000]).busy = false ∧ 5 < (0x60000000 : Word).toNat / 2 ^ 28 ∧
    ((0x00000010 : Word).toNat / 2 ^ 28 = 0 ∧ 0x0F < (0x00000010 : Word).toNat % 2 ^ 28) ∧
    ((0x10002000 : Word).toNat / 2 ^ 28 = spaceNumber .buf ∧
      (pending [.write 0x10002000 1]).params.size .buf ≤ (0x10002000 : Word).toNat % 2 ^ 28) := by decide

theorem witness_HostMemoryWriteIsReadBack :
    (pending [.write (wordAddr .kdat 65535) 1]).params.Valid ∧ (pending [.write (wordAddr .kdat 65535) 1]).busy = false ∧
    65535 < (pending [.write (wordAddr .kdat 65535) 1]).params.size .kdat ∧
    8191 < (pending [.write (wordAddr .buf 8191) 1]).params.size .buf := by decide

theorem witness_OperandRegistersHoldWhatIsWritten :
    (pending [.write (regAddr .outoff) 0xFFFFFFFF]).busy = false ∧
    (pending [.write (regAddr .outoff) 0xFFFFFFFF]).host = [.write (regAddr .outoff) 0xFFFFFFFF] := by decide

theorem witness_ConfigurationWritesStoreAndMakeStale :
    ({ ready1 with host := [.write (regAddr .cfgLogn) 0xFFFFFFFF] } : State).busy = false ∧
    ({ ready1 with host := [.write (regAddr .cfgNumk) 1] } : State).busy = false ∧
    ({ ready1 with host := [.read (regAddr .cfgLogn)] } : State).busy = false := by decide

/-- A write and a read between commands, and the read of STATUS while BUSY = 1. -/
theorem witness_ReadOnlyWriteOnlyAndStatusBits :
    ((pending [.write (regAddr .res) 5]).busy = false ∧
      (pending [.write (regAddr .res) 5]).host = [.write (regAddr .res) 5]) ∧
    ((pending [.read (regAddr .cmd)]).busy = false ∧ (pending [.read (regAddr .cmd)]).host = [.read (regAddr .cmd)]) ∧
    ({ pending [.read (regAddr .status)] with busy := true } : State).host = [.read (regAddr .status)] := by decide

/-- A command that faults, followed by ERRCLR; and a command issued while ERR = 1. -/
theorem witness_ErrclrReturnsFromTheFault :
    let s := pending [.write (regAddr .cmd) 0x04000000, .write (regAddr .errclr) 1]
    let u : State := { s with err := true }
    (s.busy = false ∧ s.err = false ∧ s.errCode = 0 ∧ s.errInfo = 0 ∧ stepped s (fun t => t.err) = some true) ∧
    u.busy = false ∧ u.err = true ∧ u.host.length = 2 := by decide

theorem witness_ResetEventForgetsEverything :
    ({ ready1 with host := [.reset], busy := true } : State).host = [.reset] ∧
    ({ ready1 with host := [.reset] } : State).busy = false := by decide

/-- The invariant of a Ready state. -/
theorem witness_Inv : ready1.Inv := by decide +kernel

/-- A step from a state with the invariant, for each kind of action. -/
theorem witness_InvariantIsKeptByEveryStep :
    stepped { ready1 with host := [.write (regAddr .cmd) 0x08000000] } (fun t => t.res) = some 0x425C0000 ∧
    stepped { ready1 with host := [.write (wordAddr .ktab 0) 9] } (fun t => t.ready) = some false ∧
    stepped { ready1 with host := [.reset] } (fun t => t.ready) = some false := by decide +kernel

/-- A stale event, a KCOMMIT that passes, one that faults, and an event that is neither. -/
theorem witness_ReadyChangesOnlyAsTheTableSays :
    let commit (s : State) : State := { s with host := [.write (regAddr .cmd) 0x07000000] }
    stepped (commit { ready1 with ready := false }) (fun t => (t.err, t.ready)) = some (false, true) ∧
    stepped (commit { ready1 with cfgLogn := 0 }) (fun t => (t.err, t.ready)) = some (true, true) ∧
    stepped { ready1 with host := [.write (regAddr .cfgNumk) 1] } (fun t => t.ready) = some false ∧
    stepped { ready1 with host := [.write (wordAddr .buf 0) 1] } (fun t => t.ready) = some true := by decide +kernel

theorem witness_readyOnly : readyOnly .conv ∧ readyOnly .kfreq ∧ ¬ readyOnly .kcommit ∧ State.reset.ready = false := by
  unfold readyOnly; decide

theorem witness_ReadyTableKeepsConvInRange : ready1.ready = true ∧ 0 < ready1.cfgNumk.toNat := by decide

theorem witness_FaultingCommandChangesNothingElse :
    State.reset.err = false ∧ after .conv State.reset (fun t => t.err) = some true ∧
    stepped (pending [.write (regAddr .cmd) 0x09000000]) (fun t => t.err) = some true := by decide

theorem witness_NopChangesNothing :
    (pending [.write (regAddr .cmd) 0x00000000]).busy = false ∧
    (pending [.write (regAddr .cmd) 0x00000000]).host = [.write (regAddr .cmd) 0x00000000] := by decide

/-- One state for each row of R251. -/
theorem witness_FaultsHaveTheListedCauses_usage :
    stepped (pending [.write (regAddr .cmd) 0x09000000]) faultOf = some (true, 1, 0x09000000) ∧
    after (.cfftF 13) State.reset faultOf = some (true, 2, 0x0100000D) ∧
    after .pack State.reset faultOf = some (true, 3, 0x05000000) := by decide +kernel

theorem witness_FaultsHaveTheListedCauses_cmul :
    after .cmul { State.reset with opa := 8191, len := 1 } faultOf = some (true, 4, 1) ∧
    after .cmul { State.reset with opb := 8191, len := 1 } faultOf = some (true, 4, 2) ∧
    after .cmul { State.reset with opd := 8191, len := 1 } faultOf = some (true, 4, 3) := by decide +kernel

theorem witness_FaultsHaveTheListedCauses_range :
    after .xform { ready1 with inoff := 8192, inlen := 1 } faultOf = some (true, 4, 4) ∧
    after .xform { ready1 with outoff := 512 } faultOf = some (true, 4, 5) ∧
    after .kfreq { ready1 with idx := 1 } faultOf = some (true, 4, 6) := by decide +kernel

theorem witness_FaultsHaveTheListedCauses_configuration :
    after .kcommit State.reset faultOf = some (true, 5, 1) ∧
    after .kcommit { ready1 with cfgNumk := 257 } faultOf = some (true, 5, 2) ∧
    after .kcommit { ready1 with cfgLogn := 3, ktab := fill State.reset.ktab 0 [2, 3, 0, 0] } faultOf =
      some (true, 6, 0) := by decide +kernel

theorem witness_BadLengthIsRaisedByTheTransforms : State.reset.params.lognMax < 13 ∧ State.reset.params.lognMax = 12 := by
  decide

theorem witness_NotReadyIsTheFirstCheck : State.reset.ready = false := by decide

/-- Each range check one word beyond its memory, the checks before it passing. -/
theorem witness_RangeFaultsOnExactSums :
    let a : State := { State.reset with opa := 8191, len := 1 }
    let b : State := { State.reset with opb := 8191, len := 1 }
    let d : State := { State.reset with opd := 8191, len := 1 }
    (a.params.bufw < a.opa.toNat + 2 * a.len.toNat) ∧
    (b.opa.toNat + 2 * b.len.toNat ≤ b.params.bufw ∧ b.params.bufw < b.opb.toNat + 2 * b.len.toNat) ∧
    (d.opa.toNat + 2 * d.len.toNat ≤ d.params.bufw ∧ d.opb.toNat + 2 * d.len.toNat ≤ d.params.bufw ∧
      d.params.bufw < d.opd.toNat + 2 * d.len.toNat) ∧
    (ready1.ready = true ∧ ready1.params.inw < (8191 : Word).toNat + (2 : Word).toNat) ∧
    ready1.params.outw < (512 : Word).toNat + ready1.cfgNumk.toNat ∧
    ready1.inoff.toNat + ready1.inlen.toNat ≤ ready1.params.inw ∧ ready1.cfgNumk.toNat ≤ (1 : Word).toNat := by decide

theorem witness_CfftCompletes : 0 ≤ State.reset.params.lognMax ∧ 12 ≤ State.reset.params.lognMax := by decide

/-- The least and the largest length, and for the least a word that is none of 0, 1 and L. -/
theorem witness_RfftCompletes : (1 ≤ 1 ∧ 1 ≤ State.reset.params.lognMax ∧ 12 ≤ State.reset.params.lognMax) ∧
    3 ≠ 0 ∧ 3 ≠ 1 ∧ 3 ≠ 2 ^ 1 := by decide

/-- Both directions, a word outside element 0; ranges that end exactly at BUFW, and an offset equal to BUFW with LEN = 0. -/
theorem witness_CmulCompletes :
    (0 ≤ 2 ∧ ¬ (2 ≤ 0 ∨ 8 ≤ 0) ∧ 2 ≠ 0 + 2 * 0 ∧ 2 ≠ 0 + 2 * 0 + 1) ∧
    let s : State := { State.reset with opa := 8190, opb := 0, opd := 8190, len := 1 }
    let z : State := { State.reset with opa := 8192 }
    (s.opa.toNat + 2 * s.len.toNat ≤ s.params.bufw ∧ s.opb.toNat + 2 * s.len.toNat ≤ s.params.bufw ∧
      s.opd.toNat + 2 * s.len.toNat ≤ s.params.bufw) ∧
    z.opa.toNat + 2 * z.len.toNat ≤ z.params.bufw := by decide

/-- CONV, PACK and XFORM with their ranges ending exactly at the end of IN and OUT. -/
theorem witness_ConvPackXformComplete :
    let s : State := { ready1 with inoff := 8190, inlen := 2, outoff := 511 }
    s.ready = true ∧ s.outoff.toNat + s.cfgNumk.toNat ≤ s.params.outw ∧ s.outoff.toNat + s.cfgNumk.toNat = 512 ∧
    s.inoff.toNat + s.inlen.toNat ≤ s.params.inw ∧ s.inoff.toNat + s.inlen.toNat = 8192 ∧ 1 ≤ s.cfgLogn.toNat := by decide

/-- A band of ready1, an even length to extend, and a word of OUT outside the range. -/
theorem witness_ConvStoresEveryBandPower :
    0 < ready1.cfgNumk.toNat ∧ 0 % 2 = 0 ∧ ready1.outoff.toNat + ready1.cfgNumk.toNat ≤ 511 := by decide

theorem witness_XformEqualsItsThreeCommands :
    ready1.ready = true ∧ ready1.err = false ∧ ready1.inoff.toNat + ready1.inlen.toNat ≤ ready1.params.inw ∧
    ready1.outoff.toNat + ready1.cfgNumk.toNat ≤ ready1.params.outw ∧ stepped
      { ready1 with host := [.write (regAddr .cmd) (encode .xform)], inlen := 2 } (fun t => (t.err, words t.out 0 1)) =
        some (false, [0x41100000]) := by decide +kernel

/-- Each clause: LOGN 0 and 13, NUMK 0 and 257, a table whose second descriptor fails, and one that passes. -/
theorem witness_KcommitChecksTheWholeTable :
    State.reset.cfgLogn.toNat < 1 ∧ State.reset.params.lognMax < (13 : BitVec 5).toNat ∧
    (1 ≤ (12 : BitVec 5).toNat ∧ (12 : BitVec 5).toNat ≤ State.reset.params.lognMax) ∧
    State.reset.cfgNumk.toNat < 1 ∧ State.reset.params.kmax < (257 : Word).toNat ∧
    (1 ≤ (256 : Word).toNat ∧ (256 : Word).toNat ≤ State.reset.params.kmax) ∧
    after .kcommit
      { State.reset with cfgLogn := 3, cfgNumk := 2, ktab := fill State.reset.ktab 0 [2, 2, 0, 0, 8, 4, 0, 0] }
      (fun t => ((descriptor t.ktab 0).legal 8 65536, (descriptor t.ktab 1).legal 8 65536, t.errInfo)) =
        some (true, false, 1) ∧
    after .kcommit { ready1 with ready := false } (fun t => (t.err, t.ready)) = some (false, true) := by decide +kernel

theorem witness_KfreqReadsTheBandFrequency :
    (ready1.ready = true ∧ ready1.idx.toNat < ready1.cfgNumk.toNat) ∧ State.reset.ready = false ∧
    ready1.cfgNumk.toNat ≤ (1 : Word).toNat := by decide

/-- A next state of every command, with words outside each range. -/
theorem witness_CommandsWriteOnlyWhatTheTableSays :
    after .nop State.reset (fun t => t.err) = some false ∧ after (.cfftF 0) State.reset (fun t => t.err) = some false ∧
    after (.cfftI 0) State.reset (fun t => t.draws) = some 1 ∧ after (.rfftF 1) ready1 (fun t => t.err) = some false ∧
    after (.rfftI 1) ready1 (fun t => t.err) = some false ∧ after .cmul State.reset (fun t => t.err) = some false ∧
    after .conv ready1 (fun t => t.err) = some false ∧ after .pack ready1 (fun t => t.err) = some false ∧
    after .xform ready1 (fun t => t.err) = some false ∧ after .kcommit ready1 (fun t => t.err) = some false ∧
    after .kfreq ready1 (fun t => t.err) = some false := by decide +kernel

theorem witness_WordsOutsideTheRangeAreUnchanged :
    2 * 2 ^ 0 ≤ 2 ∧ 2 ^ 1 + 2 ≤ 4 ∧ 2 ^ 1 ≤ 2 ∧ ready1.fftSize ≤ 2 ∧ ready1.fftSize + 2 ≤ 4 ∧
    ready1.outoff.toNat + ready1.cfgNumk.toNat ≤ 1 ∧ State.reset.opd.toNat + 2 * State.reset.len.toNat ≤ 0 := by decide

theorem witness_OperandsMatterOnlyToTheirCommands :
    Instr.nop ≠ .cmul ∧ Instr.cmul ≠ .kfreq ∧ Instr.conv ≠ .pack ∧ Instr.conv ≠ .xform ∧ Instr.pack ≠ .conv := by decide

/-- The largest fraction and exponent fields of a finite word in both formats; two non-NaN words and a NaN. -/
theorem witness_EncodingsAreThoseOfIeee754 :
    (0x7FFFFF < 2 ^ 23 ∧ 254 < 255) ∧ (0xFFFFFFFFFFFFF < 2 ^ 52 ∧ 2046 < 2047) ∧
    decode32 0x00000001 ≠ .nan ∧ decode32 0xFF800000 ≠ .nan ∧ decode32 0x7F800001 = .nan := by decide +kernel

theorem witness_WideningIsExact : decode32 0x00000001 = .fin false (2 ^ 925) := by decide +kernel

/-- In both formats: a number rounded to a finite value, the boundary of overflow, the least value and the largest, and parts of a
unit (sh = 1074). -/
theorem witness_RoundingIsToNearestEven :
    ((2 ^ 24 - 1) * 2 ^ 1178 < (2 ^ 1202 - 2 ^ (1202 - 24 - 1)) * 2 ^ 0 ∧
      (2 ^ 53 - 1) * 2 ^ 2045 * 2 ^ 1074 < (2 ^ 2098 - 2 ^ (2098 - 53 - 1)) * 2 ^ 1074) ∧
    ((2 ^ 1202 - 2 ^ (1202 - 24 - 1)) * 2 ^ 1074 ≤ 2 ^ 1202 * 2 ^ 1074 ∧
      (2 ^ 2098 - 2 ^ (2098 - 53 - 1)) * 2 ^ 0 ≤ 2 ^ 2098 - 2 ^ 2044) ∧
    (finiteIn 24 925 1202 (2 ^ 925) ∧ finiteIn 24 925 1202 ((2 ^ 24 - 1) * 2 ^ 1178)) ∧
    finiteIn 53 0 2098 1 ∧ finiteIn 53 0 2098 ((2 ^ 53 - 1) * 2 ^ 2045) := by
  refine ⟨by decide +kernel, by decide +kernel, ⟨⟨1, 0, ?_⟩, 2 ^ 24 - 1, 253, ?_⟩, ⟨1, 0, ?_⟩, 2 ^ 53 - 1, 2045, ?_⟩ <;>
    decide +kernel

/-- A tie between two finite values, where the even one is taken: 1 + 2^-24 in binary32 lies half-way between 1 and 1 + 2^-23. -/
theorem witness_RoundingIsToNearestEven_tie :
    gap (2 ^ 1074 + 2 ^ 1050) ((2 ^ 1074 + 2 ^ 1051) * 2 ^ 0) = gap (2 ^ 1074 + 2 ^ 1050) (2 ^ 1074 * 2 ^ 0) ∧
    2 ^ 1074 + 2 ^ 1051 ≠ 2 ^ 1074 ∧ round32 (.fin false (2 ^ 1074 + 2 ^ 1050)) = .fin false (2 ^ 1074) := by decide +kernel

theorem witness_ArithmeticRoundsTheExactResultOnce : signed false 3 + signed true 2 ≠ 0 ∧ (2 : Nat) ≠ 0 := by decide

theorem witness_ScalingIsMultiplicationByAPowerOfTwo : 24 ≤ 24 ∧ finite32 (2 ^ 925) :=
  ⟨by decide, 1, 0, by decide, by decide +kernel, by decide +kernel⟩

theorem witness_BitReversalPermutesSamples : 6 < 2 ^ 3 ∧ 2 < 3 ∧ bitrev 3 6 = 3 ∧ 2 * 2 ^ 3 ≤ 16 := by decide

theorem witness_ButterfliesOfAStageCommute :
    [(0, 1), (0, 0)].Perm ((List.range (2 ^ (1 - 1))).product (List.range (2 ^ 2 / (2 * 2 ^ (1 - 1))))) := by decide

theorem witness_InverseScalesEveryWordOnce : 1 < 2 * 2 ^ 0 ∧ 2 * 2 ^ 0 ≤ 2 ∧ (withBuf [0x3F800000]).buf.load 0 ≠ .nan := by
  decide +kernel

/-- The first word beyond the range, and two memories that agree below word 2 and differ at it. -/
theorem witness_CfftDependsOnItsRangeOnly :
    2 * 2 ^ 0 ≤ 2 ∧
    (withBuf [1, 2, 3]).buf.space = (withBuf [1, 2, 4]).buf.space ∧
    (∀ a < 2 * 2 ^ 0, (withBuf [1, 2, 3]).buf.read a = (withBuf [1, 2, 4]).buf.read a) := by decide +kernel

theorem witness_TwoPointTransformAddsAndSubtracts :
    (withBuf ramp).buf.load 2 = .fin false (3 * 2 ^ 1074) ∧ (withBuf ramp).buf.load 3 = .fin false (2 ^ 1076) ∧
    3 * 2 ^ 1074 ≠ 0 := by decide +kernel

theorem witness_TrailingWordsOfTheRealTransform : 1 ≤ 1 ∧ 1 ≤ 24 := by decide

/-- Both sources keep their originals, each time: apart, in place on one (R193, R194's first rows), destination above both,
destination below both; an unsafe overlap, where one source does not; and element 0. -/
theorem witness_CmulGivesTheProductOfTheOriginals :
    (keepsOriginals 0 4 8 2 0 ∧ keepsOriginals 0 4 8 2 4) ∧ (keepsOriginals 0 8 0 3 0 ∧ keepsOriginals 0 8 0 3 8) ∧
    (keepsOriginals 0 8 2 3 0 ∧ keepsOriginals 0 8 2 3 8) ∧ (keepsOriginals 0 1 2 3 0 ∧ keepsOriginals 0 1 2 3 1) ∧
    (keepsOriginals 2 8 0 3 2 ∧ keepsOriginals 2 8 0 3 8) ∧
    (keepsOriginals 0 4 2 3 0 ∧ ¬ keepsOriginals 0 4 2 3 4) ∧ 0 < 2 := by
  unfold keepsOriginals; decide

theorem witness_BandPowerIsNeverNegative :
    (0 < (2 : Nat) / 2) ∧ (withBuf [0x7FC00000]).buf.load (0 + 2 * 0) = .nan := by decide +kernel

/-- The middle bin of L = 4, and the first word beyond the transform. -/
theorem witness_SplitPassUsesTheIteratedTwiddle : 1 < 2 ∧ 2 ≤ 2 ∧ 2 ^ 2 ≤ 4 := by decide

/-- The pairs of L = 16 in the opposite order. -/
theorem witness_SplitPairsMayRunInAnyOrder : [3, 2, 1].Perm ((List.range (2 ^ 4 / 2 / 2 - 1)).map (· + 1)) := by decide

/-- The first and the last k of L = 16, and a word of the middle bin, which no pair holds. -/
theorem witness_SplitPassStoresTheStatedPairs :
    (1 ≤ 1 ∧ 1 ≤ 2 ^ 4 / 2 / 2 - 1) ∧ (1 ≤ 3 ∧ 3 ≤ 2 ^ 4 / 2 / 2 - 1) ∧
    ∀ k, 1 ≤ k → k ≤ 2 ^ 4 / 2 / 2 - 1 → 8 ≠ 2 * k ∧ 8 ≠ 2 * k + 1 ∧ 8 ≠ 2 ^ 4 - 2 * k ∧ 8 ≠ 2 ^ 4 - 2 * k + 1 := by
  refine ⟨by decide, by decide, fun k h1 h2 => ?_⟩
  omega

/-- The first butterfly of stage 1, and the first word it does not touch. -/
theorem witness_ButterflyStoresTheStatedWords : 0 ≠ 1 ∧ 4 ≠ 2 * 0 ∧ 4 ≠ 2 * 0 + 1 ∧ 4 ≠ 2 * 1 ∧ 4 ≠ 2 * 1 + 1 := by decide

end Sys2Proof.Tests
end

section
/-! PROOFS. Every command ends (R16, R250, R325), and a stored binary32 result reads back (R10, R128). -/

namespace Sys2Proof.Machine

/-! ### How a command ends -/

/-- A command records a fault or completes; the completed state is left open. -/
theorem exec_faults_or_finishes (i : Instr) (s : State) :
    (∃ code info, exec i s = .next (s.raiseFault code info)) ∨ ∃ t : State, exec i s = .next t.finish := by
  obtain h | h := exec_ends i s
  · exact .inl h
  · right
    cases i with
    | nop => exact ⟨_, h⟩
    | cfftF _ | cfftI _ | cmul =>
      obtain ⟨-, h⟩ := h
      exact ⟨_, h⟩
    | rfftF _ | rfftI _ | conv | pack | kfreq =>
      obtain ⟨-, -, h⟩ := h
      exact ⟨_, h⟩
    | xform | kcommit =>
      obtain ⟨-, -, -, h⟩ := h
      exact ⟨_, h⟩

/-- Settles O22: a fault and a completion are both next states, and both lower BUSY. -/
theorem everyCommandEnds : Obligations.EveryCommandEnds := by
  intro i s
  obtain ⟨code, info, h⟩ | ⟨t, h⟩ := exec_faults_or_finishes i s
  · exact ⟨_, h, s.raiseFault_busy code info⟩
  · exact ⟨_, h, t.finish_busy⟩

/-! ### What rounding leaves -/

/-- A significand rounded up to the next power of two is still a finite magnitude, one exponent higher. -/
theorem finiteIn_of_le {prec least limit q e : Nat} (hp : 1 ≤ prec) (hq : q ≤ 2 ^ prec)
    (hlt : q * 2 ^ (least + e) < 2 ^ limit) : finiteIn prec least limit (q * 2 ^ (least + e)) := by
  rcases Nat.lt_or_eq_of_le hq with hq | rfl
  · exact ⟨q, e, hq, rfl, hlt⟩
  · refine ⟨2 ^ (prec - 1), e + 1, Nat.pow_lt_pow_right (by omega) (by omega), ?_, hlt⟩
    rw [← pow_add, ← pow_add]
    congr 1
    omega

/-- Rounding to a format gives a finite magnitude of that format, or infinity, with the sign kept (R122). -/
theorem roundTo_cases (f : Format) (hp : 1 ≤ f.prec) (neg : Bool) (k sh : Nat) :
    (∃ r, roundTo f neg k sh = .fin neg r ∧ finiteIn f.prec f.least f.limit r) ∨ roundTo f neg k sh = .inf neg := by
  obtain ⟨hle, -, -⟩ := lastPlace_bounds f k sh hp
  obtain ⟨e, he⟩ := Nat.exists_eq_add_of_le (Nat.le_sub_of_add_le' hle)
  rw [roundTo_eq]
  split
  · next hlt =>
    refine .inl ⟨_, rfl, ?_⟩
    rw [he] at hlt ⊢
    exact finiteIn_of_le hp (divRoundEven_le f k sh hp) hlt
  · exact .inr rfl

/-- `round32` gives a NaN, an infinity or a finite binary32 value (R122). -/
theorem round32_cases (x : Fp) :
    round32 x = .nan ∨ (∃ neg, round32 x = .inf neg) ∨ ∃ neg r, round32 x = .fin neg r ∧ finite32 r := by
  cases x with
  | nan => exact .inl rfl
  | inf neg => exact .inr (.inl ⟨neg, rfl⟩)
  | fin neg k =>
    obtain ⟨r, h, hr⟩ | h := roundTo_cases binary32 (by decide) neg k 0
    · exact .inr (.inr ⟨neg, r, h, hr⟩)
    · exact .inr (.inl ⟨neg, h⟩)

/-- A finite magnitude counted in units of the format's least positive value. -/
theorem finiteIn_in_least_units {prec least span r : Nat} (h : finiteIn prec least (span + least) r) :
    ∃ m e, m < 2 ^ prec ∧ r = m * 2 ^ e * 2 ^ least ∧ m * 2 ^ e < 2 ^ span := by
  obtain ⟨m, e, hm, rfl, hlt⟩ := h
  have hr : m * 2 ^ (least + e) = m * 2 ^ e * 2 ^ least := by rw [pow_add]; ring
  refine ⟨m, e, hm, hr, ?_⟩
  rw [hr, pow_add] at hlt
  exact Nat.lt_of_mul_lt_mul_right hlt

/-! ### The normalised significand -/

theorem topBit_lt_of_lt_pow {u n : Nat} (hpos : 0 < u) (h : u < 2 ^ n) : topBit u < n :=
  (Nat.pow_lt_pow_iff_right (by omega)).1 (lt_of_le_of_lt (topBit_bounds hpos).1 h)

theorem le_topBit_of_pow_le {u n : Nat} (h : 2 ^ n ≤ u) : n ≤ topBit u :=
  Nat.lt_succ_iff.1 ((Nat.pow_lt_pow_iff_right (by omega)).1
    (lt_of_le_of_lt h (topBit_bounds (lt_of_lt_of_le (Nat.two_pow_pos n) h)).2))

/-- Dropping the places below the highest `p + 1` leaves a number of exactly `p + 1` bits. -/
theorem significand_bounds {p u : Nat} (h : 2 ^ p ≤ u) :
    2 ^ p ≤ u / 2 ^ (topBit u - p) ∧ u / 2 ^ (topBit u - p) < 2 ^ (p + 1) := by
  obtain ⟨hl, hu⟩ := topBit_bounds (lt_of_lt_of_le (Nat.two_pow_pos p) h)
  have hp := le_topBit_of_pow_le h
  constructor
  · rw [Nat.le_div_iff_mul_le (Nat.two_pow_pos _), ← pow_add, Nat.add_sub_cancel' hp]
    exact hl
  · rw [Nat.div_lt_iff_lt_mul (Nat.two_pow_pos _), ← pow_add, show p + 1 + (topBit u - p) = topBit u + 1 by omega]
    exact hu

/-- A number with at most `p + 1` significant bits has only zeros in the places dropped. -/
theorem significand_exact {p m e : Nat} (hm : m < 2 ^ (p + 1)) :
    m * 2 ^ e / 2 ^ (topBit (m * 2 ^ e) - p) * 2 ^ (topBit (m * 2 ^ e) - p) = m * 2 ^ e := by
  apply Nat.div_mul_cancel
  rcases Nat.eq_zero_or_pos m with rfl | hpos
  · simp
  · have htop := topBit_lt_of_lt_pow hpos hm
    have hle : topBit (m * 2 ^ e) - p ≤ e := by
      rw [mul_comm, topBit_mul_pow e hpos]
      omega
    exact (pow_dvd_pow 2 hle).trans (Nat.dvd_mul_left _ _)

/-! ### Encoding and decoding a binary32 word -/

/-- A binary32 word put together from its fields, as a number (R120). -/
theorem fields32_toNat (neg : Bool) (e : BitVec 8) (f : BitVec 23) :
    (BitVec.ofBool neg ++ e ++ f).toNat = (neg.toNat * 2 ^ 8 + e.toNat) * 2 ^ 23 + f.toNat := by
  rw [BitVec.toNat_append, BitVec.toNat_append, BitVec.toNat_ofBool, ← Nat.shiftLeft_add_eq_or_of_lt f.isLt,
    ← Nat.shiftLeft_add_eq_or_of_lt e.isLt, Nat.shiftLeft_eq, Nat.shiftLeft_eq]

/-- The datum of a word put together from its fields (R120). -/
theorem decode32_fields (neg : Bool) (e : BitVec 8) (f : BitVec 23) :
    decode32 (BitVec.ofBool neg ++ e ++ f) =
      if e.toNat = 255 then (if f.toNat = 0 then .inf neg else .nan)
      else if e.toNat = 0 then .fin neg (f.toNat * 2 ^ 925)
      else .fin neg ((2 ^ 23 + f.toNat) * 2 ^ (924 + e.toNat)) := by
  have he := e.isLt
  have hf := f.isLt
  have hw := fields32_toNat neg e f
  have hsign : (BitVec.ofBool neg ++ e ++ f).getLsbD 31 = neg := by
    rw [BitVec.getLsbD_append, if_neg (by decide), BitVec.getLsbD_append, if_neg (by decide)]
    simp
  have hexp : (BitVec.ofBool neg ++ e ++ f).toNat / 2 ^ 23 % 2 ^ 8 = e.toNat := by omega
  have hfrac : (BitVec.ofBool neg ++ e ++ f).toNat % 2 ^ 23 = f.toNat := by omega
  unfold decode32
  simp only [hsign, hexp, hfrac]

/-- The word drawn for a NaN is a NaN encoding (R128). -/
theorem decode32_nanWord (d : Nat) (sp : Config.Space) (i : Nat) : decode32 (Config.nanWord d sp i) = .nan := by
  have hlt := (Config.nanFraction d sp i).isLt
  have hf : (BitVec.ofNat 23 ((Config.nanFraction d sp i).val + 1)).toNat ≠ 0 := by
    rw [BitVec.toNat_ofNat, Nat.mod_eq_of_lt (by omega)]
    omega
  rw [Config.nanWord, decode32_fields, if_pos (by decide), if_neg hf]

/-- An infinity reads back from its encoding. -/
theorem decode32_encode32_inf (q : Word) (neg : Bool) : decode32 (encode32 q (.inf neg)) = .inf neg := by
  rw [encode32, decode32_fields, if_pos (by decide), if_pos (by decide)]

/-- The encoding of a multiple of 2^-149: subnormal below 2^23 of them, normal from there on (R63, R120). -/
theorem encode32_units (q : Word) (neg : Bool) (u : Nat) :
    encode32 q (.fin neg (u * 2 ^ 925)) =
      if u < 2 ^ 23 then BitVec.ofBool neg ++ 0#8 ++ BitVec.ofNat 23 u
      else BitVec.ofBool neg ++ BitVec.ofNat 8 (topBit u - 22) ++ BitVec.ofNat 23 (u / 2 ^ (topBit u - 23)) := by
  rw [encode32, Nat.mul_div_cancel u (Nat.two_pow_pos 925)]
  rfl

/-- A multiple of 2^-149 below 2^-126 reads back from its subnormal encoding (R120). -/
theorem decode32_encode32_subnormal (q : Word) (neg : Bool) {u : Nat} (hu : u < 2 ^ 23) :
    decode32 (encode32 q (.fin neg (u * 2 ^ 925))) = .fin neg (u * 2 ^ 925) := by
  have hf : (BitVec.ofNat 23 u).toNat = u := by rw [BitVec.toNat_ofNat, Nat.mod_eq_of_lt hu]
  rw [encode32_units, if_pos hu, decode32_fields, if_neg (by decide), if_pos (by decide), hf]

/-- A multiple of 2^-149 from 2^-126 on, with at most 24 significant bits and below 2^128, reads back from its normal
encoding (R120). -/
theorem decode32_encode32_normal (q : Word) (neg : Bool) {u : Nat} (hu : 2 ^ 23 ≤ u) (hlt : u < 2 ^ 277)
    (hex : u / 2 ^ (topBit u - 23) * 2 ^ (topBit u - 23) = u) :
    decode32 (encode32 q (.fin neg (u * 2 ^ 925))) = .fin neg (u * 2 ^ 925) := by
  obtain ⟨hlow, hhigh⟩ := significand_bounds hu
  have hge := le_topBit_of_pow_le hu
  have htop := topBit_lt_of_lt_pow (lt_of_lt_of_le (Nat.two_pow_pos 23) hu) hlt
  have he : (BitVec.ofNat 8 (topBit u - 22)).toNat = topBit u - 22 := by
    rw [BitVec.toNat_ofNat, Nat.mod_eq_of_lt (by omega)]
  have hf : 2 ^ 23 + (BitVec.ofNat 23 (u / 2 ^ (topBit u - 23))).toNat = u / 2 ^ (topBit u - 23) := by
    rw [BitVec.toNat_ofNat]
    omega
  have hexp : 2 ^ (924 + (topBit u - 22)) = 2 ^ (topBit u - 23) * 2 ^ 925 := by
    rw [← pow_add]
    congr 1
    omega
  rw [encode32_units, if_neg (Nat.not_lt.2 hu), decode32_fields, he, if_neg (by omega), if_neg (by omega), hf, hexp,
    ← mul_assoc, hex]

/-- Every finite binary32 value reads back from its encoding (R120). -/
theorem decode32_encode32_fin (q : Word) (neg : Bool) {r : Nat} (h : finite32 r) :
    decode32 (encode32 q (.fin neg r)) = .fin neg r := by
  obtain ⟨m, e, hm, hr, hlt⟩ := finiteIn_in_least_units (span := 277) h
  rw [hr]
  rcases Nat.lt_or_ge (m * 2 ^ e) (2 ^ 23) with hu | hu
  · exact decode32_encode32_subnormal q neg hu
  · exact decode32_encode32_normal q neg hu hlt (significand_exact hm)

/-! ### A stored result -/

/-- Loading the word just stored decodes the encoding the store left there. -/
theorem Mem.load_store_same (m : Mem) (d i : Nat) (x : Fp) :
    (m.store d i x).load i = decode32 (encode32 (Config.nanWord d m.space i) x) := by
  rw [Mem.load, Mem.read_store, if_pos rfl, Mem.storeBits]

/-- Settles O42: `round32` leaves only data that survive encoding and decoding. -/
theorem storedResultReadsBack : Obligations.StoredResultReadsBack := by
  intro m d i x
  rw [Mem.load_store_same]
  obtain h | ⟨neg, h⟩ | ⟨neg, r, h, hr⟩ := round32_cases x <;> rw [h]
  · exact decode32_nanWord d m.space i
  · exact decode32_encode32_inf _ neg
  · exact decode32_encode32_fin _ neg hr

end Sys2Proof.Machine
end

section
/-! PROOFS. What a command, a host access and a step can do, said once by inversion (R16, R60, R93, R277). -/

namespace Sys2Proof.Machine

open Sys2Proof.Config

/-! ### A command -/

/-- What a command that passes its checks does to the state before BUSY falls (R93 step 5). -/
def State.effect (s : State) : Instr → State
  | .nop => s
  | .cfftF n => State.nextDraw { s with buf := cfftCore s.draws n .forward s.buf }
  | .cfftI n => State.nextDraw { s with buf := cfftCore s.draws n .inverse s.buf }
  | .rfftF n => s.rfftBuf .forward n
  | .rfftI n => s.rfftBuf .inverse n
  | .cmul => State.nextDraw { s with buf := cmulRange s.draws s.opa.toNat s.opb.toNat s.opd.toNat s.len.toNat s.buf }
  | .conv => s.convOut
  | .pack => s.packBuf
  | .xform => (s.packBuf.rfftBuf .forward s.cfgLogn.toNat).convOut
  | .kcommit => s.markReady
  | .kfreq => { s with res := (descriptor s.ktab s.idx.toNat).cf }

/-- The checks of each command, passed (R251). -/
def State.passes (s : State) : Instr → Prop
  | .nop => True
  | .cfftF n => n ≤ s.params.lognMax
  | .cfftI n => n ≤ s.params.lognMax
  | .rfftF n => 1 ≤ n ∧ n ≤ s.params.lognMax
  | .rfftI n => 1 ≤ n ∧ n ≤ s.params.lognMax
  | .cmul => cmulFault s = none
  | .conv => s.ready = true ∧ s.outputFits = true
  | .pack => s.ready = true ∧ s.inputFits = true
  | .xform => s.ready = true ∧ s.inputFits = true ∧ s.outputFits = true
  | .kcommit => s.tableValid
  | .kfreq => s.ready = true ∧ s.idx.toNat < s.cfgNumk.toNat

/-- A command that ends has recorded a fault and changed nothing else, or has passed its checks and done its effect. -/
theorem exec_next_cases {i : Instr} {s t : State} (h : exec i s = .next t) :
    (∃ code info, t = s.raiseFault code info) ∨ (s.passes i ∧ t = (s.effect i).finish) := by
  obtain ⟨code, info, hf⟩ | hc := exec_ends i s
  · cases hf.symm.trans h
    exact .inl ⟨code, info, rfl⟩
  · right
    cases i with
    | nop =>
      cases hc.symm.trans h
      exact ⟨trivial, rfl⟩
    | cfftF _ | cfftI _ | cmul =>
      obtain ⟨hpass, hx⟩ := hc
      cases hx.symm.trans h
      exact ⟨hpass, rfl⟩
    | rfftF _ | rfftI _ | conv | pack | kfreq =>
      obtain ⟨hfirst, hsecond, hx⟩ := hc
      cases hx.symm.trans h
      exact ⟨⟨hfirst, hsecond⟩, rfl⟩
    | xform =>
      obtain ⟨hready, hin, hout, hx⟩ := hc
      cases hx.symm.trans h
      exact ⟨⟨hready, hin, hout⟩, rfl⟩
    | kcommit =>
      obtain ⟨hlogn, hnumk, hkernel, hx⟩ := hc
      cases hx.symm.trans h
      exact ⟨⟨hlogn, hnumk, State.badKernel_none.1 hkernel⟩, rfl⟩

/-- A command that faults writes the fault registers and BUSY only; one that completes, those of its effect and BUSY. -/
theorem exec_frame {i : Instr} {s t : State} (h : exec i s = .next t) :
    t = { s with busy := t.busy, ready := t.ready, err := t.err, errCode := t.errCode, errInfo := t.errInfo, res := t.res,
                 buf := t.buf, out := t.out, draws := t.draws } := by
  obtain ⟨code, info, rfl⟩ | ⟨-, rfl⟩ := exec_next_cases h
  · rfl
  · cases i <;> rfl

theorem exec_params {i : Instr} {s t : State} (h : exec i s = .next t) : t.params = s.params := by
  rw [exec_frame h]

/-! ### The issue of a command -/

/-- A write to CMD is ignored while ERR = 1, faults on an illegal word, or runs the decoded command (R93). -/
theorem issue_next_cases {w : Word} {s t : State} (h : issue w s = .next t) :
    (s.err = true ∧ t = s) ∨ (s.err = false ∧ t = s.accept.raiseFault .illegalCmd w) ∨
      (s.err = false ∧ ∃ i, decode w = .ok i ∧ exec i s.accept = .next t) := by
  unfold issue at h
  split at h
  · next he =>
    cases h
    exact .inl ⟨he, rfl⟩
  · next he =>
    have he : s.err = false := by simpa using he
    cases hd : decode w with
    | error e =>
      simp only [hd] at h
      cases h
      exact .inr (.inl ⟨he, rfl⟩)
    | ok i =>
      simp only [hd] at h
      exact .inr (.inr ⟨he, i, rfl, h⟩)

/-! ### The host's accesses -/

/-- The window selects a word only within its memory (R60, R61). -/
theorem lt_size_of_target_word {p : Params} {a : Word} {sp : Space} {i : Nat} (h : target p a = .word sp i) :
    i < p.size sp := by
  rw [target_eq] at h
  split at h
  · split at h <;> cases h
  · split at h
    · split at h
      · next hlt =>
        cases h
        exact hlt
      · cases h
    · cases h

/-! A memory write, field by field. -/

section
variable (sp : Space) (i : Nat) (v : Word) (s : State)

theorem writeMem_err : (writeMem sp i v s).err = s.err := by
  rw [writeMem_eq, State.setMem_err]

theorem writeMem_errCode : (writeMem sp i v s).errCode = s.errCode := by
  rw [writeMem_eq, State.setMem_errCode]

theorem writeMem_errInfo : (writeMem sp i v s).errInfo = s.errInfo := by
  rw [writeMem_eq, State.setMem_errInfo]

theorem writeMem_mem : (writeMem sp i v s).mem sp = (s.mem sp).write i v := by
  cases sp <;> rfl

theorem writeMem_ready : (writeMem sp i v s).ready = (s.ready && !writeMakesStale sp) := by
  rw [writeMem_eq]

theorem writeMem_busy : (writeMem sp i v s).busy = s.busy := by
  rw [writeMem_eq, State.setMem_busy]

theorem writeMem_params : (writeMem sp i v s).params = s.params := by
  rw [writeMem_eq, State.setMem_params]

end

/-- A host write goes to a register, to a word of a memory, or nowhere (R60, R61). -/
theorem hostWrite_next_cases {a v : Word} {s t : State} (h : hostWrite a v s = .next t) :
    (∃ r, target s.params a = .reg r ∧ writeReg r v s = .next t) ∨
      (∃ sp i, i < s.params.size sp ∧ t = writeMem sp i v s) ∨ t = s := by
  unfold hostWrite at h
  cases ht : target s.params a with
  | reg r =>
    simp only [ht] at h
    exact .inl ⟨r, rfl, h⟩
  | word sp i =>
    simp only [ht] at h
    cases h
    exact .inr (.inl ⟨sp, i, lt_size_of_target_word ht, rfl⟩)
  | absent =>
    simp only [ht] at h
    cases h
    exact .inr (.inr rfl)

/-! ### The step -/

/-- What a step that has a next state did: nothing, a write between commands, a read, or a reset (R15, R277). -/
theorem step_next_cases {s t : State} (h : step s = .next t) :
    t = s ∨
      (∃ a v rest, s.host = .write a v :: rest ∧ s.busy = false ∧ hostWrite a v { s with host := rest } = .next t) ∨
      (∃ a rest, s.host = .read a :: rest ∧ t = { s with host := rest, lastRead := some (s.hostRead a) }) ∨
      ∃ rest, s.host = .reset :: rest ∧ t = State.afterReset { s with host := rest } := by
  cases hh : s.host with
  | nil =>
    cases (step_idle hh).symm.trans h
    exact .inl rfl
  | cons act rest =>
    right
    simp only [step, hostStep, hh] at h
    cases act with
    | write a v =>
      simp only [hostAct] at h
      split at h
      · cases h
      · next hb => exact .inl ⟨a, v, rest, rfl, by simpa using hb, h⟩
    | read a =>
      simp only [hostAct] at h
      split at h
      · cases h
      · cases h
        exact .inr (.inl ⟨a, rest, rfl, rfl⟩)
    | narrow a => cases h
    | reset =>
      cases h
      exact .inr (.inr ⟨rest, rfl, rfl⟩)

end Sys2Proof.Machine
end

section
/-! PROOFS. The invariant of every run is kept by every step (R7, R16, R27, R60, R234). -/

namespace Sys2Proof.Machine

open Sys2Proof.Config

/-! ### Good memories -/

theorem State.memsGood_iff (s : State) :
    s.memsGood = true ↔ ∀ sp, (s.mem sp).good sp s.boots (s.params.size sp) = true := by
  simp only [State.memsGood, Bool.and_eq_true]
  constructor
  · rintro ⟨⟨⟨⟨hbuf, hinp⟩, hout⟩, hktab⟩, hkdat⟩ sp
    cases sp <;> assumption
  · intro h
    exact ⟨⟨⟨⟨h .buf, h .inp⟩, h .out⟩, h .ktab⟩, h .kdat⟩

/-- Writes of words a memory has keep it good. -/
theorem Mem.Touches.good {P : Nat → Prop} {m m' : Mem} {sp : Space} {boot size : Nat} (ht : Mem.Touches P m m')
    (hP : ∀ i, P i → i < size) (h : m.good sp boot size = true) : m'.good sp boot size = true := by
  simp only [Mem.good, Bool.and_eq_true, decide_eq_true_eq] at h ⊢
  obtain ⟨⟨⟨hwf, hwithin⟩, hspace⟩, hboot⟩ := h
  exact ⟨⟨⟨ht.wf hwf, ht.within size hP hwithin⟩, ht.space.trans hspace⟩, ht.boot.trans hboot⟩

/-- Writes of words one memory has keep all five good. -/
theorem State.memsGood_setMem {P : Nat → Prop} {s : State} {sp : Space} {m : Mem} (h : s.memsGood = true)
    (ht : Mem.Touches P (s.mem sp) m) (hP : ∀ i, P i → i < s.params.size sp) : (s.setMem sp m).memsGood = true := by
  rw [State.memsGood_iff] at h ⊢
  intro sq
  rw [State.mem_setMem, State.setMem_boots, State.setMem_params]
  split
  · next he =>
    subst he
    exact ht.good hP (h sp)
  · exact h sq

theorem State.afterReset_memsGood (s : State) : s.afterReset.memsGood = true := by
  rw [State.memsGood_iff]
  intro sp
  simp [Mem.good, Mem.within, Mem.unwritten, Mem.wf, cellsRising]

/-! ### The sizes a transform needs -/

/-- A transform of a length within LOGN_MAX fits BUF (R7, R30). -/
theorem Params.double_length_le_bufw {p : Params} {n : Nat} (h : n ≤ p.lognMax) : 2 * 2 ^ n ≤ p.bufw :=
  Nat.mul_le_mul_left 2 (Nat.pow_le_pow_right (by omega) h)

/-- A real transform's L + 2 words fit BUF (R74). -/
theorem Params.length_add_two_le_bufw {p : Params} {n : Nat} (h1 : 1 ≤ n) (h : n ≤ p.lognMax) : 2 ^ n + 2 ≤ p.bufw := by
  have hfit := Params.double_length_le_bufw h
  have htwo : 2 ^ 1 ≤ 2 ^ n := Nat.pow_le_pow_right (by omega) h1
  omega

/-! ### The parts of the commands' effects -/

theorem State.memsGood_cfft {s : State} {n : Nat} (h : s.memsGood = true) (hn : n ≤ s.params.lognMax) (dir : Direction) :
    (State.nextDraw { s with buf := cfftCore s.draws n dir s.buf }).memsGood = true :=
  State.memsGood_setMem (s := s) (sp := .buf) h (cfftCore_touches s.draws n dir s.buf) fun _ hi =>
    lt_of_lt_of_le hi (Params.double_length_le_bufw hn)

theorem State.memsGood_rfftBuf {s : State} {n : Nat} (h : s.memsGood = true) (h1 : 1 ≤ n) (hn : n ≤ s.params.lognMax)
    (dir : Direction) : (s.rfftBuf dir n).memsGood = true :=
  State.memsGood_setMem (s := s) (sp := .buf) h (rfftCore_touches s.draws h1 dir s.buf) fun _ hi =>
    lt_of_lt_of_le hi (Params.length_add_two_le_bufw h1 hn)

theorem State.memsGood_packBuf {s : State} (h : s.memsGood = true) (hn : s.cfgLogn.toNat ≤ s.params.lognMax) :
    s.packBuf.memsGood = true := by
  have hfit := Params.double_length_le_bufw hn
  have hhalf : 2 * (s.fftSize / 2) ≤ 2 ^ s.cfgLogn.toNat := Nat.mul_div_le _ _
  exact State.memsGood_setMem (s := s) (sp := .buf) h (packFrame_touches s.inp _ _ _ s.buf) fun i (hi : i < _) => by
    simp only [Params.size]
    omega

theorem State.memsGood_convOut {s : State} (h : s.memsGood = true) (ho : s.outputFits = true) :
    s.convOut.memsGood = true := by
  have hfit := (State.outputFits_iff s).1 ho
  exact State.memsGood_setMem (s := s) (sp := .out) h (convBands_touches s.draws s.buf s.ktab s.kdat _ _ s.out) fun i hi =>
    lt_of_lt_of_le hi.2 hfit

/-- CMUL writes within the range its third check has passed. -/
theorem State.memsGood_cmul {s : State} (h : s.memsGood = true) (hf : cmulFault s = none) :
    (s.effect .cmul).memsGood = true := by
  obtain ⟨-, -, hfit⟩ := (cmulFault_none s).1 hf
  exact State.memsGood_setMem (s := s) (sp := .buf) h (cmulRange_touches s.draws _ _ _ _ s.buf) fun i hi =>
    lt_of_lt_of_le hi.2 hfit

/-- A command that has passed its checks keeps the memories good. In Ready the frame size is within LOGN_MAX, which is what
PACK and XFORM rest on (R234). -/
theorem State.effect_memsGood {i : Instr} {s : State} (h : s.memsGood = true) (hr : s.ready = true → s.tableValid)
    (hp : s.passes i) : (s.effect i).memsGood = true := by
  cases i with
  | nop | kcommit | kfreq => exact h
  | cfftF n => exact State.memsGood_cfft h hp .forward
  | cfftI n => exact State.memsGood_cfft h hp .inverse
  | rfftF n => exact State.memsGood_rfftBuf h hp.1 hp.2 .forward
  | rfftI n => exact State.memsGood_rfftBuf h hp.1 hp.2 .inverse
  | cmul => exact State.memsGood_cmul h hp
  | conv => exact State.memsGood_convOut h hp.2
  | pack =>
    obtain ⟨⟨-, hlogn⟩, -⟩ := hr hp.1
    exact State.memsGood_packBuf h hlogn
  | xform =>
    obtain ⟨hready, -, hout⟩ := hp
    obtain ⟨⟨hpos, hlogn⟩, -⟩ := hr hready
    exact State.memsGood_convOut (State.memsGood_rfftBuf (State.memsGood_packBuf h hlogn) hpos hlogn .forward) hout

/-! ### The guarantee of READY, and the fault registers -/

/-- Every command keeps the guarantee of READY = 1: KCOMMIT has checked it, no other raises READY or writes KTAB (R233, R234). -/
theorem State.effect_tableValid {i : Instr} {s : State} (hr : s.ready = true → s.tableValid) (hp : s.passes i) :
    (s.effect i).ready = true → (s.effect i).tableValid := by
  cases i with
  | kcommit => exact fun _ => hp
  | nop | cfftF _ | cfftI _ | rfftF _ | rfftI _ | cmul | conv | pack | xform | kfreq => exact hr

theorem State.effect_faultConsistent (i : Instr) {s : State} (h : s.faultConsistent) : (s.effect i).faultConsistent := by
  cases i <;> exact h

/-- The codes of R251 are 1 to 6. -/
theorem FaultCode.bits_range (c : FaultCode) : 1 ≤ c.bits.toNat ∧ c.bits.toNat ≤ 6 := by
  cases c <;> decide

theorem State.raiseFault_faultConsistent (s : State) (c : FaultCode) (w : Word) : (s.raiseFault c w).faultConsistent :=
  ⟨fun h => by simp at h, fun _ => c.bits_range⟩

/-! ### The invariant -/

theorem State.raiseFault_inv {s : State} (h : s.Inv) (c : FaultCode) (w : Word) : (s.accept.raiseFault c w).Inv := by
  obtain ⟨hvalid, -, hmems, -, hready⟩ := h
  exact ⟨hvalid, rfl, hmems, State.raiseFault_faultConsistent _ c w, hready⟩

/-- A command issued between commands keeps the invariant. -/
theorem exec_inv {i : Instr} {s t : State} (h : s.Inv) (hx : exec i s.accept = .next t) : t.Inv := by
  obtain ⟨code, info, rfl⟩ | ⟨hpass, rfl⟩ := exec_next_cases hx
  · exact State.raiseFault_inv h code info
  · obtain ⟨hvalid, -, hmems, hfault, hready⟩ := h
    have hparams : (s.accept.effect i).finish.params = s.params := exec_params hx
    exact ⟨hparams ▸ hvalid, rfl, State.effect_memsGood (s := s.accept) hmems hready hpass,
      State.effect_faultConsistent i (s := s.accept) hfault, State.effect_tableValid (s := s.accept) hready hpass⟩

theorem issue_inv {w : Word} {s t : State} (h : s.Inv) (hx : issue w s = .next t) : t.Inv := by
  obtain ⟨-, rfl⟩ | ⟨-, rfl⟩ | ⟨-, i, -, hi⟩ := issue_next_cases hx
  · exact h
  · exact State.raiseFault_inv h .illegalCmd w
  · exact exec_inv h hi

/-- ERRCLR leaves the fault registers as R27 wants them, a configuration write clears READY, and no other register is one the
invariant speaks of. -/
theorem writeReg_inv {r : Reg} {v : Word} {s t : State} (h : s.Inv) (hx : writeReg r v s = .next t) : t.Inv := by
  cases r with
  | cmd => exact issue_inv h hx
  | errclr =>
    obtain ⟨hvalid, hbusy, hmems, -, hready⟩ := h
    cases hx
    exact ⟨hvalid, hbusy, hmems, ⟨fun _ => ⟨rfl, rfl⟩, fun he => by simp at he⟩, hready⟩
  | cfgLogn | cfgNumk =>
    obtain ⟨hvalid, hbusy, hmems, hfault, -⟩ := h
    cases hx
    exact ⟨hvalid, hbusy, hmems, hfault, fun hr => by simp at hr⟩
  | status | errcode | errinfo | opa | opb | opd | len | idx | res | inoff | inlen | outoff =>
    cases hx
    exact h

/-- A memory write keeps the memories good, and a write of KTAB clears READY (R33). -/
theorem writeMem_inv {sp : Space} {i : Nat} {s : State} (h : s.Inv) (hi : i < s.params.size sp) (v : Word) :
    (writeMem sp i v s).Inv := by
  obtain ⟨hvalid, hbusy, hmems, hfault, hready⟩ := h
  have hgood : (s.setMem sp ((s.mem sp).write i v)).memsGood = true :=
    State.memsGood_setMem hmems ((s.mem sp).touches_write (P := (· = i)) rfl v) fun j hj => hj ▸ hi
  rw [writeMem_eq]
  cases sp with
  | ktab | kdat => exact ⟨hvalid, hbusy, hgood, hfault, fun hr => by simp [writeMakesStale] at hr⟩
  | buf | inp | out => exact ⟨hvalid, hbusy, hgood, hfault, fun hr => hready (by simpa [writeMakesStale] using hr)⟩

theorem hostWrite_inv {a v : Word} {s t : State} (h : s.Inv) (hx : hostWrite a v s = .next t) : t.Inv := by
  obtain ⟨r, -, hr⟩ | ⟨sp, i, hi, rfl⟩ | rfl := hostWrite_next_cases hx
  · exact writeReg_inv h hr
  · exact writeMem_inv h hi v
  · exact h

theorem State.afterReset_inv {s : State} (h : s.Inv) : s.afterReset.Inv :=
  ⟨h.1, rfl, s.afterReset_memsGood, ⟨fun _ => ⟨rfl, rfl⟩, fun he => by simp at he⟩, fun hr => by simp at hr⟩

theorem step_inv {s t : State} (h : s.Inv) (hx : step s = .next t) : t.Inv := by
  obtain rfl | ⟨a, v, rest, -, -, hw⟩ | ⟨a, rest, -, rfl⟩ | ⟨rest, -, rfl⟩ := step_next_cases hx
  · exact h
  · exact hostWrite_inv (s := { s with host := rest }) h hw
  · exact h
  · exact State.afterReset_inv (s := { s with host := rest }) h

/-! ### The parameters -/

theorem writeReg_params {r : Reg} {v : Word} {s t : State} (h : writeReg r v s = .next t) : t.params = s.params := by
  cases r with
  | cmd =>
    obtain ⟨-, rfl⟩ | ⟨-, rfl⟩ | ⟨-, i, -, hi⟩ := issue_next_cases h
    · rfl
    · rfl
    · exact exec_params hi
  | status | errcode | errinfo | errclr | cfgLogn | cfgNumk | opa | opb | opd | len | idx | res | inoff | inlen | outoff =>
    cases h
    rfl

theorem step_params {s t : State} (h : step s = .next t) : t.params = s.params := by
  obtain rfl | ⟨a, v, rest, -, -, hw⟩ | ⟨a, rest, -, rfl⟩ | ⟨rest, -, rfl⟩ := step_next_cases h
  · rfl
  · obtain ⟨r, -, hr⟩ | ⟨sp, i, -, rfl⟩ | rfl := hostWrite_next_cases hw
    · exact writeReg_params (s := { s with host := rest }) hr
    · exact writeMem_params sp i v _
    · rfl
  · rfl
  · rfl

/-- Settles O19: each host access keeps the invariant, and a command keeps it because its writes stay within the checked
ranges. -/
theorem invariantIsKeptByEveryStep : Obligations.InvariantIsKeptByEveryStep :=
  fun _ _ h => ⟨step_params h, fun hi => step_inv hi h⟩

end Sys2Proof.Machine
end

section
/-! PROOFS. What the host's accesses do to the registers and the memories (R21, R24, R26 to R29, R33, R34, R60, R68). -/

namespace Sys2Proof.Machine

open Sys2Proof.Config

/-! ### A recorded fault -/

/-- While ERR = 1 a write to any register but ERRCLR leaves the fault as recorded: a command is ignored (R265). -/
theorem writeReg_keeps_fault {r : Reg} {v : Word} {s t : State} (he : s.err = true) (hr : r ≠ .errclr)
    (h : writeReg r v s = .next t) : t.err = true ∧ t.errCode = s.errCode ∧ t.errInfo = s.errInfo := by
  cases r with
  | cmd =>
    obtain ⟨-, rfl⟩ | ⟨hn, -⟩ | ⟨hn, -⟩ := issue_next_cases h
    · exact ⟨he, rfl, rfl⟩
    · simp [he] at hn
    · simp [he] at hn
  | errclr => exact absurd rfl hr
  | status | errcode | errinfo | cfgLogn | cfgNumk | opa | opb | opd | len | idx | res | inoff | inlen | outoff =>
    cases h
    exact ⟨he, rfl, rfl⟩

/-- Settles O7: of the steps a state with ERR = 1 can take, only an ERRCLR write and a reset touch the fault registers. -/
theorem recordedFaultStaysUntilCleared : Obligations.RecordedFaultStaysUntilCleared := by
  intro s t he h
  obtain rfl | ⟨a, v, rest, hh, -, hw⟩ | ⟨a, rest, -, rfl⟩ | ⟨rest, hh, -⟩ := step_next_cases h
  · exact .inl ⟨he, rfl, rfl⟩
  · obtain ⟨r, ht, hr⟩ | ⟨sp, i, -, rfl⟩ | rfl := hostWrite_next_cases hw
    · by_cases hclr : r = .errclr
      · exact .inr (.inl ⟨a, v, rest, hh, hclr ▸ ht⟩)
      · exact .inl (writeReg_keeps_fault (s := { s with host := rest }) he hclr hr)
    · exact .inl ⟨(writeMem_err ..).trans he, writeMem_errCode .., writeMem_errInfo ..⟩
    · exact .inl ⟨he, rfl, rfl⟩
  · exact .inl ⟨he, rfl, rfl⟩
  · exact .inr (.inr ⟨rest, hh⟩)

/-! ### A write to a memory -/

/-- A host read at a word's own address returns the word (R60). -/
theorem hostRead_wordAddr {s : State} {sp : Space} {i : Nat} (hv : s.params.Valid) (hi : i < s.params.size sp) :
    s.hostRead (wordAddr sp i) = (s.mem sp).read i := by
  rw [State.hostRead, target_wordAddr hv hi]

/-- A host write at a word's own address stores there (R60). -/
theorem hostWrite_wordAddr {s : State} {sp : Space} {i : Nat} (hv : s.params.Valid) (hi : i < s.params.size sp)
    (v : Word) : hostWrite (wordAddr sp i) v s = .next (writeMem sp i v s) := by
  rw [hostWrite, target_wordAddr hv hi]

/-- The host reads back what an address holds. -/
theorem step_read_back (t : State) {a v : Word} (rest : List HostAction) (hb : t.busy = false) (hr : t.hostRead a = v) :
    step { t with host := .read a :: rest } = .next { t with host := rest, lastRead := some v } := by
  rw [step_read_at t a rest hb, hr]

/-- A step whose pending action is a write at a word's own address (R60). -/
theorem step_writeMem {s : State} {sp : Space} {i : Nat} {v : Word} {rest : List HostAction} (hv : s.params.Valid)
    (hb : s.busy = false) (hi : i < s.params.size sp) (h : s.host = .write (wordAddr sp i) v :: rest) :
    step s = .next (writeMem sp i v { s with host := rest }) := by
  rw [step_write h hb]
  exact hostWrite_wordAddr (s := { s with host := rest }) hv hi v

/-- Settles O11: the step is `writeMem`, one update of a memory and READY, and the read back goes to the same word. -/
theorem hostMemoryWriteIsReadBack : Obligations.HostMemoryWriteIsReadBack := by
  intro s sp i v rest hv hb hi h
  refine ⟨_, step_writeMem hv hb hi h, ?_, fun j hj => ?_, fun hs => ?_, fun hk hd => ?_, ?_, fun rest' => ?_⟩
  · rw [writeMem_mem, Mem.read_write_same]
  · rw [writeMem_mem, Mem.read_write_other _ hj]
    cases sp <;> rfl
  · obtain rfl | rfl := hs <;> simp [writeMem_ready, writeMakesStale]
  · rw [writeMem_ready]
    cases sp with
    | ktab => exact absurd rfl hk
    | kdat => exact absurd rfl hd
    | buf | inp | out => exact Bool.and_true _
  · rw [writeMem_mem, writeMem_ready, writeMem_eq]
  · have hparams := writeMem_params sp i v { s with host := rest }
    refine step_read_back _ rest' ((writeMem_busy ..).trans hb) ?_
    rw [hostRead_wordAddr (by rw [hparams]; exact hv) (by rw [hparams]; exact hi), writeMem_mem, Mem.read_write_same]

/-! ### The operand registers -/

/-- The state with `v` in an operand register; for any other register the state as it is. -/
def State.setOperand (r : Reg) (v : Word) (s : State) : State :=
  { s with
    opa := if r = .opa then v else s.opa
    opb := if r = .opb then v else s.opb
    opd := if r = .opd then v else s.opd
    len := if r = .len then v else s.len
    idx := if r = .idx then v else s.idx
    inoff := if r = .inoff then v else s.inoff
    inlen := if r = .inlen then v else s.inlen
    outoff := if r = .outoff then v else s.outoff }

/-- The operand registers (R21). -/
def operandRegs : List Reg := [.opa, .opb, .opd, .len, .idx, .inoff, .inlen, .outoff]

theorem writeReg_operand {r : Reg} (hr : r ∈ operandRegs) (v : Word) (s : State) :
    writeReg r v s = .next (s.setOperand r v) := by
  cases r with
  | opa | opb | opd | len | idx | inoff | inlen | outoff => rfl
  | cmd | status | errcode | errinfo | errclr | cfgLogn | cfgNumk | res => exact absurd hr (by decide)

theorem State.setOperand_readReg_same {r : Reg} (hr : r ∈ operandRegs) (v : Word) (s : State) :
    (s.setOperand r v).readReg r = v := by
  cases r with
  | opa | opb | opd | len | idx | inoff | inlen | outoff => rfl
  | cmd | status | errcode | errinfo | errclr | cfgLogn | cfgNumk | res => exact absurd hr (by decide)

theorem State.setOperand_readReg_other {r q : Reg} (h : q ≠ r) (v : Word) (s : State) :
    (s.setOperand r v).readReg q = s.readReg q := by
  cases q with
  | opa | opb | opd | len | idx | inoff | inlen | outoff => exact if_neg h.symm
  | cmd | status | errcode | errinfo | errclr | cfgLogn | cfgNumk | res => rfl

theorem State.setOperand_mem (r : Reg) (v : Word) (s : State) (sp : Space) : (s.setOperand r v).mem sp = s.mem sp := by
  cases sp <;> rfl

/-- Settles O12: the step is `setOperand`. -/
theorem operandRegistersHoldWhatIsWritten : Obligations.OperandRegistersHoldWhatIsWritten := by
  intro s r v rest rest' hr hb h
  have hr : r ∈ operandRegs := by simpa [operandRegs] using hr
  have hread := State.setOperand_readReg_same hr v { s with host := rest }
  refine ⟨State.setOperand r v { s with host := rest }, ?_, hread, fun q hq => State.setOperand_readReg_other hq v _,
    State.setOperand_mem r v _, ⟨rfl, rfl, rfl, rfl, rfl⟩, ?_⟩
  · rw [step_write h hb, hostWrite_regAddr, writeReg_operand hr]
  · exact step_read_back _ rest' hb ((hostRead_regAddr ..).trans hread)

/-! ### The configuration registers -/

/-- Bits 4:0 of a word, as a number (R28). -/
theorem lowFive_eq (v : Word) : v.extractLsb' 0 5 = BitVec.ofNat 5 (v.toNat % 2 ^ 5) := by
  apply BitVec.eq_of_toNat_eq
  simp

/-- CFG_LOGN reads as its number, bits 31:5 zero (R28). -/
theorem State.readReg_cfgLogn (s : State) : s.readReg .cfgLogn = BitVec.ofNat 32 s.cfgLogn.toNat := by
  apply BitVec.eq_of_toNat_eq
  have hlt := s.cfgLogn.isLt
  rw [State.readReg, zero_append_toNat, BitVec.toNat_ofNat]
  omega

/-- Settles O13: the two writes clear READY with what they store, and a read is of the register's own word. -/
theorem configurationWritesStoreAndMakeStale : Obligations.ConfigurationWritesStoreAndMakeStale := by
  intro s v rest hb
  refine ⟨fun h => ?_, fun h => ?_, fun h => ?_, fun h => ?_⟩
  · rw [step_write h hb, hostWrite_regAddr, ← lowFive_eq]
    rfl
  · rw [step_write h hb, hostWrite_regAddr]
    rfl
  · rw [step_read h hb, hostRead_regAddr, State.readReg_cfgLogn]
  · rw [step_read h hb, hostRead_regAddr]
    rfl

/-! ### The read-only registers and the bits of STATUS -/

/-- A read of a register between commands, and of STATUS at any time (R93 step 1, R316). -/
theorem step_readReg {s : State} {r : Reg} {rest : List HostAction} (hr : s.busy = false ∨ r = .status)
    (h : s.host = .read (regAddr r) :: rest) :
    step s = .next { s with host := rest, lastRead := some (s.readReg r) } := by
  obtain hb | rfl := hr
  · rw [step_read h hb, hostRead_regAddr]
  · simp only [step, hostStep, h, hostAct, target_regAddr, hostRead_regAddr]
    rw [if_neg (by simp)]
    rfl

theorem State.statusWord_toNat (s : State) : s.statusWord.toNat = s.busy.toNat + 2 * s.ready.toNat + 4 * s.err.toNat := by
  unfold State.statusWord
  cases s.busy <;> cases s.ready <;> cases s.err <;> rfl

/-- Settles O14: a write to a read-only register leaves the state, and a read is `readReg` of it. -/
theorem readOnlyWriteOnlyAndStatusBits : Obligations.ReadOnlyWriteOnlyAndStatusBits := by
  intro s v rest
  refine ⟨fun r hr hb h => ?_, fun r hr h => step_readReg hr h, rfl, rfl, s.statusWord_toNat, zero_append_toNat s.errCode,
    rfl, rfl⟩
  rw [step_write h hb, hostWrite_regAddr]
  obtain rfl | rfl | rfl | rfl := hr <;> rfl

end Sys2Proof.Machine
end

section
/-! PROOFS. What the commands write, and what their operands matter to (R21, R29, R51). -/

namespace Sys2Proof.Machine

open Sys2Proof.Config

/-! ### The table of writers -/

/-! RES, READY, BUF and OUT after the effect of a command that does not write them (R29, R51). -/

theorem State.effect_res {i : Instr} (h : i ≠ .kfreq) (s : State) : (s.effect i).res = s.res := by
  cases i with
  | kfreq => exact absurd rfl h
  | _ => rfl

theorem State.effect_ready {i : Instr} (h : i ≠ .kcommit) (s : State) : (s.effect i).ready = s.ready := by
  cases i with
  | kcommit => exact absurd rfl h
  | _ => rfl

theorem State.effect_buf {i : Instr} (h : i = .nop ∨ i = .conv ∨ i = .kcommit ∨ i = .kfreq) (s : State) :
    (s.effect i).buf = s.buf := by
  obtain rfl | rfl | rfl | rfl := h <;> rfl

theorem State.effect_out {i : Instr} (hc : i ≠ .conv) (hx : i ≠ .xform) (s : State) : (s.effect i).out = s.out := by
  cases i with
  | conv => exact absurd rfl hc
  | xform => exact absurd rfl hx
  | _ => rfl

/-- No effect touches the fault registers. -/
theorem State.effect_fault (i : Instr) (s : State) :
    (s.effect i).err = s.err ∧ (s.effect i).errCode = s.errCode ∧ (s.effect i).errInfo = s.errInfo := by
  cases i <;> exact ⟨rfl, rfl, rfl⟩

/-- Settles O38: the frame of every command, and the four fields only some commands write. -/
theorem commandsWriteOnlyWhatTheTableSays : Obligations.CommandsWriteOnlyWhatTheTableSays := by
  intro i s t h
  have hframe := exec_frame h
  refine ⟨?_, ?_, ?_, ?_, ?_⟩
  · rw [hframe]; exact ⟨rfl, rfl, rfl, rfl⟩
  · rw [hframe]; exact ⟨rfl, rfl⟩
  · rw [hframe]; exact ⟨rfl, rfl, rfl, rfl, rfl, rfl, rfl, rfl⟩
  · rw [hframe]; exact ⟨rfl, rfl, rfl⟩
  · obtain ⟨code, info, rfl⟩ | ⟨-, rfl⟩ := exec_next_cases h
    · exact ⟨fun _ => rfl, fun _ => rfl, fun _ => rfl, fun _ _ => rfl, fun he => by simp at he, fun _ => rfl⟩
    · obtain ⟨herr, hcode, hinfo⟩ := State.effect_fault i s
      exact ⟨fun hi => State.effect_res hi s, fun hi => State.effect_ready hi s, fun hi => State.effect_buf hi s,
        fun hc hx => State.effect_out hc hx s, fun _ => ⟨hcode, hinfo⟩, fun he => herr.trans he⟩

/-! ### The operands -/

/-- The operand registers each command reads (R21). -/
def operandsRead : Instr → List Reg
  | .cmul => [.opa, .opb, .opd, .len]
  | .conv => [.outoff]
  | .pack => [.inoff, .inlen]
  | .xform => [.inoff, .inlen, .outoff]
  | .kfreq => [.idx]
  | _ => []

theorem onNext_ite (f : State → State) (p : Prop) [Decidable p] (a b : Host.Outcome State Fault Refusal) :
    onNext f (if p then a else b) = if p then onNext f a else onNext f b := by
  split <;> rfl

section
variable {r : Reg} (v : Word) (s : State)

theorem State.setOperand_opa (h : r ≠ .opa) : (s.setOperand r v).opa = s.opa := if_neg h
theorem State.setOperand_opb (h : r ≠ .opb) : (s.setOperand r v).opb = s.opb := if_neg h
theorem State.setOperand_opd (h : r ≠ .opd) : (s.setOperand r v).opd = s.opd := if_neg h
theorem State.setOperand_len (h : r ≠ .len) : (s.setOperand r v).len = s.len := if_neg h
theorem State.setOperand_idx (h : r ≠ .idx) : (s.setOperand r v).idx = s.idx := if_neg h
theorem State.setOperand_inoff (h : r ≠ .inoff) : (s.setOperand r v).inoff = s.inoff := if_neg h
theorem State.setOperand_inlen (h : r ≠ .inlen) : (s.setOperand r v).inlen = s.inlen := if_neg h
theorem State.setOperand_outoff (h : r ≠ .outoff) : (s.setOperand r v).outoff = s.outoff := if_neg h

theorem State.setOperand_inputFits (ho : r ≠ .inoff) (hl : r ≠ .inlen) :
    (s.setOperand r v).inputFits = s.inputFits := by
  rw [State.inputFits, State.setOperand_inoff v s ho, State.setOperand_inlen v s hl]
  rfl

theorem State.setOperand_outputFits (h : r ≠ .outoff) : (s.setOperand r v).outputFits = s.outputFits := by
  rw [State.outputFits, State.setOperand_outoff v s h]
  rfl

theorem State.setOperand_packBuf (ho : r ≠ .inoff) (hl : r ≠ .inlen) :
    (s.setOperand r v).packBuf = s.packBuf.setOperand r v := by
  have hbuf : (s.setOperand r v).packBuf.buf = s.packBuf.buf := by
    rw [State.packBuf_buf, State.packBuf_buf, State.setOperand_inoff v s ho, State.setOperand_inlen v s hl]
    rfl
  calc (s.setOperand r v).packBuf
      = { s.packBuf.setOperand r v with buf := (s.setOperand r v).packBuf.buf } := rfl
    _ = s.packBuf.setOperand r v := by rw [hbuf]; rfl

theorem State.setOperand_convOut (h : r ≠ .outoff) : (s.setOperand r v).convOut = s.convOut.setOperand r v := by
  have hout : (s.setOperand r v).convOut.out = s.convOut.out := by
    rw [State.convOut_out, State.convOut_out, State.setOperand_outoff v s h]
    rfl
  calc (s.setOperand r v).convOut
      = { s.convOut.setOperand r v with out := (s.setOperand r v).convOut.out } := rfl
    _ = s.convOut.setOperand r v := by rw [hout]; rfl

theorem State.setOperand_rfftBuf (dir : Direction) (n : Nat) :
    (s.setOperand r v).rfftBuf dir n = (s.rfftBuf dir n).setOperand r v := rfl

theorem State.setOperand_effect_kfreq (h : r ≠ .idx) :
    (s.setOperand r v).effect .kfreq = (s.effect .kfreq).setOperand r v := by
  have hres : ((s.setOperand r v).effect .kfreq).res = (s.effect .kfreq).res := by
    simp only [State.effect, State.setOperand_idx v s h]
    rfl
  calc (s.setOperand r v).effect .kfreq
      = { (s.effect .kfreq).setOperand r v with res := ((s.setOperand r v).effect .kfreq).res } := rfl
    _ = (s.effect .kfreq).setOperand r v := by rw [hres]; rfl

theorem cmulFault_setOperand (ha : r ≠ .opa) (hb : r ≠ .opb) (hd : r ≠ .opd) (hl : r ≠ .len) :
    cmulFault (s.setOperand r v) = cmulFault s := by
  simp only [cmulFault, State.setOperand_opa v s ha, State.setOperand_opb v s hb, State.setOperand_opd v s hd,
    State.setOperand_len v s hl]
  rfl

theorem State.setOperand_effect_cmul (ha : r ≠ .opa) (hb : r ≠ .opb) (hd : r ≠ .opd) (hl : r ≠ .len) :
    (s.setOperand r v).effect .cmul = (s.effect .cmul).setOperand r v := by
  have hbuf : ((s.setOperand r v).effect .cmul).buf = (s.effect .cmul).buf := by
    simp only [State.effect, State.setOperand_opa v s ha, State.setOperand_opb v s hb, State.setOperand_opd v s hd,
      State.setOperand_len v s hl]
    rfl
  calc (s.setOperand r v).effect .cmul
      = { (s.effect .cmul).setOperand r v with buf := ((s.setOperand r v).effect .cmul).buf } := rfl
    _ = (s.effect .cmul).setOperand r v := by rw [hbuf]; rfl

/-! Each command commutes with a write to an operand register it does not read: its checks have the same answers, and the
register passes through a fault and a completion alike. -/

theorem runCfft_setOperand (dir : Direction) (n : Nat) (w : Word) :
    runCfft dir n w (s.setOperand r v) = onNext (·.setOperand r v) (runCfft dir n w s) := by
  rw [runCfft, runCfft, onNext_ite]
  rfl

theorem runRfft_setOperand (dir : Direction) (n : Nat) (w : Word) :
    runRfft dir n w (s.setOperand r v) = onNext (·.setOperand r v) (runRfft dir n w s) := by
  rw [runRfft, runRfft, onNext_ite]
  rfl

theorem execConv_setOperand (h : r ≠ .outoff) :
    execConv (s.setOperand r v) = onNext (·.setOperand r v) (execConv s) := by
  rw [execConv, execConv, onNext_ite, onNext_ite, State.setOperand_outputFits v s h, State.setOperand_convOut v s h]
  rfl

theorem execPack_setOperand (ho : r ≠ .inoff) (hl : r ≠ .inlen) :
    execPack (s.setOperand r v) = onNext (·.setOperand r v) (execPack s) := by
  rw [execPack, execPack, onNext_ite, onNext_ite, State.setOperand_inputFits v s ho hl,
    State.setOperand_packBuf v s ho hl]
  rfl

theorem execXform_setOperand (ho : r ≠ .inoff) (hl : r ≠ .inlen) (h : r ≠ .outoff) :
    execXform (s.setOperand r v) = onNext (·.setOperand r v) (execXform s) := by
  rw [execXform, execXform, onNext_ite, onNext_ite, onNext_ite, State.setOperand_inputFits v s ho hl,
    State.setOperand_outputFits v s h, State.setOperand_packBuf v s ho hl, State.setOperand_rfftBuf,
    State.setOperand_convOut v _ h]
  rfl

theorem execKcommit_setOperand :
    execKcommit (s.setOperand r v) = onNext (·.setOperand r v) (execKcommit s) := by
  have hbad : (s.setOperand r v).badKernel = s.badKernel := rfl
  rw [execKcommit, execKcommit, onNext_ite, onNext_ite, hbad]
  cases s.badKernel <;> rfl

theorem execKfreq_setOperand (h : r ≠ .idx) :
    execKfreq (s.setOperand r v) = onNext (·.setOperand r v) (execKfreq s) := by
  have hk (u : State) : execKfreq u =
      if u.ready = false then faulted .notReady (encode .kfreq) u
      else if u.cfgNumk.toNat ≤ u.idx.toNat then faulted .range 6 u else complete (u.effect .kfreq) := rfl
  rw [hk, hk, onNext_ite, onNext_ite, State.setOperand_idx v s h, State.setOperand_effect_kfreq v s h]
  rfl

theorem execCmul_setOperand (ha : r ≠ .opa) (hb : r ≠ .opb) (hd : r ≠ .opd) (hl : r ≠ .len) :
    execCmul (s.setOperand r v) = onNext (·.setOperand r v) (execCmul s) := by
  have hfault := cmulFault_setOperand v s ha hb hd hl
  cases h : cmulFault s with
  | some w =>
    simp only [execCmul, hfault, h]
    rfl
  | none =>
    have hc (u : State) (hu : cmulFault u = none) : execCmul u = complete (u.effect .cmul) := by
      simp only [execCmul, hu, State.effect]
    rw [hc s h, hc _ (hfault.trans h), State.setOperand_effect_cmul v s ha hb hd hl]
    rfl

/-- A command commutes with a write to an operand register it does not read. -/
theorem exec_setOperand {i : Instr} (h : r ∉ operandsRead i) :
    exec i (s.setOperand r v) = onNext (·.setOperand r v) (exec i s) := by
  cases i with
  | nop => rfl
  | cfftF _ | cfftI _ => exact runCfft_setOperand v s _ _ _
  | rfftF _ | rfftI _ => exact runRfft_setOperand v s _ _ _
  | cmul =>
    obtain ⟨ha, hb, hd, hl⟩ : r ≠ .opa ∧ r ≠ .opb ∧ r ≠ .opd ∧ r ≠ .len := by simpa [operandsRead] using h
    exact execCmul_setOperand v s ha hb hd hl
  | conv => exact execConv_setOperand v s (by simpa [operandsRead] using h)
  | pack =>
    obtain ⟨ho, hl⟩ : r ≠ .inoff ∧ r ≠ .inlen := by simpa [operandsRead] using h
    exact execPack_setOperand v s ho hl
  | xform =>
    obtain ⟨ho, hl, hout⟩ : r ≠ .inoff ∧ r ≠ .inlen ∧ r ≠ .outoff := by simpa [operandsRead] using h
    exact execXform_setOperand v s ho hl hout
  | kcommit => exact execKcommit_setOperand v s
  | kfreq => exact execKfreq_setOperand v s (by simpa [operandsRead] using h)

end

/-! Which commands do not list a register among their operands (R21). -/

theorem not_mem_operandsRead_of_ne_cmul {i : Instr} (h : i ≠ .cmul) {r : Reg} (hr : r ∈ [Reg.opa, .opb, .opd, .len]) :
    r ∉ operandsRead i := by
  cases i with
  | cmul => exact absurd rfl h
  | conv | pack | xform | kfreq => revert r; decide
  | nop | cfftF _ | cfftI _ | rfftF _ | rfftI _ | kcommit => exact List.not_mem_nil

theorem idx_not_mem_operandsRead {i : Instr} (h : i ≠ .kfreq) : Reg.idx ∉ operandsRead i := by
  cases i with
  | kfreq => exact absurd rfl h
  | cmul | conv | pack | xform => decide
  | nop | cfftF _ | cfftI _ | rfftF _ | rfftI _ | kcommit => exact List.not_mem_nil

theorem not_mem_operandsRead_of_ne_pack {i : Instr} (hp : i ≠ .pack) (hx : i ≠ .xform) {r : Reg} (hr : r ∈ [Reg.inoff, .inlen]) :
    r ∉ operandsRead i := by
  cases i with
  | pack => exact absurd rfl hp
  | xform => exact absurd rfl hx
  | cmul | conv | kfreq => revert r; decide
  | nop | cfftF _ | cfftI _ | rfftF _ | rfftI _ | kcommit => exact List.not_mem_nil

theorem outoff_not_mem_operandsRead {i : Instr} (hc : i ≠ .conv) (hx : i ≠ .xform) : Reg.outoff ∉ operandsRead i := by
  cases i with
  | conv => exact absurd rfl hc
  | xform => exact absurd rfl hx
  | cmul | pack | kfreq => decide
  | nop | cfftF _ | cfftI _ | rfftF _ | rfftI _ | kcommit => exact List.not_mem_nil

/-- Settles O40: each clause is `exec_setOperand` at one register. -/
theorem operandsMatterOnlyToTheirCommands : Obligations.OperandsMatterOnlyToTheirCommands := by
  intro i s v
  refine ⟨fun h => ⟨?_, ?_, ?_, ?_⟩, fun h => ?_, fun hp hx => ⟨?_, ?_⟩, fun hc hx => ?_⟩
  · exact exec_setOperand (r := .opa) v s (not_mem_operandsRead_of_ne_cmul h (by decide))
  · exact exec_setOperand (r := .opb) v s (not_mem_operandsRead_of_ne_cmul h (by decide))
  · exact exec_setOperand (r := .opd) v s (not_mem_operandsRead_of_ne_cmul h (by decide))
  · exact exec_setOperand (r := .len) v s (not_mem_operandsRead_of_ne_cmul h (by decide))
  · exact exec_setOperand (r := .idx) v s (idx_not_mem_operandsRead h)
  · exact exec_setOperand (r := .inoff) v s (not_mem_operandsRead_of_ne_pack hp hx (by decide))
  · exact exec_setOperand (r := .inlen) v s (not_mem_operandsRead_of_ne_pack hp hx (by decide))
  · exact exec_setOperand (r := .outoff) v s (outoff_not_mem_operandsRead hc hx)

end Sys2Proof.Machine
end

section
/-! PROOFS. Where the machine stops, and what the window selects (R60, R61, R64, R277, R316). -/

namespace Sys2Proof.Machine

open Sys2Proof.Config

/-! ### Where the machine stops -/

/-- A write to CMD has a next state, whatever the word: it is ignored, faults, or runs a command (R93). -/
theorem issue_ends (w : Word) (s : State) : ∃ t, issue w s = .next t := by
  unfold issue
  split
  · exact ⟨s, rfl⟩
  · split
    · exact ⟨_, rfl⟩
    · next i _ =>
      obtain ⟨t, h, -⟩ := everyCommandEnds i s.accept
      exact ⟨t, h⟩

theorem writeReg_ends (r : Reg) (v : Word) (s : State) : ∃ t, writeReg r v s = .next t := by
  cases r with
  | cmd => exact issue_ends v s
  | status | errcode | errinfo | errclr | cfgLogn | cfgNumk | opa | opb | opd | len | idx | res | inoff | inlen | outoff =>
    exact ⟨_, rfl⟩

/-- A host write has a next state, wherever it goes (R60, R61). -/
theorem hostWrite_ends (a v : Word) (s : State) : ∃ t, hostWrite a v s = .next t := by
  unfold hostWrite
  split
  · next r _ => exact writeReg_ends r v s
  · exact ⟨_, rfl⟩
  · exact ⟨s, rfl⟩

/-- The host's access is refused exactly when the spec gives it no behaviour (R64, R93 step 1, R316). -/
theorem hostAct_refused_iff (a : HostAction) (s : State) : (∃ r, hostAct a s = .refused r) ↔ forbidden s a := by
  cases a with
  | write addr v =>
    obtain ⟨t, ht⟩ := hostWrite_ends addr v s
    cases hb : s.busy <;> simp [hostAct, forbidden, hb, ht]
  | read addr =>
    by_cases h : s.busy = true ∧ target s.params addr ≠ .reg .status
    · exact iff_of_true ⟨_, if_pos h⟩ h
    · refine iff_of_false ?_ h
      rintro ⟨r, hr⟩
      cases (if_neg h).symm.trans hr
  | narrow addr => exact iff_of_true ⟨_, rfl⟩ trivial
  | reset =>
    refine iff_of_false ?_ id
    rintro ⟨r, hr⟩
    cases hr

/-- A step with an action pending performs it. -/
theorem step_cons {s : State} {a : HostAction} {rest : List HostAction} (h : s.host = a :: rest) :
    step s = hostAct a { s with host := rest } := by
  simp only [step, hostStep, h]

/-- Whether an access is forbidden does not depend on what the host does next. -/
theorem forbidden_host (s : State) (rest : List HostAction) (a : HostAction) :
    forbidden { s with host := rest } a ↔ forbidden s a := by
  cases a <;> rfl

theorem step_refused_iff (s : State) :
    (∃ r, step s = .refused r) ↔ ∃ a rest, s.host = a :: rest ∧ forbidden s a := by
  cases h : s.host with
  | nil => simp [step_idle h]
  | cons a rest =>
    rw [step_cons h, hostAct_refused_iff, forbidden_host]
    simp

/-- Settles O8: the pending action decides, and only the three forbidden forms of it are refused. -/
theorem stepStopsExactlyOnForbiddenAccess : Obligations.StepStopsExactlyOnForbiddenAccess :=
  ⟨step_refused_iff, fun _ f => (nomatch f), fun _ _ h => step_readReg (.inr rfl) h, fun _ h => step_idle h⟩

/-! ### What the window selects -/

/-- Space 0 holds the registers, at the indices of R24 (R60). -/
theorem target_of_index {a : Word} {r : Reg} (p : Params) (h : a.toNat / 2 ^ 28 = 0)
    (hr : r.index = a.toNat % 2 ^ 28) : target p a = .reg r := by
  rw [target_eq, if_pos h, ← hr, regAt_index]

/-- The indices from 0x10 on are reserved (R24, R60). -/
theorem target_of_reserved_index {a : Word} (p : Params) (h : a.toNat / 2 ^ 28 = 0) (hr : 0x0F < a.toNat % 2 ^ 28) :
    target p a = .absent := by
  rw [target_eq, if_pos h, regAt_reserved hr]

/-- Spaces 1 to 5 are the memories, each as long as its size (R60). -/
theorem target_of_space {a : Word} {sp : Space} (p : Params) (h : a.toNat / 2 ^ 28 = spaceNumber sp) :
    target p a = if a.toNat % 2 ^ 28 < p.size sp then .word sp (a.toNat % 2 ^ 28) else .absent := by
  obtain ⟨hpos, -⟩ := spaceNumber_range sp
  rw [target_eq, if_neg (by omega), h, spaceAt_number]

/-- The spaces from 6 on are reserved (R60). -/
theorem target_of_reserved_space {a : Word} (p : Params) (h : 5 < a.toNat / 2 ^ 28) : target p a = .absent := by
  rw [target_eq, if_neg (by omega), spaceAt_reserved h]

/-- Settles O9: one clause for each kind of space. -/
theorem windowSelectsSpaceAndIndex : Obligations.WindowSelectsSpaceAndIndex :=
  ⟨fun p _ h => ⟨fun _ hr => target_of_index p h hr, fun hr => target_of_reserved_index p h hr⟩,
    fun p _ _ h => target_of_space p h, fun p _ h => target_of_reserved_space p h,
    fun _ _ _ hv hi => target_wordAddr hv hi⟩

/-! ### Outside the map -/

theorem hostRead_absent {s : State} {a : Word} (h : target s.params a = .absent) : s.hostRead a = 0 := by
  rw [State.hostRead, h]

theorem hostWrite_absent {s : State} {a : Word} (h : target s.params a = .absent) (v : Word) :
    hostWrite a v s = .next s := by
  rw [hostWrite, h]

/-- Settles O10: all three kinds of address select nothing, and there a read is 0 and a write does nothing. -/
theorem outsideTheMapReadsZeroAndIgnoresWrites : Obligations.OutsideTheMapReadsZeroAndIgnoresWrites := by
  intro s a v rest hb hout
  have habsent : target s.params a = .absent := by
    obtain hspace | ⟨hzero, hindex⟩ | ⟨sp, hsp, hsize⟩ := hout
    · exact target_of_reserved_space s.params hspace
    · exact target_of_reserved_index s.params hzero hindex
    · rw [target_of_space s.params hsp, if_neg (by omega)]
  constructor
  · intro h
    rw [step_read h hb, hostRead_absent habsent]
  · intro h
    rw [step_write h hb]
    exact hostWrite_absent (s := { s with host := rest }) habsent v

end Sys2Proof.Machine
end

section
/-! PROOFS. Which words of BUF and OUT a command leaves (R74, R175). -/

namespace Sys2Proof.Machine

/-- What BUF and OUT are after a command: as before if it faults, and what its effect makes of them if it completes. -/
theorem exec_next_mem {i : Instr} {s t : State} (h : exec i s = .next t) :
    (t.buf = s.buf ∧ t.out = s.out) ∨ (s.passes i ∧ t.buf = (s.effect i).buf ∧ t.out = (s.effect i).out) := by
  obtain ⟨code, info, rfl⟩ | ⟨hpass, rfl⟩ := exec_next_cases h
  · exact .inl ⟨rfl, rfl⟩
  · exact .inr ⟨hpass, rfl, rfl⟩

/-- A command whose effect touches only words of BUF in `P` leaves every other word, whether it completes or faults. -/
theorem exec_buf_read_other {P : Nat → Prop} {i : Instr} {s t : State} {a : Nat} (h : exec i s = .next t)
    (heffect : s.passes i → Mem.Touches P s.buf (s.effect i).buf) (ha : ¬ P a) : t.buf.read a = s.buf.read a := by
  obtain ⟨hbuf, -⟩ | ⟨hpass, hbuf, -⟩ := exec_next_mem h
  · rw [hbuf]
  · rw [hbuf, (heffect hpass).other a ha]

/-- The same of OUT. -/
theorem exec_out_read_other {P : Nat → Prop} {i : Instr} {s t : State} {a : Nat} (h : exec i s = .next t)
    (heffect : Mem.Touches P s.out (s.effect i).out) (ha : ¬ P a) : t.out.read a = s.out.read a := by
  obtain ⟨-, hout⟩ | ⟨-, -, hout⟩ := exec_next_mem h
  · rw [hout]
  · rw [hout, heffect.other a ha]

/-- PACK touches the words of one frame (R216). -/
theorem State.packBuf_touches (s : State) : Mem.Touches (· < s.fftSize) s.buf s.packBuf.buf :=
  (packFrame_touches s.inp s.inoff.toNat s.inlen.toNat (s.fftSize / 2) s.buf).mono fun _ hi =>
    lt_of_lt_of_le hi (Nat.mul_div_le _ _)

/-- XFORM touches the words of its frame's real transform (R74, R220). -/
theorem State.effect_xform_touches_buf (s : State) : Mem.Touches (· < s.fftSize + 2) s.buf (s.effect .xform).buf :=
  (s.packBuf_touches.mono fun _ hi => Nat.lt_add_right 2 hi).trans
    (rfftForward_touches s.packBuf.draws s.cfgLogn.toNat s.packBuf.buf)

/-- The output words CONV and XFORM store (R201). -/
def State.outputWord (s : State) (a : Nat) : Prop :=
  s.outoff.toNat ≤ a ∧ a < s.outoff.toNat + s.cfgNumk.toNat

theorem State.convOut_touches (s : State) : Mem.Touches s.outputWord s.out s.convOut.out :=
  convBands_touches s.draws s.buf s.ktab s.kdat s.outoff.toNat s.cfgNumk.toNat s.out

theorem State.effect_xform_touches_out (s : State) : Mem.Touches s.outputWord s.out (s.effect .xform).out :=
  (s.packBuf.rfftBuf .forward s.cfgLogn.toNat).convOut_touches

/-- Settles O39: each command's effect touches its own range. -/
theorem wordsOutsideTheRangeAreUnchanged : Obligations.WordsOutsideTheRangeAreUnchanged := by
  intro s t a
  refine ⟨fun n h ha => ?_, fun n h ha => ?_, fun n h ha => ?_, fun h ha => ?_, fun h ha => ?_, fun h ha => ?_,
    fun h ha => ?_⟩
  · obtain h | h := h
    · exact exec_buf_read_other h (fun _ => cfftCore_touches s.draws n .forward s.buf) (Nat.not_lt.2 ha)
    · exact exec_buf_read_other h (fun _ => cfftCore_touches s.draws n .inverse s.buf) (Nat.not_lt.2 ha)
  · exact exec_buf_read_other h (fun _ => rfftForward_touches s.draws n s.buf) (Nat.not_lt.2 ha)
  · exact exec_buf_read_other h (fun hpass => rfftInverse_touches s.draws hpass.1 s.buf) (Nat.not_lt.2 ha)
  · exact exec_buf_read_other h (fun _ => cmulRange_touches s.draws _ _ s.opd.toNat s.len.toNat s.buf) (by omega)
  · exact exec_buf_read_other h (fun _ => s.packBuf_touches) (Nat.not_lt.2 ha)
  · exact exec_buf_read_other h (fun _ => s.effect_xform_touches_buf) (Nat.not_lt.2 ha)
  · have houtside : ¬ s.outputWord a := by
      unfold State.outputWord
      omega
    obtain h | h := h
    · exact exec_out_read_other h s.convOut_touches houtside
    · exact exec_out_read_other h s.effect_xform_touches_out houtside

end Sys2Proof.Machine
end

section
/-! PROOFS. The fields of the two formats' words, and the one word of every binary32 datum but NaN (R63, R120, R128). -/

namespace Sys2Proof.Machine

/-! ### The fields of a word -/

/-- A binary32 word given as a number is put together from its fields (R120). -/
theorem ofNat_eq_fields32 (neg : Bool) {e f : Nat} (he : e < 2 ^ 8) (hf : f < 2 ^ 23) :
    BitVec.ofNat 32 (neg.toNat * 2 ^ 31 + e * 2 ^ 23 + f) = BitVec.ofBool neg ++ BitVec.ofNat 8 e ++ BitVec.ofNat 23 f := by
  have hneg := neg.toNat_lt
  apply BitVec.eq_of_toNat_eq
  rw [fields32_toNat, BitVec.toNat_ofNat, BitVec.toNat_ofNat, BitVec.toNat_ofNat]
  omega

/-- Every binary32 word is put together from its sign, exponent and fraction (R120). -/
theorem exists_fields32 (w : Word) :
    ∃ (neg : Bool) (e : BitVec 8) (f : BitVec 23), w = BitVec.ofBool neg ++ e ++ f := by
  have hw := w.isLt
  refine ⟨decide (w.toNat / 2 ^ 31 = 1), BitVec.ofNat 8 (w.toNat / 2 ^ 23), BitVec.ofNat 23 w.toNat, ?_⟩
  apply BitVec.eq_of_toNat_eq
  rw [fields32_toNat, BitVec.toNat_ofNat, BitVec.toNat_ofNat]
  by_cases h : w.toNat / 2 ^ 31 = 1
  · simp only [h, decide_true, Bool.toNat_true]
    omega
  · simp only [h, decide_false, Bool.toNat_false]
    omega

/-- The datum of a binary32 word given as a number (R120). -/
theorem decode32_ofNat (neg : Bool) {e f : Nat} (he : e < 2 ^ 8) (hf : f < 2 ^ 23) :
    decode32 (BitVec.ofNat 32 (neg.toNat * 2 ^ 31 + e * 2 ^ 23 + f)) =
      if e = 255 then (if f = 0 then .inf neg else .nan)
      else if e = 0 then .fin neg (f * 2 ^ 925)
      else .fin neg ((2 ^ 23 + f) * 2 ^ (924 + e)) := by
  rw [ofNat_eq_fields32 neg he hf, decode32_fields, BitVec.toNat_ofNat, BitVec.toNat_ofNat, Nat.mod_eq_of_lt he,
    Nat.mod_eq_of_lt hf]

/-- The sign bit of a binary64 word given as a number. -/
theorem getLsbD_sign64 (neg : Bool) {e f : Nat} (he : e < 2 ^ 11) (hf : f < 2 ^ 52) :
    (BitVec.ofNat 64 (neg.toNat * 2 ^ 63 + e * 2 ^ 52 + f)).getLsbD 63 = neg := by
  have hbit : (neg.toNat * 2 ^ 63 + e * 2 ^ 52 + f) / 2 ^ 63 = neg.toNat := by omega
  rw [BitVec.getLsbD_ofNat, Nat.testBit_eq_decide_div_mod_eq, hbit]
  cases neg <;> rfl

/-- The datum of a binary64 word given as a number (R120). -/
theorem decode64_ofNat (neg : Bool) {e f : Nat} (he : e < 2 ^ 11) (hf : f < 2 ^ 52) :
    decode64 (BitVec.ofNat 64 (neg.toNat * 2 ^ 63 + e * 2 ^ 52 + f)) =
      if e = 2047 then (if f = 0 then .inf neg else .nan)
      else if e = 0 then .fin neg f
      else .fin neg ((2 ^ 52 + f) * 2 ^ (e - 1)) := by
  have hneg := neg.toNat_lt
  have hsign := getLsbD_sign64 neg he hf
  have hw : (BitVec.ofNat 64 (neg.toNat * 2 ^ 63 + e * 2 ^ 52 + f)).toNat = neg.toNat * 2 ^ 63 + e * 2 ^ 52 + f := by
    rw [BitVec.toNat_ofNat, Nat.mod_eq_of_lt (by omega)]
  have hexp : (neg.toNat * 2 ^ 63 + e * 2 ^ 52 + f) / 2 ^ 52 % 2 ^ 11 = e := by omega
  have hfrac : (neg.toNat * 2 ^ 63 + e * 2 ^ 52 + f) % 2 ^ 52 = f := by omega
  unfold decode64
  simp only [hsign, hw, hexp, hfrac]

/-! ### A binary32 datum has one word -/

/-- The NaN words: exponent field all ones, fraction not zero (R63, R128). -/
theorem decode32_eq_nan_iff (w : Word) :
    decode32 w = .nan ↔ w.toNat / 2 ^ 23 % 2 ^ 8 = 255 ∧ w.toNat % 2 ^ 23 ≠ 0 := by
  unfold decode32
  extract_lets neg e frac
  by_cases he : e = 255
  · rw [if_pos he]
    by_cases hf : frac = 0
    · rw [if_pos hf]
      exact iff_of_false (fun h => nomatch h) fun h => h.2 hf
    · rw [if_neg hf]
      exact iff_of_true rfl ⟨he, hf⟩
  · rw [if_neg he]
    refine iff_of_false ?_ fun h => he h.1
    split <;> exact fun h => nomatch h

/-- The highest bit of a normal significand scaled by its exponent. -/
theorem topBit_normal {f : Nat} (hf : f < 2 ^ 23) (x : Nat) : topBit ((2 ^ 23 + f) * 2 ^ x) = 23 + x := by
  rw [mul_comm, topBit_mul_pow x (by omega), topBit_unique (e := 23) (by omega) (by omega)]

/-- A normal datum takes its own exponent and fraction (R120). -/
theorem encode32_normal (q : Word) (neg : Bool) {e f : Nat} (he : 1 ≤ e) (hf : f < 2 ^ 23) :
    encode32 q (.fin neg ((2 ^ 23 + f) * 2 ^ (924 + e))) = BitVec.ofBool neg ++ BitVec.ofNat 8 e ++ BitVec.ofNat 23 f := by
  obtain ⟨x, rfl⟩ := Nat.exists_eq_add_of_le he
  have hunits : (2 ^ 23 + f) * 2 ^ (924 + (1 + x)) = (2 ^ 23 + f) * 2 ^ x * 2 ^ 925 := by
    rw [mul_assoc, ← pow_add]
    congr 2
    omega
  have hge : ¬ (2 ^ 23 + f) * 2 ^ x < 2 ^ 23 :=
    Nat.not_lt.2 (le_trans (Nat.le_add_right _ f) (Nat.le_mul_of_pos_right _ (Nat.two_pow_pos x)))
  have hfrac : BitVec.ofNat 23 (2 ^ 23 + f) = BitVec.ofNat 23 f := by
    apply BitVec.eq_of_toNat_eq
    rw [BitVec.toNat_ofNat, BitVec.toNat_ofNat, Nat.add_mod_left]
  rw [hunits, encode32_units, if_neg hge, topBit_normal hf, show 23 + x - 22 = 1 + x by omega,
    show 23 + x - 23 = x by omega, Nat.mul_div_cancel _ (Nat.two_pow_pos x), hfrac]

/-- Every word but a NaN is the encoding of its own datum (R63). -/
theorem encode32_decode32 (q : Word) {w : Word} (h : decode32 w ≠ .nan) : encode32 q (decode32 w) = w := by
  obtain ⟨neg, e, f, rfl⟩ := exists_fields32 w
  rw [decode32_fields] at h ⊢
  split at h
  · next he =>
    have he : e = 255#8 := BitVec.eq_of_toNat_eq he
    split at h
    · next hf =>
      have hf : f = 0#23 := BitVec.eq_of_toNat_eq hf
      subst he hf
      rfl
    · exact absurd rfl h
  · next he =>
    rw [if_neg he]
    split
    · next hz =>
      have hz : e = 0#8 := BitVec.eq_of_toNat_eq hz
      rw [encode32_units, if_pos f.isLt, BitVec.ofNat_toNat, BitVec.setWidth_eq, hz]
    · next hz =>
      rw [encode32_normal q neg (Nat.pos_of_ne_zero hz) f.isLt, BitVec.ofNat_toNat, BitVec.setWidth_eq,
        BitVec.ofNat_toNat, BitVec.setWidth_eq]

/-- A datum that is not NaN has one word. -/
theorem decode32_injective {w w' : Word} (h : decode32 w = decode32 w') (hn : decode32 w ≠ .nan) : w = w' :=
  calc w = encode32 0 (decode32 w) := (encode32_decode32 0 hn).symm
    _ = encode32 0 (decode32 w') := by rw [h]
    _ = w' := encode32_decode32 0 (h ▸ hn)

/-- Settles O41: the fields of both formats, and encoding as the inverse of decoding. -/
theorem encodingsAreThoseOfIeee754 : Obligations.EncodingsAreThoseOfIeee754 := by
  refine ⟨fun neg e f hf => ⟨fun he => ?_, ?_⟩, fun neg e f hf => ⟨fun he => ?_, ?_⟩, fun w q h => encode32_decode32 q h,
    fun w w' h hn => decode32_injective h hn, decode32_eq_nan_iff, decode32_nanWord⟩
  · rw [decode32_ofNat neg (by omega) hf, if_neg (by omega)]
    split <;> rfl
  · rw [decode32_ofNat neg (by omega) hf, if_pos rfl]
  · rw [decode64_ofNat neg (by omega) hf, if_neg (by omega)]
    split <;> rfl
  · rw [decode64_ofNat neg (by omega) hf, if_pos rfl]

end Sys2Proof.Machine
end

section
/-! PROOFS. The butterflies of one stage in any order (R69, R158). -/

namespace Sys2Proof.Machine

/-! ### Independent rewritings of a memory -/

/-- `m` after the writes of a list, first to last. -/
def Mem.writeAll (m : Mem) (ws : List WordCell) : Mem := ws.foldl (fun x c => x.write c.1 c.2) m

theorem Mem.writeAll_cons (m : Mem) (c : WordCell) (ws : List WordCell) :
    m.writeAll (c :: ws) = (m.write c.1 c.2).writeAll ws := rfl

theorem Mem.writeAll_touches {P : Nat → Prop} {ws : List WordCell} (hws : ∀ c ∈ ws, P c.1) (m : Mem) :
    Mem.Touches P m (m.writeAll ws) := by
  induction ws generalizing m with
  | nil => exact .refl P m
  | cons c ws ih =>
    obtain ⟨hc, hws⟩ := List.forall_mem_cons.1 hws
    exact (m.touches_write hc c.2).trans (ih hws _)

/-- A write of another word may come before or after the list. -/
theorem Mem.writeAll_write {ws : List WordCell} {k : Nat} (hws : ∀ c ∈ ws, c.1 ≠ k) (v : Word) (m : Mem) :
    (m.write k v).writeAll ws = (m.writeAll ws).write k v := by
  induction ws generalizing m with
  | nil => rfl
  | cons c ws ih =>
    obtain ⟨hc, hws⟩ := List.forall_mem_cons.1 hws
    rw [Mem.writeAll_cons, Mem.write_comm m hc, ih hws, Mem.writeAll_cons]

/-- Two lists that write different words may be done in either order. -/
theorem Mem.writeAll_comm {ws us : List WordCell} (h : ∀ c ∈ ws, ∀ u ∈ us, c.1 ≠ u.1) (m : Mem) :
    (m.writeAll us).writeAll ws = (m.writeAll ws).writeAll us := by
  induction us generalizing m with
  | nil => rfl
  | cons u us ih =>
    rw [Mem.writeAll_cons, ih (fun c hc u' hu' => h c hc u' (List.mem_cons_of_mem u hu')),
      Mem.writeAll_write (fun c hc => h c hc u List.mem_cons_self), Mem.writeAll_cons]

/-- `f` reads and writes words in `P` only: in every memory of the same name that agrees with `m` on `P` it makes the
same writes, all of them in `P`. -/
def Mem.ActsOn (P : Nat → Prop) (f : Mem → Mem) : Prop :=
  ∀ m : Mem, ∃ ws : List WordCell, (∀ c ∈ ws, P c.1) ∧
    ∀ x : Mem, x.space = m.space → (∀ a, P a → x.read a = m.read a) → f x = x.writeAll ws

/-- Two rewritings of disjoint sets of words may be done in either order. -/
theorem Mem.ActsOn.comm {P Q : Nat → Prop} {f g : Mem → Mem} (hf : Mem.ActsOn P f) (hg : Mem.ActsOn Q g)
    (hdisj : ∀ a, P a → ¬ Q a) (m : Mem) : f (g m) = g (f m) := by
  obtain ⟨ws, hws, hfm⟩ := hf m
  obtain ⟨us, hus, hgm⟩ := hg m
  have hfx := hfm m rfl fun _ _ => rfl
  have hgx := hgm m rfl fun _ _ => rfl
  have htf := Mem.writeAll_touches hws m
  have htg := Mem.writeAll_touches hus m
  calc f (g m) = (m.writeAll us).writeAll ws := by
        rw [hgx, hfm _ htg.space fun a ha => htg.other a (hdisj a ha)]
    _ = (m.writeAll ws).writeAll us :=
        Mem.writeAll_comm (fun c hc u hu he => hdisj c.1 (hws c hc) (he ▸ hus u hu)) m
    _ = g (f m) := by rw [hfx, hgm _ htf.space fun a ha => htf.other a fun hp => hdisj a hp ha]

/-! ### Butterflies of different samples -/

/-- Word `a` belongs to complex sample `i` or `j` (R153). -/
def inSamples (i j a : Nat) : Prop := a / 2 = i ∨ a / 2 = j

/-- A butterfly reads and writes its own two samples only (R158). -/
theorem butterfly_actsOn (d i j : Nat) (w : Twiddle) : Mem.ActsOn (inSamples i j) (butterfly d i j w) := by
  have hi : inSamples i j (2 * i) := .inl (by omega)
  have hi' : inSamples i j (2 * i + 1) := .inl (by omega)
  have hj : inSamples i j (2 * j) := .inr (by omega)
  have hj' : inSamples i j (2 * j + 1) := .inr (by omega)
  intro m
  refine ⟨[(2 * j, ?_), (2 * j + 1, ?_), (2 * i, ?_), (2 * i + 1, ?_)], ?words, fun x hspace hread => ?same⟩
  case same =>
    simp only [butterfly, Mem.store, Mem.storeBits, Mem.write_space, Mem.load, hspace, hread _ hi, hread _ hi',
      hread _ hj, hread _ hj']
    rfl
  case words => simp only [List.forall_mem_cons, hi, hi', hj, hj', List.not_mem_nil, false_imp_iff, implies_true, and_self]

/-- Butterflies of four different samples may be done in either order. -/
theorem butterfly_comm {d i j i' j' : Nat} (hii : i ≠ i') (hij : i ≠ j') (hji : j ≠ i') (hjj : j ≠ j') (w w' : Twiddle)
    (m : Mem) : butterfly d i j w (butterfly d i' j' w' m) = butterfly d i' j' w' (butterfly d i j w m) := by
  refine Mem.ActsOn.comm (butterfly_actsOn d i j w) (butterfly_actsOn d i' j' w') (fun a ha ha' => ?_) m
  unfold inSamples at ha ha'
  omega

/-! ### The butterflies of a stage -/

/-- Butterfly `p.1` of block `p.2` in stage `s`, with the twiddle of its index (R157). -/
def stageButterfly (d s : Nat) (dir : Direction) (x : Mem) (p : Nat × Nat) : Mem :=
  butterfly d (p.2 * (2 * 2 ^ (s - 1)) + p.1) (p.2 * (2 * 2 ^ (s - 1)) + p.1 + 2 ^ (s - 1)) (stageTwiddle s dir p.1) x

theorem seed_eq_romSeed (s : Nat) (dir : Direction) : seed s dir = romSeed s dir := by
  cases dir <;> rfl

/-- A stage is its butterflies, index by index, each index with its own twiddle (R157). -/
theorem stage_eq_loop (d s n : Nat) (dir : Direction) (m : Mem) :
    stage d s n dir m = loop (2 ^ (s - 1)) (fun mi x => stageIndex d s n mi (stageTwiddle s dir mi) x) m := by
  rw [stage, seed_eq_romSeed]
  exact congrArg Prod.fst
    (loop_iterate (2 ^ (s - 1)) (stageIndex d s n) (fun w => wstep w (romSeed s dir)) m stageStart)

/-- A stage is the fold of its butterflies over all pairs of an index and a block. -/
theorem stage_eq_foldl (d s n : Nat) (dir : Direction) (m : Mem) :
    stage d s n dir m = ((List.range (2 ^ (s - 1))).product (List.range (2 ^ n / (2 * 2 ^ (s - 1))))).foldl
      (stageButterfly d s dir) m := by
  rw [stage_eq_loop, loop_eq_foldl, List.product, List.foldl_flatMap]
  simp only [stageIndex, loop_eq_foldl, List.foldl_map]
  rfl

/-- Samples of different blocks of `b` samples, or at different places in their blocks, are different. The place is counted
from `r`, the butterfly's index. -/
theorem sample_ne {b g g' r r' a a' : Nat} (hr : r + a < b) (hr' : r' + a' < b) (h : g = g' → r + a ≠ r' + a') :
    g * b + r + a ≠ g' * b + r' + a' := by
  intro he
  have hb : 0 < b := Nat.zero_lt_of_lt hr
  obtain ⟨hdiv, hmod⟩ := (Nat.div_mod_unique hb).2 ⟨show r + a + b * g = g * b + r + a by ring, hr⟩
  obtain ⟨hdiv', hmod'⟩ := (Nat.div_mod_unique hb).2 ⟨show r' + a' + b * g' = g * b + r + a by rw [he]; ring, hr'⟩
  exact h (hdiv.symm.trans hdiv') (hmod.symm.trans hmod')

/-- Two butterflies of one stage may be done in either order: they are one, or their four samples differ (R69). -/
theorem stageButterfly_comm (d : Nat) {s : Nat} (dir : Direction) {p q : Nat × Nat} (hp : p.1 < 2 ^ (s - 1))
    (hq : q.1 < 2 ^ (s - 1)) (x : Mem) :
    stageButterfly d s dir (stageButterfly d s dir x p) q = stageButterfly d s dir (stageButterfly d s dir x q) p := by
  by_cases hpq : q = p
  · rw [hpq]
  · have hindex : q.2 = p.2 → q.1 ≠ p.1 := fun hblock he => hpq (Prod.ext he hblock)
    refine butterfly_comm (sample_ne (a := 0) (a' := 0) ?_ ?_ ?_) (sample_ne (a := 0) ?_ ?_ ?_)
      (sample_ne (a' := 0) ?_ ?_ ?_) (sample_ne ?_ ?_ ?_) _ _ x
    all_goals omega

/-- Settles O50: a fold of steps that commute in pairs depends on the steps, not on their order. -/
theorem butterfliesOfAStageCommute : Obligations.ButterfliesOfAStageCommute := by
  intro d s n dir m order hperm
  have hindex {p : Nat × Nat} (hp : p ∈ order) : p.1 < 2 ^ (s - 1) :=
    List.mem_range.1 (List.pair_mem_product.1 (hperm.mem_iff.1 hp)).1
  rw [stage_eq_foldl]
  exact hperm.foldl_eq' (fun p hp q hq x => stageButterfly_comm d dir (hindex hp) (hindex hq) x) m

end Sys2Proof.Machine
end

section
/-! PROOFS. The decoder and the encoder are inverse to each other (R91, R92, R95, R96). -/

namespace Sys2Proof.Machine

/-! ### A command's own word -/

/-- A transform's word gives back the direction and the length it was made of (R91, R95). -/
theorem transformInstr_commandWord (forward inverse : Nat → Instr) (o : BitVec 8) (d : Bool) {n : Nat} (h : n < 2 ^ 5) :
    transformInstr forward inverse (commandWord o d n) = if d then inverse n else forward n := by
  obtain ⟨-, -, hdir, hlogn⟩ := decode_commandWord o d n
  rw [transformInstr, hdir, hlogn, Nat.mod_eq_of_lt h]

theorem decode_commandWord_cfft (d : Bool) {n : Nat} (h : n < 32) :
    decode (commandWord 0x01 d n) = .ok (if d then .cfftI n else .cfftF n) := by
  obtain ⟨hdecode, hopc, -⟩ := decode_commandWord 0x01 d n
  rw [hdecode, decodeOpcode, hopc, ← transformInstr_commandWord .cfftF .cfftI 0x01 d h]
  rfl

theorem decode_commandWord_rfft (d : Bool) {n : Nat} (h : n < 32) :
    decode (commandWord 0x02 d n) = .ok (if d then .rfftI n else .rfftF n) := by
  obtain ⟨hdecode, hopc, -⟩ := decode_commandWord 0x02 d n
  rw [hdecode, decodeOpcode, hopc, ← transformInstr_commandWord .rfftF .rfftI 0x02 d h]
  rfl

/-- Settles O1: a transform by the fields of its word; every other command has one word. -/
theorem decodeReadsBackEveryCommand : Obligations.DecodeReadsBackEveryCommand := by
  intro i h
  cases i with
  | cfftF n => exact decode_commandWord_cfft false (of_decide_eq_true h)
  | cfftI n => exact decode_commandWord_cfft true (of_decide_eq_true h)
  | rfftF n => exact decode_commandWord_rfft false (of_decide_eq_true h)
  | rfftI n => exact decode_commandWord_rfft true (of_decide_eq_true h)
  | nop | cmul | conv | pack | xform | kcommit | kfreq => rfl

/-! ### A decoded word -/

/-- A word whose reserved bits are zero is put together from its other fields (R91). -/
theorem commandWord_fields {w : Word} (h1 : rsv1Field w = 0#15) (h0 : rsv0Field w = 0#3) :
    commandWord (opcField w) (dirField w) (lognField w).toNat = w := by
  have h1 : w.toNat / 2 ^ 9 % 2 ^ 15 = 0 := (rsv1Field_toNat w).symm.trans (congrArg BitVec.toNat h1)
  have h0 : w.toNat / 2 ^ 5 % 2 ^ 3 = 0 := (rsv0Field_toNat w).symm.trans (congrArg BitVec.toNat h0)
  apply BitVec.eq_of_toNat_eq
  rw [commandWord_toNat, opcField_toNat, dirField_toNat, lognField_toNat]
  omega

theorem transformInstr_cfft_encode (w : Word) :
    (transformInstr .cfftF .cfftI w).wellFormed = true ∧
      encode (transformInstr .cfftF .cfftI w) = commandWord 0x01 (dirField w) (lognField w).toNat := by
  have hlogn : lognFits (lognField w).toNat = true := decide_eq_true (lognField w).isLt
  unfold transformInstr
  cases dirField w <;> exact ⟨hlogn, rfl⟩

theorem transformInstr_rfft_encode (w : Word) :
    (transformInstr .rfftF .rfftI w).wellFormed = true ∧
      encode (transformInstr .rfftF .rfftI w) = commandWord 0x02 (dirField w) (lognField w).toNat := by
  have hlogn : lognFits (lognField w).toNat = true := decide_eq_true (lognField w).isLt
  unfold transformInstr
  cases dirField w <;> exact ⟨hlogn, rfl⟩

/-- What the opcode map makes of a word, by its OPC: a transform, a command that uses neither DIR nor LOGN, or none (R92). -/
theorem decodeOpcode_cases (w : Word) :
    (((opcField w).toNat = 1 ∨ (opcField w).toNat = 2) ∧ ∃ i : Instr, decodeOpcode w = .ok i ∧ i.wellFormed = true ∧
        encode i = commandWord (opcField w) (dirField w) (lognField w).toNat) ∨
      (((opcField w).toNat ≠ 1 ∧ (opcField w).toNat ≠ 2 ∧ (opcField w).toNat ≤ 8) ∧ ∃ i : Instr,
        decodeOpcode w = plainInstr i w ∧ i.wellFormed = true ∧ encode i = commandWord (opcField w) false 0) ∨
      (8 < (opcField w).toNat ∧ decodeOpcode w = .error .opcode) := by
  have hfield {o : BitVec 8} (h : (opcField w).toNat = o.toNat) : opcField w = o := BitVec.eq_of_toNat_eq h
  unfold decodeOpcode
  split
  case h_2 hopc =>
    exact .inl ⟨.inl hopc, _, rfl, hfield (o := 0x01) hopc ▸ transformInstr_cfft_encode w⟩
  case h_3 hopc =>
    exact .inl ⟨.inr hopc, _, rfl, hfield (o := 0x02) hopc ▸ transformInstr_rfft_encode w⟩
  case h_10 =>
    exact .inr (.inr ⟨by grind, rfl⟩)
  all_goals -- the seven opcodes of commands that use neither field
    next hopc =>
      exact .inr (.inl ⟨by omega, _, rfl, rfl, congrArg (commandWord · false 0) (BitVec.eq_of_toNat_eq hopc.symm)⟩)

/-- A command that uses neither DIR nor LOGN is read exactly when both are zero (R91, R96). -/
theorem plainInstr_eq_ok_iff {i j : Instr} {w : Word} :
    plainInstr i w = .ok j ↔ (dirField w = false ∧ lognField w = 0#5) ∧ i = j := by
  cases hd : dirField w <;> by_cases hl : lognField w = 0#5 <;> simp [plainInstr, hd, hl]

/-- A word decodes exactly when its reserved bits are zero and the opcode map reads it (R93 step 4). -/
theorem decode_eq_ok_iff {w : Word} {i : Instr} :
    decode w = .ok i ↔ (rsv1Field w = 0#15 ∧ rsv0Field w = 0#3) ∧ decodeOpcode w = .ok i := by
  by_cases h1 : rsv1Field w = 0#15 <;> by_cases h0 : rsv0Field w = 0#3 <;> simp [decode, h1, h0]

/-- Settles O2: the opcode map keeps OPC, DIR and LOGN, and the reserved bits of a decoded word are zero. -/
theorem decodedWordIsTheCommandsOwn : Obligations.DecodedWordIsTheCommandsOwn := by
  intro w i h
  obtain ⟨⟨h1, h0⟩, hi⟩ := decode_eq_ok_iff.1 h
  have hw := commandWord_fields h1 h0
  obtain ⟨-, j, hj, hwf, he⟩ | ⟨-, j, hj, hwf, he⟩ | ⟨-, hj⟩ := decodeOpcode_cases w
  · cases hj.symm.trans hi
    exact ⟨hwf, he.trans hw⟩
  · obtain ⟨⟨hdir, hlogn⟩, rfl⟩ := plainInstr_eq_ok_iff.1 (hj.symm.trans hi)
    rw [hdir, hlogn] at hw
    exact ⟨hwf, he.trans hw⟩
  · cases hj.symm.trans hi

/-- Settles O5: eleven closed words, evaluated. -/
theorem specWordsDecodeAsListed : Obligations.SpecWordsDecodeAsListed := by
  unfold Obligations.SpecWordsDecodeAsListed
  decide

end Sys2Proof.Machine
end

section
/-! PROOFS. The legal words, and what a write of a word to CMD does (R93, R96, R97). -/

namespace Sys2Proof.Machine

/-! ### The listed words -/

/-- The commands a word can express, in the order R97 lists their words. -/
def listedInstrs : List Instr :=
  [Instr.nop] ++ (List.range 32).map Instr.cfftF ++ (List.range 32).map Instr.cfftI ++ (List.range 32).map Instr.rfftF ++
    (List.range 32).map Instr.rfftI ++ [Instr.cmul, .conv, .pack, .xform, .kcommit, .kfreq]

theorem mem_listedInstrs {i : Instr} : i ∈ listedInstrs ↔ i.wellFormed = true := by
  cases i <;> simp [listedInstrs, Instr.wellFormed, lognFits]

theorem listedInstrs_nodup : listedInstrs.Nodup := by
  have hrun {f : Nat → Instr} (hf : f.Injective) : ((List.range 32).map f).Nodup := List.nodup_range.map hf
  simp [listedInstrs, List.nodup_append', List.disjoint_left, hrun (f := .cfftF) fun _ _ => Instr.cfftF.inj,
    hrun (f := .cfftI) fun _ _ => Instr.cfftI.inj, hrun (f := .rfftF) fun _ _ => Instr.rfftF.inj,
    hrun (f := .rfftI) fun _ _ => Instr.rfftI.inj]

/-- A command word as a sum: the word of length 0 (`a`, however it is written), and the length. -/
theorem commandWord_eq_add {o : BitVec 8} {d : Bool} {n : Nat} {a : Word} (h : n < 32) (ha : commandWord o d 0 = a) :
    commandWord o d n = a + BitVec.ofNat 32 n := by
  have ho := o.isLt
  have hd := d.toNat_lt
  apply BitVec.eq_of_toNat_eq
  rw [← ha, BitVec.toNat_add, commandWord_toNat, commandWord_toNat, BitVec.toNat_ofNat]
  omega

/-- The listed words are the listed commands' own (R97, R99). -/
theorem legalWords_eq : legalWords = listedInstrs.map encode := by
  have hrun {o : BitVec 8} {d : Bool} (a : Word) (ha : commandWord o d 0 = a) :
      (List.range 32).map (fun n => a + BitVec.ofNat 32 n) = (List.range 32).map (commandWord o d) :=
    List.map_congr_left fun n hn => (commandWord_eq_add (List.mem_range.1 hn) ha).symm
  rw [legalWords, hrun (o := 0x01) (d := false) 0x01000000#32 rfl, hrun (o := 0x01) (d := true) 0x01000100#32 rfl,
    hrun (o := 0x02) (d := false) 0x02000000#32 rfl, hrun (o := 0x02) (d := true) 0x02000100#32 rfl]
  simp only [listedInstrs, List.map_append, List.map_map]
  rfl

/-- Different commands have different words (R97). -/
theorem encode_injOn_listedInstrs {i j : Instr} (hi : i ∈ listedInstrs) (hj : j ∈ listedInstrs)
    (h : encode i = encode j) : i = j := by
  have hdecode := decodeReadsBackEveryCommand i (mem_listedInstrs.1 hi)
  rw [h, decodeReadsBackEveryCommand j (mem_listedInstrs.1 hj)] at hdecode
  exact (Except.ok.inj hdecode).symm

/-- A word decodes exactly when it is one of the listed (R97). -/
theorem exists_decode_iff_mem_legalWords (w : Word) : (∃ i, decode w = .ok i) ↔ w ∈ legalWords := by
  rw [legalWords_eq, List.mem_map]
  constructor
  · rintro ⟨i, hi⟩
    obtain ⟨hwf, he⟩ := decodedWordIsTheCommandsOwn w i hi
    exact ⟨i, mem_listedInstrs.2 hwf, he⟩
  · rintro ⟨i, hi, rfl⟩
    exact ⟨i, decodeReadsBackEveryCommand i (mem_listedInstrs.1 hi)⟩

/-- A length CFFT does not take (R253). -/
theorem runCfft_badLength {n : Nat} {s : State} (h : s.params.lognMax < n) (dir : Direction) (w : Word) :
    runCfft dir n w s = .next (s.withFault 2 w) :=
  if_pos h

/-- A length RFFT does not take (R253). -/
theorem runRfft_badLength {n : Nat} {s : State} (h : n = 0 ∨ s.params.lognMax < n) (dir : Direction) (w : Word) :
    runRfft dir n w s = .next (s.withFault 2 w) :=
  if_pos h

/-- Settles O3: the list is that of the commands' own words, and the info word of a bad length is one of them. -/
theorem legalWordsAreTheListed : Obligations.LegalWordsAreTheListed := by
  refine ⟨rfl, ?_, exists_decode_iff_mem_legalWords, fun n s hn => ?_⟩
  · rw [legalWords_eq]
    exact listedInstrs_nodup.map_on fun i hi j hj => encode_injOn_listedInstrs hi hj
  · have hinfo {o : BitVec 8} {d : Bool} {a : Word} (ha : commandWord o d 0 = a) :
        s.withFault 2 (commandWord o d n) = s.withFault 2 (a + BitVec.ofNat 32 n) :=
      congrArg (s.withFault 2) (commandWord_eq_add hn ha)
    constructor
    · intro h
      exact ⟨(runCfft_badLength h _ _).trans (congrArg Host.Outcome.next (hinfo rfl)),
        (runCfft_badLength h _ _).trans (congrArg Host.Outcome.next (hinfo rfl))⟩
    · intro h
      exact ⟨(runRfft_badLength h _ _).trans (congrArg Host.Outcome.next (hinfo rfl)),
        (runRfft_badLength h _ _).trans (congrArg Host.Outcome.next (hinfo rfl))⟩

/-! ### Illegal words -/

/-- R96's conditions, on the fields of the word (R91). -/
theorem illegalWord_iff (w : Word) :
    illegalWord w ↔ ¬ (rsv1Field w = 0#15 ∧ rsv0Field w = 0#3) ∨ 8 < (opcField w).toNat ∨
      ((opcField w).toNat ≠ 1 ∧ (opcField w).toNat ≠ 2 ∧ ¬ (dirField w = false ∧ lognField w = 0#5)) := by
  have hdir : dirField w = false ↔ w.toNat / 2 ^ 8 % 2 = 0 := by
    rw [← dirField_toNat, Bool.toNat_eq_zero]
  simp only [illegalWord, BitVec.toNat_eq, hdir, opcField_toNat, rsv1Field_toNat, rsv0Field_toNat, lognField_toNat,
    BitVec.toNat_ofNat, Nat.zero_mod]
  omega

/-- A word decodes exactly when it is not illegal (R96). -/
theorem exists_decode_iff_not_illegalWord (w : Word) : (∃ i, decode w = .ok i) ↔ ¬ illegalWord w := by
  simp only [decode_eq_ok_iff, exists_and_left, illegalWord_iff, not_or, not_not]
  refine and_congr_right fun _ => ?_
  obtain ⟨hopc, j, hj, -⟩ | ⟨⟨h1, h2, h8⟩, j, hj, -⟩ | ⟨hopc, hj⟩ := decodeOpcode_cases w
  · exact iff_of_true ⟨j, hj⟩ ⟨by omega, fun ⟨h1, h2, _⟩ => by omega⟩
  · simp [hj, plainInstr_eq_ok_iff, h1, h2, h8]
  · simp [hj, hopc]

/-! ### The issue of a command -/

/-- A write to CMD outside a running command is the issue of its word (R93). -/
theorem step_writeCmd {s : State} {w : Word} {rest : List HostAction} (h : s.host = .write (regAddr .cmd) w :: rest)
    (hb : s.busy = false) : step s = issue w { s with host := rest } := by
  rw [step_write h hb, hostWrite_regAddr]
  rfl

theorem issue_of_decode {s : State} {w : Word} {i : Instr} (he : s.err = false) (h : decode w = .ok i) :
    issue w s = exec i s.accept := by
  simp [issue, he, h]

theorem issue_of_illegalWord {s : State} {w : Word} (he : s.err = false) (h : illegalWord w) :
    issue w s = .next (s.withFault 1 w) := by
  cases hd : decode w with
  | ok i => exact absurd h ((exists_decode_iff_not_illegalWord w).1 ⟨i, hd⟩)
  | error e =>
    simp only [issue, he, hd]
    rfl

/-- Settles O4: the illegal words are those that do not decode, and they fault at issue. -/
theorem illegalWordFaultsAndChangesNothingElse : Obligations.IllegalWordFaultsAndChangesNothingElse := by
  constructor
  · intro s w rest h hb he hw
    rw [step_writeCmd h hb]
    exact issue_of_illegalWord he hw
  · intro w
    rw [exists_decode_iff_not_illegalWord]
    exact Classical.em (illegalWord w)

/-- An issued word that is not ignored ends with BUSY low: it faults, or its command ends (R93 step 6, R96). -/
theorem issue_ends_not_busy {s : State} (he : s.err = false) (w : Word) : ∃ t, issue w s = .next t ∧ t.busy = false := by
  by_cases hw : illegalWord w
  · exact ⟨_, issue_of_illegalWord he hw, rfl⟩
  · obtain ⟨i, hi⟩ := (exists_decode_iff_not_illegalWord w).2 hw
    rw [issue_of_decode he hi]
    exact everyCommandEnds i s.accept

/-- Settles O6: R93 step by step, BUSY, ERR, the decoder and the command. -/
theorem stepRunsTheDecodedCommand : Obligations.StepRunsTheDecodedCommand := by
  intro s w rest h
  refine ⟨fun hb => (step_cons h).trans (if_pos hb), fun hb he => (step_writeCmd h hb).trans (if_pos he), fun hb he => ?_⟩
  rw [step_writeCmd h hb]
  exact ⟨issue_of_illegalWord he, (exists_decode_iff_not_illegalWord w).2, fun i => issue_of_decode he,
    issue_ends_not_busy (s := { s with host := rest }) he w⟩

end Sys2Proof.Machine
end

section
/-! PROOFS. Rounding to nearest, ties to even, in both formats, and the primitives that end in it (R121 to R126). -/

namespace Sys2Proof.Machine

/-! ### The rounded quotient among the multiples of the last place -/

/-- Two multiples of a place are at least a place apart. -/
theorem mul_pow_add_pow_le {a b : Nat} (h : a < b) (t : Nat) : a * 2 ^ t + 2 ^ t ≤ b * 2 ^ t := by
  rw [← Nat.succ_mul]
  exact Nat.mul_le_mul_right _ h

/-- A multiple of the place that is at most the number is at most its rounding. -/
theorem le_divRoundEven {c k t : Nat} (h : c * 2 ^ t ≤ k) : c ≤ divRoundEven k t := by
  obtain ⟨-, hge, -⟩ := divRoundEven_spec k t
  by_contra hc
  have hq := mul_pow_add_pow_le (Nat.lt_of_not_le hc) t
  rw [mul_comm (divRoundEven k t)] at hq
  have := Nat.two_pow_pos t
  omega

/-- No multiple of the place is nearer than the rounded quotient; where another is as near, the quotient is even. -/
theorem divRoundEven_nearest_multiple (k t c : Nat) :
    gap k (divRoundEven k t * 2 ^ t) ≤ gap k (c * 2 ^ t) ∧
      (c ≠ divRoundEven k t → gap k (c * 2 ^ t) = gap k (divRoundEven k t * 2 ^ t) → divRoundEven k t % 2 = 0) := by
  obtain ⟨hle, hge, htie⟩ := divRoundEven_spec k t
  rw [mul_comm (2 ^ t)] at hle hge htie
  generalize divRoundEven k t = q at *
  rcases eq_or_ne c q with rfl | hne
  · exact ⟨le_rfl, fun h => absurd rfl h⟩
  · have hapart : c * 2 ^ t + 2 ^ t ≤ q * 2 ^ t ∨ q * 2 ^ t + 2 ^ t ≤ c * 2 ^ t :=
      (Nat.lt_or_gt_of_ne hne).imp (mul_pow_add_pow_le · t) (mul_pow_add_pow_le · t)
    unfold gap
    exact ⟨by omega, fun _ _ => htie (by omega)⟩

/-- A finite magnitude is a multiple of the last place kept, or lies below a multiple of it that is at most the number:
below the binade of the number the format is finer. -/
theorem finiteIn_multiple_or_below (f : Format) {k sh r : Nat} (hp : 1 ≤ f.prec) (h : finiteIn f.prec f.least f.limit r) :
    (∃ c, r * 2 ^ sh = c * 2 ^ lastPlace f k sh) ∨
      ∃ c, r * 2 ^ sh < c * 2 ^ lastPlace f k sh ∧ c * 2 ^ lastPlace f k sh ≤ k := by
  obtain ⟨m, e, hm, rfl, -⟩ := h
  obtain ⟨hle, -, hlow⟩ := lastPlace_bounds f k sh hp
  have hpow : m * 2 ^ (f.least + e) * 2 ^ sh = m * 2 ^ (sh + f.least + e) := by
    rw [mul_assoc, ← pow_add]
    congr 2
    omega
  rw [hpow]
  generalize lastPlace f k sh = t at *
  rcases Nat.lt_or_ge (sh + f.least + e) t with ht | ht
  · refine .inr ⟨2 ^ (f.prec - 1), ?_, hlow (by omega)⟩
    calc m * 2 ^ (sh + f.least + e) < 2 ^ f.prec * 2 ^ (sh + f.least + e) :=
          Nat.mul_lt_mul_of_pos_right hm (Nat.two_pow_pos _)
      _ ≤ 2 ^ (f.prec - 1) * 2 ^ t := by
          rw [← pow_add, ← pow_add]
          exact Nat.pow_le_pow_right (by omega) (by omega)
  · refine .inl ⟨m * 2 ^ (sh + f.least + e - t), ?_⟩
    rw [mul_assoc, ← pow_add, Nat.sub_add_cancel ht]

/-- No finite magnitude is nearer to the number than its rounding; where another is as near, the rounded significand is
even (R122). -/
theorem divRoundEven_nearest_finite (f : Format) {k sh r : Nat} (hp : 1 ≤ f.prec)
    (h : finiteIn f.prec f.least f.limit r) :
    gap k (divRoundEven k (lastPlace f k sh) * 2 ^ lastPlace f k sh) ≤ gap k (r * 2 ^ sh) ∧
      (r * 2 ^ sh ≠ divRoundEven k (lastPlace f k sh) * 2 ^ lastPlace f k sh →
        gap k (r * 2 ^ sh) = gap k (divRoundEven k (lastPlace f k sh) * 2 ^ lastPlace f k sh) →
        divRoundEven k (lastPlace f k sh) % 2 = 0) := by
  obtain ⟨c, hc⟩ | ⟨c, hlt, hle⟩ := finiteIn_multiple_or_below f (k := k) (sh := sh) hp h
  · obtain ⟨hnear, htie⟩ := divRoundEven_nearest_multiple k (lastPlace f k sh) c
    rw [hc]
    exact ⟨hnear, fun hne => htie fun heq => hne (by rw [heq])⟩
  · obtain ⟨hnear, -⟩ := divRoundEven_nearest_multiple k (lastPlace f k sh) c
    have hcloser : gap k (c * 2 ^ lastPlace f k sh) < gap k (r * 2 ^ sh) := by
      unfold gap
      omega
    exact ⟨by omega, fun _ heq => by omega⟩

/-! ### Overflow -/

/-- The rounded quotient with its place is the rounded magnitude in the parts the number is counted in. -/
theorem rounded_mul_pow (f : Format) (k sh : Nat) :
    divRoundEven k (lastPlace f k sh) * 2 ^ (lastPlace f k sh - sh) * 2 ^ sh =
      divRoundEven k (lastPlace f k sh) * 2 ^ lastPlace f k sh := by
  have hle : sh ≤ lastPlace f k sh := le_trans (Nat.le_add_right sh f.least) (le_max_right _ _)
  rw [mul_assoc, ← pow_add, Nat.sub_add_cancel hle]

/-- A quotient rounded at place `T` has at most `p` bits exactly below `2 ^ p` places less half a one: there the tie goes up to
the even `2 ^ p`. -/
theorem divRoundEven_lt_pow_iff (k T : Nat) {p : Nat} (hp : 1 ≤ p) :
    divRoundEven k T < 2 ^ p ↔ 2 * k + 2 ^ T < 2 * (2 ^ p * 2 ^ T) := by
  obtain ⟨hle, hge, htie⟩ := divRoundEven_spec k T
  have heven : 2 ^ p % 2 = 0 := Nat.two_pow_mod_two_eq_zero.2 hp
  rw [mul_comm (2 ^ T)] at hle hge htie
  generalize divRoundEven k T = q at *
  have hpos := Nat.two_pow_pos T
  constructor
  · intro hq
    have h := mul_pow_add_pow_le hq T
    by_contra hc
    have hodd := htie (by omega)
    have heq : (q + 1) * 2 ^ T = 2 ^ p * 2 ^ T := by rw [Nat.succ_mul]; omega
    have := Nat.eq_of_mul_eq_mul_right hpos heq
    omega
  · intro hk
    by_contra hc
    have h := Nat.mul_le_mul_right (2 ^ T) (Nat.le_of_not_lt hc)
    omega

/-- The same for a quotient rounded at the last place kept, whichever it is: below `T` both sides hold, above `T` neither. -/
theorem rounded_lt_pow_iff (f : Format) (k sh : Nat) {T : Nat} (hp : 1 ≤ f.prec) (hT : sh + f.least ≤ T) :
    divRoundEven k (lastPlace f k sh) * 2 ^ lastPlace f k sh < 2 ^ f.prec * 2 ^ T ↔
      2 * k + 2 ^ T < 2 * (2 ^ f.prec * 2 ^ T) := by
  obtain ⟨-, hk, hlow⟩ := lastPlace_bounds f k sh hp
  have hq := Nat.mul_le_mul_right (2 ^ lastPlace f k sh) (divRoundEven_le f k sh hp)
  have hone := Nat.le_mul_of_pos_left (2 ^ T) (Nat.two_pow_pos f.prec)
  rcases Nat.lt_trichotomy (lastPlace f k sh) T with ht | ht | ht
  · have h2 : 2 * (2 ^ f.prec * 2 ^ lastPlace f k sh) ≤ 2 ^ f.prec * 2 ^ T := by
      rw [mul_left_comm, ← pow_succ']
      exact Nat.mul_le_mul_left _ (Nat.pow_le_pow_right (by omega) ht)
    have hpos : 0 < 2 ^ f.prec * 2 ^ T := by positivity
    exact iff_of_true (by omega) (by omega)
  · rw [ht, Nat.mul_lt_mul_right (Nat.two_pow_pos T)]
    exact divRoundEven_lt_pow_iff k T hp
  · have hbig := hlow (by omega)
    have h2 : 2 ^ f.prec * 2 ^ T ≤ 2 ^ (f.prec - 1) * 2 ^ lastPlace f k sh := by
      rw [← pow_add, ← pow_add]
      exact Nat.pow_le_pow_right (by omega) (by omega)
    have h := Nat.mul_le_mul_right (2 ^ lastPlace f k sh) (le_divRoundEven hbig)
    have := Nat.two_pow_pos T
    exact iff_of_false (by omega) (by omega)

/-- Rounding overflows exactly from half a place past the largest finite value on (R122). -/
theorem rounded_lt_limit_iff (f : Format) (k sh : Nat) (hp : 1 ≤ f.prec) (hl : f.least + f.prec < f.limit) :
    divRoundEven k (lastPlace f k sh) * 2 ^ (lastPlace f k sh - sh) < 2 ^ f.limit ↔
      k < (2 ^ f.limit - 2 ^ (f.limit - f.prec - 1)) * 2 ^ sh := by
  have hT : 2 ^ f.limit * 2 ^ sh = 2 ^ f.prec * 2 ^ (f.limit - f.prec + sh) := by
    rw [← pow_add, ← pow_add]
    congr 1
    omega
  have hhalf : 2 * (2 ^ (f.limit - f.prec - 1) * 2 ^ sh) = 2 ^ (f.limit - f.prec + sh) := by
    rw [← pow_add, ← pow_succ']
    congr 1
    omega
  rw [← Nat.mul_lt_mul_right (Nat.two_pow_pos sh), rounded_mul_pow, hT, rounded_lt_pow_iff f k sh hp (by omega),
    Nat.sub_mul, hT]
  omega

/-! ### Rounding is to nearest, ties to even -/

/-- The last place kept is some `e` places above the format's least one; when above it, the rounded significand has its
highest bit set. -/
theorem lastPlace_sub (f : Format) (k sh : Nat) (hp : 1 ≤ f.prec) :
    ∃ e, lastPlace f k sh - sh = f.least + e ∧ (0 < e → 2 ^ (f.prec - 1) ≤ divRoundEven k (lastPlace f k sh)) := by
  obtain ⟨hle, -, hlow⟩ := lastPlace_bounds f k sh hp
  exact ⟨lastPlace f k sh - (sh + f.least), by omega, fun he => le_divRoundEven (hlow (by omega))⟩

/-- Rounding to a format is to nearest, ties to even, when `lastBit` is 0 on the finite values with an even significand: one
of at most `prec` bits or the next power of two, with its highest bit set unless it counts least values (R122). -/
theorem roundTo_nearestEven (f : Format) (lastBit : Fp → Bool) (hp : 1 ≤ f.prec) (hl : f.least + f.prec < f.limit)
    (hbit : ∀ (neg : Bool) (q e : Nat), q % 2 = 0 → q ≤ 2 ^ f.prec → (0 < e → 2 ^ (f.prec - 1) ≤ q) →
      lastBit (.fin neg (q * 2 ^ (f.least + e))) = false)
    (neg : Bool) (k sh : Nat) : nearestEven f.prec f.least f.limit lastBit neg k sh (roundTo f neg k sh) := by
  have hlim := rounded_lt_limit_iff f k sh hp hl
  have hparts := rounded_mul_pow f k sh
  have hq := divRoundEven_le f k sh hp
  obtain ⟨e, he, hnormal⟩ := lastPlace_sub f k sh hp
  rw [roundTo_eq]
  rw [he] at hlim hparts ⊢
  constructor
  · intro hk
    rw [if_pos (hlim.2 hk)]
    refine ⟨_, rfl, finiteIn_of_le hp hq (hlim.2 hk), fun r' hr' => ?_⟩
    obtain ⟨hnear, htie⟩ := divRoundEven_nearest_finite f (k := k) (sh := sh) hp hr'
    rw [← hparts] at hnear htie
    exact ⟨hnear, fun hne heq =>
      hbit neg _ e (htie (fun h => hne (Nat.eq_of_mul_eq_mul_right (Nat.two_pow_pos sh) h)) heq) hq hnormal⟩
  · intro hk
    rw [if_neg (fun h => Nat.not_lt.2 hk (hlim.1 h))]

/-! ### The last bit of an encoding -/

/-- An even significand of at most `p + 1` bits, or the next power of two, stays even when it is normalised. -/
theorem significand_even {p q e : Nat} (hp : 1 ≤ p) (heven : q % 2 = 0) (hq : q ≤ 2 ^ (p + 1)) (hnormal : 0 < e → 2 ^ p ≤ q) :
    q * 2 ^ e / 2 ^ (topBit (q * 2 ^ e) - p) % 2 = 0 := by
  rcases Nat.lt_or_eq_of_le hq with hlt | rfl
  · rcases Nat.eq_zero_or_pos q with rfl | hpos
    · simp
    have htop : topBit (q * 2 ^ e) - p = e := by
      have hle := topBit_lt_of_lt_pow hpos hlt
      rw [mul_comm, topBit_mul_pow e hpos]
      rcases Nat.eq_zero_or_pos e with rfl | he
      · omega
      · have := le_topBit_of_pow_le (hnormal he)
        omega
    rw [htop, Nat.mul_div_cancel _ (Nat.two_pow_pos e), heven]
  · have htop : topBit (2 ^ (p + 1) * 2 ^ e) = p + (e + 1) := by
      rw [← pow_add]
      exact topBit_unique (Nat.pow_le_pow_right (by omega) (by omega)) (Nat.pow_lt_pow_right (by omega) (by omega))
    rw [htop, Nat.add_sub_cancel_left, ← pow_add, show p + 1 + e = p + (e + 1) by omega, pow_add,
      Nat.mul_div_cancel _ (Nat.two_pow_pos _)]
    exact Nat.two_pow_mod_two_eq_zero.2 hp

/-- Bit 0 of a word put together from its fields is bit 0 of the fraction. -/
theorem getLsbD_zero_fields {a b c : Nat} (x : BitVec a) (y : BitVec b) (n : Nat) (hc : 0 < c) :
    (x ++ y ++ BitVec.ofNat c n).getLsbD 0 = decide (n % 2 = 1) := by
  rw [BitVec.getLsbD_append, if_pos hc, BitVec.getLsbD_ofNat, decide_eq_true hc, Bool.true_and, Nat.testBit_zero]

/-- Below the highest `p + 1` bits there is nothing to drop. -/
theorem div_pow_topBit_sub_of_lt {p u : Nat} (h : u < 2 ^ p) : u / 2 ^ (topBit u - p) = u := by
  rcases Nat.eq_zero_or_pos u with rfl | hpos
  · simp
  · rw [Nat.sub_eq_zero_of_le (topBit_lt_of_lt_pow hpos h).le, pow_zero, Nat.div_one]

/-- The last bit of a finite binary32 encoding is the last of the 24 significant bits (R120). -/
theorem encode32_lastBit (q : Word) (neg : Bool) (u : Nat) :
    (encode32 q (.fin neg (u * 2 ^ 925))).getLsbD 0 = decide (u / 2 ^ (topBit u - 23) % 2 = 1) := by
  rw [encode32_units]
  split
  · next h => rw [getLsbD_zero_fields _ _ _ (by decide), div_pow_topBit_sub_of_lt h]
  · rw [getLsbD_zero_fields _ _ _ (by decide)]

/-- The encoding of a finite binary64 datum: subnormal below 2^52 units, normal from there on (R120). -/
theorem encode64_fin (q : DWord) (neg : Bool) (u : Nat) :
    encode64 q (.fin neg u) =
      if u < 2 ^ 52 then BitVec.ofBool neg ++ 0#11 ++ BitVec.ofNat 52 u
      else BitVec.ofBool neg ++ BitVec.ofNat 11 (topBit u - 51) ++ BitVec.ofNat 52 (u / 2 ^ (topBit u - 52)) := by
  simp only [encode64, Nat.sub_sub]

/-- The last bit of a finite binary64 encoding is the last of the 53 significant bits (R120). -/
theorem encode64_lastBit (q : DWord) (neg : Bool) (u : Nat) :
    (encode64 q (.fin neg u)).getLsbD 0 = decide (u / 2 ^ (topBit u - 52) % 2 = 1) := by
  rw [encode64_fin]
  split
  · next h => rw [getLsbD_zero_fields _ _ _ (by decide), div_pow_topBit_sub_of_lt h]
  · rw [getLsbD_zero_fields _ _ _ (by decide)]

theorem roundTo_nearest32 (neg : Bool) (k sh : Nat) : nearest32 neg k sh (roundTo binary32 neg k sh) := by
  refine roundTo_nearestEven binary32 _ (by decide) (by decide) (fun n q e heven hq hnormal => ?_) neg k sh
  have hunits : q * 2 ^ (binary32.least + e) = q * 2 ^ e * 2 ^ 925 := by
    rw [mul_assoc, ← pow_add, add_comm e]
    rfl
  rw [hunits, encode32_lastBit, significand_even (by decide) heven hq hnormal]
  rfl

theorem roundTo_nearest64 (neg : Bool) (k sh : Nat) : nearest64 neg k sh (roundTo binary64 neg k sh) := by
  refine roundTo_nearestEven binary64 _ (by decide) (by decide) (fun n q e heven hq hnormal => ?_) neg k sh
  have hunits : q * 2 ^ (binary64.least + e) = q * 2 ^ e := by
    rw [show binary64.least = 0 from rfl, Nat.zero_add]
  rw [hunits, encode64_lastBit, significand_even (by decide) heven hq hnormal]
  rfl

/-- Settles O44: the rounding each primitive ends in, in both formats, with `round32` as its case of whole units. -/
theorem roundingIsToNearestEven : Obligations.RoundingIsToNearestEven :=
  ⟨fun neg k => ⟨roundTo_nearest32 neg k 0, roundTo_zero binary32 neg 0, rfl, rfl⟩,
    fun neg k sh => ⟨roundTo_nearest32 neg k sh, roundTo_nearest64 neg k sh⟩⟩

/-! ### Sum, difference and product -/

@[simp] theorem signed_false (n : Nat) : signed false n = n := rfl
@[simp] theorem signed_true (n : Nat) : signed true n = -n := rfl

/-- An integer that is not 0 has one sign and one magnitude, those it is written with. -/
theorem signed_sign_natAbs {a : Bool} {n : Nat} (h : signed a n ≠ 0) :
    decide (signed a n < 0) = a ∧ (signed a n).natAbs = n := by
  cases a with
  | false =>
    rw [signed_false]
    exact ⟨decide_eq_false (by omega), Int.natAbs_natCast n⟩
  | true =>
    rw [signed_true] at h ⊢
    exact ⟨decide_eq_true (by omega), by omega⟩

theorem signed_add_same (a : Bool) (j k : Nat) : signed a j + signed a k = signed a (j + k) := by
  cases a with
  | false => simp
  | true =>
    simp only [signed_true]
    omega

theorem signed_add_opposite (a : Bool) {j k : Nat} (h : k ≤ j) : signed a j + signed (!a) k = signed a (j - k) := by
  cases a with
  | false =>
    simp only [Bool.not_false, signed_true, signed_false]
    omega
  | true =>
    simp only [Bool.not_true, signed_true, signed_false]
    omega

/-- The sum of two finite data whose exact sum is not 0 has one rounding, that of the exact sum (R123, R125). -/
theorem add_fin_eq_roundTo (f : Format) {a b : Bool} {j k : Nat} (h : signed a j + signed b k ≠ 0) :
    ∃ c n, signed a j + signed b k = signed c n ∧ Fp.add f (.fin a j) (.fin b k) = roundTo f c n 0 := by
  by_cases hab : a = b
  · subst hab
    exact ⟨a, j + k, signed_add_same a j k, if_pos rfl⟩
  · obtain rfl : b = !a := Bool.eq_not.2 (Ne.symm hab)
    rw [Fp.add, if_neg hab]
    rcases Nat.lt_trichotomy j k with hjk | rfl | hjk
    · rw [if_neg (by omega), if_neg (by omega)]
      have hsum := signed_add_opposite (!a) hjk.le
      rw [Bool.not_not, Int.add_comm] at hsum
      exact ⟨!a, k - j, hsum, rfl⟩
    · rw [signed_add_opposite a le_rfl, Nat.sub_self] at h
      cases a <;> exact absurd rfl h
    · rw [if_neg (by omega), if_pos hjk]
      exact ⟨a, j - k, signed_add_opposite a hjk.le, rfl⟩

/-- An exact zero sum of operands of opposite sign is +0 (R123). -/
theorem add_fin_opposite (f : Format) (a : Bool) (k : Nat) : Fp.add f (.fin a k) (.fin (!a) k) = .fin false 0 := by
  rw [Fp.add, if_neg (Bool.eq_not_self a).mp, if_pos rfl]

theorem Fp.add_comm (f : Format) (x y : Fp) : Fp.add f x y = Fp.add f y x := by
  cases x with
  | nan => cases y <;> rfl
  | inf a =>
    cases y with
    | nan => rfl
    | fin b k => rfl
    | inf b =>
      by_cases h : a = b
      · rw [h]
      · rw [Fp.add, Fp.add, if_neg h, if_neg (Ne.symm h)]
  | fin a j =>
    cases y with
    | nan => rfl
    | inf b => rfl
    | fin b k =>
      by_cases h : a = b
      · rw [h, Fp.add, Fp.add, if_pos rfl, if_pos rfl, Nat.add_comm]
      · rw [Fp.add, Fp.add, if_neg h, if_neg (Ne.symm h)]
        rcases Nat.lt_trichotomy j k with hjk | hjk | hjk
        · rw [if_neg (by omega), if_neg (by omega), if_neg (by omega), if_pos hjk]
        · rw [if_pos hjk, if_pos hjk.symm]
        · rw [if_neg (by omega), if_pos hjk, if_neg (by omega), if_neg (by omega)]

theorem Fp.mul_comm (f : Format) (x y : Fp) : Fp.mul f x y = Fp.mul f y x := by
  cases x <;> cases y <;> simp only [Fp.mul, Bool.xor_comm, Nat.mul_comm]

/-- The arithmetic of a format is IEEE 754's when its rounding is (R123, R124, R125). -/
theorem ieeeArithmetic_of_roundTo {f : Format} {nearest : Bool → Nat → Nat → Fp → Prop}
    (h : ∀ neg k sh, nearest neg k sh (roundTo f neg k sh)) :
    ieeeArithmetic nearest (Fp.add f) (fun a b => Fp.add f a b.neg) (Fp.mul f) Fp.neg := by
  refine ⟨fun a b j k hne => ?_, fun a b j k => h _ _ _, fun a k => ⟨add_fin_opposite f a k, add_fin_opposite f a k, ?_⟩,
    fun a b => ⟨rfl, Fp.add_comm f a b, Fp.mul_comm f a b⟩, fun a k => ⟨rfl, rfl, rfl⟩,
    fun a b k => ⟨rfl, if_pos rfl, if_neg (Bool.eq_not_self a).mp, rfl, rfl, fun hk => if_neg hk⟩, fun a => ⟨rfl, rfl⟩⟩
  · obtain ⟨c, n, hsum, hadd⟩ := add_fin_eq_roundTo f hne
    rw [hsum] at hne ⊢
    obtain ⟨hsign, habs⟩ := signed_sign_natAbs hne
    rw [hsign, habs, hadd]
    exact h c n 0
  · rw [Fp.add, if_pos rfl, Nat.add_zero, roundTo_zero]

/-- Settles O45: both formats round to nearest, ties to even, so their arithmetic is IEEE 754's. -/
theorem arithmeticRoundsTheExactResultOnce : Obligations.ArithmeticRoundsTheExactResultOnce :=
  ⟨ieeeArithmetic_of_roundTo roundTo_nearest32, ieeeArithmetic_of_roundTo roundTo_nearest64⟩

/-! ### Finite data are not changed -/

/-- The last place kept divides a finite magnitude of the format. -/
theorem pow_lastPlace_dvd (f : Format) {k : Nat} (h : finiteIn f.prec f.least f.limit k) : 2 ^ lastPlace f k 0 ∣ k := by
  obtain ⟨m, e, hm, rfl, -⟩ := h
  rcases Nat.eq_zero_or_pos m with rfl | hpos
  · simp
  · have hle : lastPlace f (m * 2 ^ (f.least + e)) 0 ≤ f.least + e := by
      have htop := topBit_lt_of_lt_pow hpos hm
      rw [lastPlace, mul_comm, topBit_mul_pow _ hpos]
      omega
    exact (pow_dvd_pow 2 hle).trans (Nat.dvd_mul_left _ _)

/-- Rounding does not change a finite datum of its format (R122). -/
theorem roundTo_of_finiteIn (f : Format) (neg : Bool) {k : Nat} (h : finiteIn f.prec f.least f.limit k) :
    roundTo f neg k 0 = .fin neg k := by
  have hexact : divRoundEven k (lastPlace f k 0) * 2 ^ (lastPlace f k 0 - 0) = k := by
    have hdvd := pow_lastPlace_dvd f h
    generalize lastPlace f k 0 = t at *
    obtain ⟨q, rfl⟩ := hdvd
    rw [divRoundEven_exact, Nat.sub_zero, mul_comm]
  obtain ⟨-, -, -, -, hlt⟩ := h
  rw [roundTo_eq, hexact, if_pos hlt]

/-- A short enough significand with an exponent within the format is a finite magnitude. -/
theorem finiteIn_mul_pow {prec least limit m x : Nat} (hm : m < 2 ^ prec) (hx : least ≤ x) (hlim : prec + x ≤ limit) :
    finiteIn prec least limit (m * 2 ^ x) := by
  refine ⟨m, x - least, hm, by rw [Nat.add_sub_cancel' hx], ?_⟩
  calc m * 2 ^ x < 2 ^ prec * 2 ^ x := Nat.mul_lt_mul_of_pos_right hm (Nat.two_pow_pos x)
    _ = 2 ^ (prec + x) := (pow_add 2 prec x).symm
    _ ≤ 2 ^ limit := Nat.pow_le_pow_right (by omega) hlim

/-- A binary32 word that is neither an infinity nor a NaN is a finite binary32 magnitude (R120). -/
theorem finite32_of_decode32 {w : Word} {neg : Bool} {k : Nat} (h : decode32 w = .fin neg k) : finite32 k := by
  obtain ⟨s, e, f, rfl⟩ := exists_fields32 w
  have he := e.isLt
  have hf := f.isLt
  rw [decode32_fields] at h
  split at h
  · split at h <;> exact Fp.noConfusion h
  · split at h
    · obtain ⟨-, rfl⟩ := Fp.fin.inj h
      exact finiteIn_mul_pow (by omega) (by omega) (by omega)
    · obtain ⟨-, rfl⟩ := Fp.fin.inj h
      exact finiteIn_mul_pow (by omega) (by omega) (by omega)

/-! ### Widening -/

/-- A wider format has every finite magnitude of a narrower one. -/
theorem finiteIn_mono {prec prec' least least' limit limit' r : Nat} (hp : prec ≤ prec') (hle : least' ≤ least)
    (hlim : limit ≤ limit') (h : finiteIn prec least limit r) : finiteIn prec' least' limit' r := by
  obtain ⟨m, e, hm, rfl, hlt⟩ := h
  refine ⟨m, least + e - least', lt_of_lt_of_le hm (Nat.pow_le_pow_right (by omega) hp), ?_,
    lt_of_lt_of_le hlt (Nat.pow_le_pow_right (by omega) hlim)⟩
  rw [Nat.add_sub_cancel' (by omega)]

/-- Every finite binary32 magnitude is one of binary64 (R121). -/
theorem finite64_of_finite32 {k : Nat} (h : finite32 k) : finiteIn 53 0 2098 k :=
  finiteIn_mono (by decide) (by decide) (by decide) h

/-- The datum of a binary64 word put together from its fields (R120). -/
theorem decode64_fields (neg : Bool) (e : BitVec 11) (f : BitVec 52) :
    decode64 (BitVec.ofBool neg ++ e ++ f) =
      if e.toNat = 2047 then (if f.toNat = 0 then .inf neg else .nan)
      else if e.toNat = 0 then .fin neg f.toNat
      else .fin neg ((2 ^ 52 + f.toNat) * 2 ^ (e.toNat - 1)) := by
  have hw : BitVec.ofBool neg ++ e ++ f = BitVec.ofNat 64 (neg.toNat * 2 ^ 63 + e.toNat * 2 ^ 52 + f.toNat) := by
    have hneg := neg.toNat_lt
    apply BitVec.eq_of_toNat_eq
    rw [BitVec.toNat_append, BitVec.toNat_append, BitVec.toNat_ofBool, ← Nat.shiftLeft_add_eq_or_of_lt f.isLt,
      ← Nat.shiftLeft_add_eq_or_of_lt e.isLt, Nat.shiftLeft_eq, Nat.shiftLeft_eq, BitVec.toNat_ofNat]
    omega
  rw [hw, decode64_ofNat neg e.isLt f.isLt]

/-- An infinity reads back from its binary64 encoding. -/
theorem decode64_encode64_inf (q : DWord) (neg : Bool) : decode64 (encode64 q (.inf neg)) = .inf neg := by
  rw [encode64, decode64_fields, if_pos (by decide), if_pos (by decide)]

/-- Every finite binary64 value reads back from its encoding (R120). -/
theorem decode64_encode64_fin (q : DWord) (neg : Bool) {k : Nat} (h : finiteIn 53 0 2098 k) :
    decode64 (encode64 q (.fin neg k)) = .fin neg k := by
  obtain ⟨m, e, hm, rfl, hlt⟩ := h
  rw [Nat.zero_add] at hlt ⊢
  have hexact := significand_exact (p := 52) (e := e) hm
  generalize m * 2 ^ e = u at *
  rw [encode64_fin]
  split
  · next hu =>
    rw [decode64_fields, if_neg (by decide), if_pos (by decide), BitVec.toNat_ofNat, Nat.mod_eq_of_lt hu]
  · next hu =>
    obtain ⟨hlow, hhigh⟩ := significand_bounds (Nat.le_of_not_lt hu)
    have hge := le_topBit_of_pow_le (Nat.le_of_not_lt hu)
    have htop := topBit_lt_of_lt_pow (by omega) hlt
    have he : (BitVec.ofNat 11 (topBit u - 51)).toNat = topBit u - 51 := by
      rw [BitVec.toNat_ofNat, Nat.mod_eq_of_lt (by omega)]
    have hf : 2 ^ 52 + (BitVec.ofNat 52 (u / 2 ^ (topBit u - 52))).toNat = u / 2 ^ (topBit u - 52) := by
      rw [BitVec.toNat_ofNat]
      omega
    rw [decode64_fields, he, if_neg (by omega), if_neg (by omega), hf, Nat.sub_sub, hexact]

/-- A binary32 datum that is not a NaN has a binary64 word (R121). -/
theorem decode64_encode64_decode32 (q : DWord) {w : Word} (h : decode32 w ≠ .nan) :
    decode64 (encode64 q (decode32 w)) = decode32 w := by
  cases hw : decode32 w with
  | nan => exact absurd hw h
  | inf neg => exact decode64_encode64_inf q neg
  | fin neg k => exact decode64_encode64_fin q neg (finite64_of_finite32 (finite32_of_decode32 hw))

/-- Settles O43: a finite binary32 magnitude is a binary64 one, which neither encoding nor rounding changes. -/
theorem wideningIsExact : Obligations.WideningIsExact := fun _ q =>
  ⟨rfl, decode64_encode64_decode32 q, fun neg _ h =>
    roundTo_of_finiteIn binary64 neg (finite64_of_finite32 (finite32_of_decode32 h))⟩

/-! ### Scaling -/

theorem scale32_fin (n : Nat) (neg : Bool) (k : Nat) : scale32 n (.fin neg k) = roundTo binary32 neg k n := rfl

/-- Multiplication by 2^-n is scaling by n, as long as 2^-n is a datum (R126). -/
theorem mul32_pow_two (neg : Bool) (k : Nat) {n : Nat} (hn : n ≤ 1074) :
    mul32 (.fin false (2 ^ (1074 - n))) (.fin neg k) = scale32 n (.fin neg k) := by
  have h := roundTo_scale binary32 neg (1074 - n) k n
  rw [Nat.sub_add_cancel hn] at h
  rw [mul32, Fp.mul, Bool.false_xor, h, scale32_fin]

theorem mul32_fin_inf (a b : Bool) {j : Nat} (h : j ≠ 0) : mul32 (.fin a j) (.inf b) = .inf (a ^^ b) := if_neg h

/-- Multiplication by 0.5 is scaling by 1 (R126). -/
theorem mul32_half (a : Fp) : mul32 fpHalf a = scale32 1 a := by
  rw [fpHalf]
  cases a with
  | nan => rfl
  | inf neg =>
    rw [mul32_fin_inf _ _ (Nat.two_pow_pos 1073).ne', Bool.false_xor]
    rfl
  | fin neg k =>
    rw [show 1073 = 1074 - 1 from rfl]
    exact mul32_pow_two neg k (by decide)

/-- Scaling by 1 changes no binary32 datum (R126). -/
theorem scale32_zero_decode32 (w : Word) : scale32 0 (decode32 w) = decode32 w := by
  cases h : decode32 w with
  | nan => rfl
  | inf neg => rfl
  | fin neg k =>
    rw [scale32_fin]
    exact roundTo_of_finiteIn binary32 neg (finite32_of_decode32 h)

/-- A quotient that is a finite binary32 value is not rounded (R126). -/
theorem scale32_exact (neg : Bool) {k : Nat} (n : Nat) (h : finite32 k) : scale32 n (.fin neg (2 ^ n * k)) = .fin neg k := by
  have hscale := roundTo_scale binary32 neg n k 0
  rw [Nat.add_zero] at hscale
  rw [scale32_fin, hscale]
  exact roundTo_of_finiteIn binary32 neg h

/-- Settles O46: scaling and multiplication round the same exact number. -/
theorem scalingIsMultiplicationByAPowerOfTwo : Obligations.ScalingIsMultiplicationByAPowerOfTwo :=
  ⟨mul32_half, scale32_zero_decode32, fun neg k n => ⟨roundTo_nearest32 neg k n, rfl, rfl⟩,
    fun neg k n hn => ⟨mul32_pow_two neg k (by omega), scale32_exact neg n⟩⟩

/-! ### The twiddle recurrence -/

/-- Settles O47: the step is R134's by definition, and the kernel runs it from (1.0, +0.0) on the seeds of the ROM's rows. -/
theorem recurrenceGivesTheListedTwiddles : Obligations.RecurrenceGivesTheListedTwiddles := by
  refine ⟨fun w p => ⟨rfl, rfl⟩, ?_⟩
  decide +kernel

end Sys2Proof.Machine
end

section
/-! PROOFS. The bit reversal as a permutation of the samples (R154). -/

namespace Sys2Proof.Machine

/-- `rev_n` reads the n-bit index backwards (R154). -/
theorem testBit_bitrev {n b : Nat} (i : Nat) (hb : b < n) : (bitrev n i).testBit b = i.testBit (n - 1 - b) := by
  induction n generalizing i with
  | zero => omega
  | succ n ih =>
    rw [bitrev, Nat.mul_comm, Nat.testBit_two_pow_mul_add _ (bitrev_lt n (i / 2))]
    split
    · next hlt =>
      rw [ih (i / 2) hlt, Nat.testBit_div_two]
      congr 1
      omega
    · obtain rfl : b = n := by omega
      simp [Nat.testBit_zero]

/-- Reading an n-bit index backwards twice gives it back. -/
theorem bitrev_bitrev {n i : Nat} (hi : i < 2 ^ n) : bitrev n (bitrev n i) = i := by
  refine Nat.eq_of_testBit_eq fun b => ?_
  by_cases hb : b < n
  · rw [testBit_bitrev _ hb, testBit_bitrev _ (by omega)]
    congr 1
    omega
  · have hpow : 2 ^ n ≤ 2 ^ b := Nat.pow_le_pow_right (by omega) (Nat.le_of_not_lt hb)
    rw [Nat.testBit_lt_two_pow ((bitrev_lt n _).trans_le hpow), Nat.testBit_lt_two_pow (hi.trans_le hpow)]

/-- After the exchange of samples `i` and `j` a sample is the one the transposition sends it to; `p` is the word within it. -/
theorem swapSamples_read (i j c : Nat) {p : Nat} (hp : p < 2) (m : Mem) :
    (swapSamples i j m).read (2 * c + p) = m.read (2 * Equiv.swap i j c + p) := by
  simp only [swapSamples, Mem.read_write, Equiv.swap_apply_def]
  split_ifs <;> congr 1 <;> omega

/-- Which sample stands in place `c` when the first `k` iterations of the permutation are done: the exchange of `c` and rev(c)
happens at the smaller of the two. -/
def sourceSample (n k c : Nat) : Nat := if min c (bitrev n c) < k then bitrev n c else c

theorem sourceSample_zero (n c : Nat) : sourceSample n 0 c = c := if_neg (Nat.not_lt_zero _)

/-- All iterations have been done: place `c` holds sample rev(c). -/
theorem sourceSample_all {n c : Nat} (hc : c < 2 ^ n) : sourceSample n (2 ^ n) c = bitrev n c :=
  if_pos (lt_of_le_of_lt (min_le_left _ _) hc)

/-- Iteration `k` exchanges `k` and rev(k), neither of which was moved before. -/
theorem sourceSample_succ_of_lt {n k c : Nat} (hk : k < bitrev n k) (hkn : k < 2 ^ n) (hc : c < 2 ^ n) :
    sourceSample n (k + 1) c = sourceSample n k (Equiv.swap k (bitrev n k) c) := by
  have hkk := bitrev_bitrev hkn
  rw [Equiv.swap_apply_def]
  by_cases hck : c = k
  · subst hck
    unfold sourceSample
    split_ifs <;> omega
  · by_cases hcr : c = bitrev n k
    · subst hcr
      simp only [sourceSample, hkk]
      split_ifs <;> omega
    · have hrc : bitrev n c ≠ k := fun h => hcr (by rw [← h, bitrev_bitrev hc])
      rw [if_neg hck, if_neg hcr]
      unfold sourceSample
      split_ifs <;> omega

/-- Iteration `k` moves nothing: rev(k) is `k`, or the two were exchanged before. -/
theorem sourceSample_succ_of_le {n k c : Nat} (hk : bitrev n k ≤ k) (hkn : k < 2 ^ n) (hc : c < 2 ^ n) :
    sourceSample n (k + 1) c = sourceSample n k c := by
  by_cases hck : c = k
  · subst hck
    unfold sourceSample
    split_ifs <;> omega
  · have hrc : bitrev n c = k → bitrev n k = c := fun h => by rw [← h, bitrev_bitrev hc]
    unfold sourceSample
    split_ifs <;> omega

theorem bitrevPermute_loop_read {n k c p : Nat} (hk : k ≤ 2 ^ n) (hc : c < 2 ^ n) (hp : p < 2) (m : Mem) :
    (loop k (fun i m => if i < bitrev n i then swapSamples i (bitrev n i) m else m) m).read (2 * c + p) =
      m.read (2 * sourceSample n k c + p) := by
  induction k generalizing c with
  | zero => rw [loop_zero, sourceSample_zero]
  | succ k ih =>
    rw [loop_succ]
    split
    · next h =>
      have hswap : Equiv.swap k (bitrev n k) c < 2 ^ n := by
        have := bitrev_lt n k
        rw [Equiv.swap_apply_def]
        split_ifs <;> omega
      rw [swapSamples_read _ _ _ hp, ih (by omega) hswap, sourceSample_succ_of_lt h hk hc]
    · next h => rw [ih (by omega) hc, sourceSample_succ_of_le (Nat.le_of_not_lt h) hk hc]

/-- Place `c` of the permuted memory holds sample rev(c), both words (R154). -/
theorem bitrevPermute_read {n c p : Nat} (hc : c < 2 ^ n) (hp : p < 2) (m : Mem) :
    (bitrevPermute n m).read (2 * c + p) = m.read (2 * bitrev n c + p) := by
  rw [bitrevPermute, bitrevPermute_loop_read le_rfl hc hp, sourceSample_all hc]

/-- Settles O48: the exchanges compose to the permutation by `bitrev`, which is its own inverse. -/
theorem bitReversalPermutesSamples : Obligations.BitReversalPermutesSamples := fun n =>
  ⟨bitrev_lt n, fun i _ _ hb => testBit_bitrev i hb, fun m =>
    ⟨fun _ hi => ⟨bitrevPermute_read (p := 0) hi (by omega) m, bitrevPermute_read (p := 1) hi (by omega) m⟩,
      fun _ ha => (bitrevPermute_touches n m).other _ (Nat.not_lt.2 ha)⟩⟩

end Sys2Proof.Machine
end

section
/-! PROOFS. What CFFT computes: the butterfly's words, the twiddles of a stage, the scaling, two points, the command (R151 to R160). -/

namespace Sys2Proof.Machine

/-! ### The butterfly and the stage -/

@[simp] theorem Mem.storeBits_store (m : Mem) (d i : Nat) (x : Fp) (d' j : Nat) (y : Fp) :
    (m.store d i x).storeBits d' j y = m.storeBits d' j y := rfl

/-- Settles O60: the four words are read before the first store, and the stores are to four different words. -/
theorem butterflyStoresTheStatedWords : Obligations.ButterflyStoresTheStatedWords := by
  intro d i j w m hij
  simp only [butterfly, Mem.read_store, Mem.storeBits_store]
  refine ⟨?_, ?_, ?_, ?_, fun a hi hi' hj hj' => ?_⟩
  · rw [if_neg (by omega), if_neg (by omega), if_neg (by omega), if_pos trivial]
  · rw [if_neg (by omega), if_neg (by omega), if_pos trivial]
  · rw [if_neg (by omega), if_pos trivial]
  · rw [if_pos trivial]
  · rw [if_neg hi', if_neg hi, if_neg hj', if_neg hj]

/-- Settles O49: the twiddle a stage carries from index to index is the iterate of its step. -/
theorem stageUsesTheIteratedTwiddle : Obligations.StageUsesTheIteratedTwiddle := stage_eq_loop

/-! ### Inverse scaling -/

/-- A loop that replaces each word by a function of its own datum applies it to each word once. -/
theorem Mem.loop_store_read (d : Nat) (g : Fp → Fp) (n t : Nat) (m : Mem) :
    (loop n (fun i x => x.store d i (g (x.load i))) m).read t =
      if t < n then m.storeBits d t (g (m.load t)) else m.read t := by
  have hspace (n : Nat) : (loop n (fun i x => x.store d i (g (x.load i))) m).space = m.space :=
    loop_induct (fun x : Mem => x.space = m.space) rfl fun _ _ _ hx => hx
  induction n with
  | zero => rfl
  | succ n ih =>
    rw [loop_succ, Mem.read_store, Mem.storeBits_congr (hspace n)]
    by_cases h : t = n
    · subst h
      rw [if_pos rfl, if_pos (by omega), Mem.load, ih, if_neg (by omega), Mem.load]
    · rw [if_neg h, ih]
      simp only [show t < n + 1 ↔ t < n by omega]

theorem scaleAll_read (d n t : Nat) (m : Mem) :
    (scaleAll d n m).read t = if t < 2 * 2 ^ n then m.storeBits d t (scale32 n (m.load t)) else m.read t :=
  Mem.loop_store_read d (scale32 n) (2 * 2 ^ n) t m

/-- Storing the datum a word already encodes does not change the word, unless it is a NaN. -/
theorem Mem.storeBits_load {m : Mem} {t : Nat} (h : m.load t ≠ .nan) (d : Nat) : m.storeBits d t (m.load t) = m.read t :=
  encode32_decode32 _ h

/-- Settles O51: the scaling pass meets each word once, and scaling by 1 keeps every binary32 datum. -/
theorem inverseScalesEveryWordOnce : Obligations.InverseScalesEveryWordOnce := by
  refine fun d n m => ⟨rfl, rfl, fun t ht => ?_, fun t ht => ?_, fun hn t hnan => ?_⟩
  · rw [scaleAll_read, if_pos ht]
  · rw [scaleAll_read, if_neg (Nat.not_lt.2 ht)]
  · subst hn
    have hscale : scale32 0 (m.load t) = m.load t := scale32_zero_decode32 (m.read t)
    rw [scaleAll_read, hscale, Mem.storeBits_load hnan, ite_self]

/-! ### The two-point transform -/

/-- Adding a zero, of either sign, to a finite datum that is not zero rounds the datum. -/
theorem add_fin_zero (f : Format) (a c : Bool) {j : Nat} (h : j ≠ 0) : Fp.add f (.fin a j) (.fin c 0) = roundTo f a j 0 := by
  by_cases hac : a = c
  · rw [Fp.add, if_pos hac, Nat.add_zero]
  · rw [Fp.add, if_neg hac, if_neg h, if_pos (Nat.pos_of_ne_zero h), Nat.sub_zero]

/-- Multiplication by 1.0 changes no finite binary32 datum (R127). -/
theorem mul64_one (a : Bool) {j : Nat} (h : finite32 j) : mul64 fpOne (.fin a j) = .fin a j := by
  have hscale := roundTo_scale binary64 a 1074 j 0
  rw [Nat.add_zero] at hscale
  rw [mul64, fpOne, Fp.mul, Bool.false_xor, hscale]
  exact roundTo_of_finiteIn binary64 a (finite64_of_finite32 h)

theorem mul64_zero (b : Bool) (k : Nat) : mul64 fpZero (.fin b k) = .fin b 0 := by
  rw [mul64, fpZero, Fp.mul, Bool.false_xor, Nat.zero_mul, roundTo_zero]

/-- A binary32 datum that is not zero is not changed by adding a zero in binary64 and rounding to binary32. -/
theorem round32_add64_zero (a c : Bool) {j : Nat} (h : j ≠ 0) (hf : finite32 j) :
    round32 (add64 (.fin a j) (.fin c 0)) = .fin a j := by
  rw [add64, add_fin_zero binary64 a c h, roundTo_of_finiteIn binary64 a (finite64_of_finite32 hf), round32]
  exact roundTo_of_finiteIn binary32 a hf

/-- The two-point transform is one butterfly with the first twiddle, (1.0, +0.0) (R156, R157). -/
theorem cfftCore_one_forward (d : Nat) (m : Mem) : cfftCore d 1 .forward m = butterfly d 0 1 stageStart m := rfl

/-- Settles O53: the one butterfly's product with (1.0, +0.0) is the second sample itself. -/
theorem twoPointTransformAddsAndSubtracts : Obligations.TwoPointTransformAddsAndSubtracts := by
  intro d m a b j k h2 h3 hj hk
  have hfj : finite32 j := finite32_of_decode32 h2
  have hfk : finite32 k := finite32_of_decode32 h3
  have htr : round32 (sub64 (mul64 fpOne (.fin a j)) (mul64 fpZero (.fin b k))) = .fin a j := by
    rw [mul64_one a hfj, mul64_zero]
    exact round32_add64_zero a (!b) hj hfj
  have hti : round32 (add64 (mul64 fpOne (.fin b k)) (mul64 fpZero (.fin a j))) = .fin b k := by
    rw [mul64_one b hfk, mul64_zero]
    exact round32_add64_zero b a hk hfk
  obtain ⟨hr2, hr3, hr0, hr1, -⟩ := butterflyStoresTheStatedWords d 0 1 stageStart m (by decide)
  simp only [stageStart, to64, Nat.mul_zero, Nat.mul_one, Nat.zero_add, Nat.reduceAdd, h2, h3, htr, hti] at hr0 hr1 hr2 hr3
  simp only [cfftCore_one_forward, stageStart, h2, h3]
  exact ⟨hr0, hr1, hr2, hr3⟩

/-! ### The command -/

theorem runCfft_legalLength {n : Nat} {s : State} (h : n ≤ s.params.lognMax) (dir : Direction) (w : Word) :
    runCfft dir n w s = .next { s with buf := cfftCore s.draws n dir s.buf, draws := s.draws + 1, busy := false } :=
  if_neg (Nat.not_lt.2 h)

/-- Settles O29: the only check is the length's. -/
theorem cfftCompletes : Obligations.CfftCompletes := fun _ _ h =>
  ⟨runCfft_legalLength h .forward _, runCfft_legalLength h .inverse _⟩

end Sys2Proof.Machine
end

section
/-! PROOFS. CFFT reads and writes the words of its range only (R160). -/

namespace Sys2Proof.Machine

theorem Mem.writeAll_append (m : Mem) (ws us : List WordCell) : m.writeAll (ws ++ us) = (m.writeAll ws).writeAll us :=
  List.foldl_append

/-- The same writes keep two memories alike at a word where they were alike. -/
theorem Mem.writeAll_read_congr {x m : Mem} {a : Nat} (h : x.read a = m.read a) (ws : List WordCell) :
    (x.writeAll ws).read a = (m.writeAll ws).read a := by
  induction ws generalizing x m with
  | nil => exact h
  | cons c ws ih => exact ih (by rw [Mem.read_write, Mem.read_write, h])

theorem Mem.ActsOn.id (P : Nat → Prop) : Mem.ActsOn P fun m => m := fun _ =>
  ⟨[], fun _ hc => absurd hc List.not_mem_nil, fun _ _ _ => rfl⟩

theorem Mem.ActsOn.mono {P Q : Nat → Prop} {f : Mem → Mem} (hf : Mem.ActsOn P f) (hPQ : ∀ a, P a → Q a) :
    Mem.ActsOn Q f := by
  intro m
  obtain ⟨ws, hws, hfm⟩ := hf m
  exact ⟨ws, fun c hc => hPQ _ (hws c hc), fun x hspace hread => hfm x hspace fun a ha => hread a (hPQ a ha)⟩

theorem Mem.ActsOn.comp {P : Nat → Prop} {f g : Mem → Mem} (hg : Mem.ActsOn P g) (hf : Mem.ActsOn P f) :
    Mem.ActsOn P fun m => g (f m) := by
  intro m
  obtain ⟨ws, hws, hfm⟩ := hf m
  obtain ⟨us, hus, hgm⟩ := hg (m.writeAll ws)
  refine ⟨ws ++ us, List.forall_mem_append.2 ⟨hws, hus⟩, fun x hspace hread => ?_⟩
  have hmid : (x.writeAll ws).space = (m.writeAll ws).space :=
    ((Mem.writeAll_touches hws x).space.trans hspace).trans (Mem.writeAll_touches hws m).space.symm
  simp only [hfm x hspace hread, Mem.writeAll_append]
  exact hgm _ hmid fun a ha => Mem.writeAll_read_congr (hread a ha) ws

theorem Mem.ActsOn.loop {P : Nat → Prop} {n : Nat} {f : Nat → Mem → Mem} (hf : ∀ i < n, Mem.ActsOn P (f i)) :
    Mem.ActsOn P (loop n f) := by
  induction n with
  | zero => exact .id P
  | succ n ih => exact (hf n n.lt_succ_self).comp (ih fun i hi => hf i (Nat.lt_succ_of_lt hi))

/-- Memories alike on `P` are alike on `P` after a rewriting that acts on `P`. -/
theorem Mem.ActsOn.read_congr {P : Nat → Prop} {f : Mem → Mem} (hf : Mem.ActsOn P f) {x m : Mem} (hspace : x.space = m.space)
    (hread : ∀ a, P a → x.read a = m.read a) {a : Nat} (ha : P a) : (f x).read a = (f m).read a := by
  obtain ⟨ws, -, hfm⟩ := hf m
  rw [hfm x hspace hread, hfm m rfl fun _ _ => rfl]
  exact Mem.writeAll_read_congr (hread a ha) ws

theorem swapSamples_actsOn (i j : Nat) : Mem.ActsOn (inSamples i j) (swapSamples i j) := by
  have hi : inSamples i j (2 * i) := .inl (by omega)
  have hi' : inSamples i j (2 * i + 1) := .inl (by omega)
  have hj : inSamples i j (2 * j) := .inr (by omega)
  have hj' : inSamples i j (2 * j + 1) := .inr (by omega)
  intro m
  refine ⟨[(2 * i, m.read (2 * j)), (2 * j, m.read (2 * i)), (2 * i + 1, m.read (2 * j + 1)), (2 * j + 1, m.read (2 * i + 1))],
    ?words, fun x _ hread => ?same⟩
  case same =>
    simp only [swapSamples, hread _ hi, hread _ hi', hread _ hj, hread _ hj']
    rfl
  case words => simp only [List.forall_mem_cons, hi, hi', hj, hj', List.not_mem_nil, false_imp_iff, implies_true, and_self]

/-- Two samples below 2^n lie in the first 2·2^n words. -/
theorem lt_of_inSamples {n i j a : Nat} (hi : i < 2 ^ n) (hj : j < 2 ^ n) (h : inSamples i j a) : a < 2 * 2 ^ n := by
  unfold inSamples at h
  omega

theorem bitrevPermute_actsOn (n : Nat) : Mem.ActsOn (· < 2 * 2 ^ n) (bitrevPermute n) := by
  refine .loop fun i hi => ?_
  by_cases h : i < bitrev n i
  · simp only [if_pos h]
    exact (swapSamples_actsOn i (bitrev n i)).mono fun _ => lt_of_inSamples hi (bitrev_lt n i)
  · simp only [if_neg h]
    exact .id _

theorem stage_actsOn (d s n : Nat) (dir : Direction) : Mem.ActsOn (· < 2 * 2 ^ n) (stage d s n dir) := by
  rw [funext (stage_eq_loop d s n dir)]
  refine .loop fun mi hm => .loop fun g hg => (butterfly_actsOn d _ _ _).mono fun _ => ?_
  have := block_bound hg hm
  exact lt_of_inSamples (by omega) this

theorem scaleAll_actsOn (d n : Nat) : Mem.ActsOn (· < 2 * 2 ^ n) (scaleAll d n) := by
  refine .loop fun t ht m => ⟨[(t, m.storeBits d t (scale32 n (m.load t)))], List.forall_mem_singleton.2 ht,
    fun x hspace hread => ?_⟩
  rw [Mem.store, Mem.storeBits_congr hspace, Mem.load, hread t ht]
  rfl

/-- CFFT reads and writes words 0 to 2·2^n − 1 only (R160). -/
theorem cfftCore_actsOn (d n : Nat) (dir : Direction) : Mem.ActsOn (· < 2 * 2 ^ n) (cfftCore d n dir) := by
  have h := (Mem.ActsOn.loop fun t (_ : t < n) => stage_actsOn d (t + 1) n dir).comp (bitrevPermute_actsOn n)
  cases dir with
  | forward => exact h
  | inverse => exact (scaleAll_actsOn d n).comp h

/-- Settles O52: every part of CFFT acts on the first 2N words. -/
theorem cfftDependsOnItsRangeOnly : Obligations.CfftDependsOnItsRangeOnly := fun d n dir m =>
  ⟨fun _ ha => (cfftCore_touches d n dir m).other _ (Nat.not_lt.2 ha), fun _ hspace hread _ ha =>
    (cfftCore_actsOn d n dir).read_congr hspace hread ha⟩

end Sys2Proof.Machine
end

section
/-! PROOFS. The split pass of the real transform: its twiddles, its words, and its pairs in any order (R69, R172, R173). -/

namespace Sys2Proof.Machine

/-! ### A rewriting and the words it acts on -/

theorem Mem.ActsOn.touches {P : Nat → Prop} {f : Mem → Mem} (hf : Mem.ActsOn P f) (m : Mem) : Mem.Touches P m (f m) := by
  obtain ⟨ws, hws, hfm⟩ := hf m
  rw [hfm m rfl fun _ _ => rfl]
  exact Mem.writeAll_touches hws m

/-- In a loop whose iterations act on disjoint sets of words, each set holds what its own iteration makes of the first memory. -/
theorem Mem.loop_read_of_actsOn {P : Nat → Nat → Prop} {n t a : Nat} {f : Nat → Mem → Mem}
    (hf : ∀ i < n, Mem.ActsOn (P i) (f i)) (hdisj : ∀ i < n, ∀ j < n, i ≠ j → ∀ b, P i b → ¬ P j b) (m : Mem)
    (ht : t < n) (ha : P t a) : (loop n f m).read a = (f t m).read a := by
  induction n with
  | zero => exact absurd ht t.not_lt_zero
  | succ n ih =>
    have hlt {i : Nat} (hi : i < n) : i < n + 1 := Nat.lt_succ_of_lt hi
    rw [loop_succ]
    by_cases htn : t = n
    · subst htn
      have hbefore : Mem.Touches (fun b => ¬ P t b) m (loop t f m) := Mem.touches_loop m fun i hi x =>
        ((hf i (hlt hi)).touches x).mono fun b hb => hdisj i (hlt hi) t ht (Nat.ne_of_lt hi) b hb
      exact (hf t ht).read_congr hbefore.space (fun b hb => hbefore.other b (not_not_intro hb)) ha
    · have htn' : t < n := Nat.lt_of_le_of_ne (Nat.le_of_lt_succ ht) htn
      rw [((hf n n.lt_succ_self).touches _).other a (hdisj t ht n n.lt_succ_self htn a ha)]
      exact ih (fun i hi => hf i (hlt hi)) (fun i hi j hj => hdisj i (hlt hi) j (hlt hj)) htn'

/-! ### The pairs -/

/-- The split pass is its pairs, index by index, each index with its own twiddle (R173). -/
theorem splitPass_eq_loop (d n : Nat) (dir : Direction) (m : Mem) :
    splitPass d n dir m =
      loop (2 ^ n / 2 / 2 - 1) (fun t x => splitPair d n (t + 1) dir (splitTwiddle n dir (t + 1)) x) m := by
  rw [splitPass, seed_eq_romSeed]
  exact congrArg Prod.fst (loop_iterate (2 ^ n / 2 / 2 - 1) (fun t => splitPair d n (t + 1) dir)
    (fun w => wstep w (romSeed n dir)) m (splitStart (romSeed n dir)))

/-- The pair of index k reads and writes bins k and M − k only (R173). -/
theorem splitPair_actsOn (d : Nat) {n : Nat} (hn : 1 ≤ n) (k : Nat) (dir : Direction) (w : Twiddle) :
    Mem.ActsOn (inSamples k (2 ^ n / 2 - k)) (splitPair d n k dir w) := by
  have hL := two_pow_pred hn
  have h1 : inSamples k (2 ^ n / 2 - k) (2 * k) := .inl (by omega)
  have h2 : inSamples k (2 ^ n / 2 - k) (2 * k + 1) := .inl (by omega)
  have h3 : inSamples k (2 ^ n / 2 - k) (2 ^ n - 2 * k) := .inr (by omega)
  have h4 : inSamples k (2 ^ n / 2 - k) (2 ^ n - 2 * k + 1) := .inr (by omega)
  intro m
  refine ⟨[(2 * k, ?_), (2 * k + 1, ?_), (2 ^ n - 2 * k, ?_), (2 ^ n - 2 * k + 1, ?_)], ?words, fun x hspace hread => ?same⟩
  case same =>
    simp only [splitPair, Mem.store, Mem.storeBits, Mem.write_space, Mem.load, hspace, hread _ h1, hread _ h2,
      hread _ h3, hread _ h4]
    rfl
  case words => simp only [List.forall_mem_cons, h1, h2, h3, h4, List.not_mem_nil, false_imp_iff, implies_true, and_self]

/-- Bins k and M − k, and k' and M − k', are four different bins when k and k' are different and below M/2. -/
theorem not_inSamples_of_ne {M k k' : Nat} (hk : k ≤ M / 2 - 1) (hk' : k' ≤ M / 2 - 1) (h1 : 1 ≤ k) (h : k ≠ k') (a : Nat)
    (ha : inSamples k (M - k) a) : ¬ inSamples k' (M - k') a := by
  unfold inSamples at ha ⊢
  omega

/-- An index of the split pass exists only where there are two points or more. -/
theorem one_le_of_splitIndex {n k : Nat} (h1 : 1 ≤ k) (hk : k ≤ 2 ^ n / 2 / 2 - 1) : 1 ≤ n := by
  refine Nat.one_le_iff_ne_zero.2 fun hn => ?_
  subst hn
  omega

/-- The words of bins k and M − k after the split pass are those the pair k makes of the memory before the pass (R69, R173). -/
theorem splitPass_read_pair (d : Nat) {n k a : Nat} (dir : Direction) (m : Mem) (h1 : 1 ≤ k) (hk : k ≤ 2 ^ n / 2 / 2 - 1)
    (ha : inSamples k (2 ^ n / 2 - k) a) :
    (splitPass d n dir m).read a = (splitPair d n k dir (splitTwiddle n dir k) m).read a := by
  have hn := one_le_of_splitIndex h1 hk
  obtain ⟨t, rfl⟩ := Nat.exists_eq_add_of_le' h1
  rw [splitPass_eq_loop]
  exact Mem.loop_read_of_actsOn (P := fun t => inSamples (t + 1) (2 ^ n / 2 - (t + 1)))
    (fun t _ => splitPair_actsOn d hn (t + 1) dir _)
    (fun i hi j hj hij => not_inSamples_of_ne hi hj (Nat.le_add_left 1 i) (by omega)) m hk ha

/-- Settles O57: the twiddle carried from index to index is the iterate of its step, and the words named lie outside the bins of
every pair. -/
theorem splitPassUsesTheIteratedTwiddle : Obligations.SplitPassUsesTheIteratedTwiddle := by
  intro d n dir m
  have htouches := splitPass_touches d n dir m
  refine ⟨splitPass_eq_loop d n dir m, fun a ha => htouches.other a (by omega), fun _ => ⟨?_, ?_⟩,
    fun a ha => htouches.other a (by omega)⟩
  · exact htouches.other _ (by omega)
  · exact htouches.other _ (by omega)

/-- Settles O58: pairs of different indices act on different bins, so they commute, and a fold of steps that commute in pairs
does not depend on their order. -/
theorem splitPairsMayRunInAnyOrder : Obligations.SplitPairsMayRunInAnyOrder := by
  intro d n dir m order hperm
  have hindex {k : Nat} (hk : k ∈ order) : 1 ≤ k ∧ k ≤ 2 ^ n / 2 / 2 - 1 := by
    obtain ⟨t, ht, rfl⟩ := List.mem_map.1 (hperm.mem_iff.1 hk)
    exact ⟨Nat.le_add_left 1 t, List.mem_range.1 ht⟩
  rw [splitPass_eq_loop, loop_eq_foldl, ← List.foldl_map (f := (· + 1))
    (g := fun x k => splitPair d n k dir (splitTwiddle n dir k) x)]
  refine hperm.foldl_eq' (fun k hk k' hk' x => ?_) m
  obtain ⟨h1, hle⟩ := hindex hk
  obtain ⟨h1', hle'⟩ := hindex hk'
  have hn := one_le_of_splitIndex h1 hle
  by_cases hkk : k' = k
  · rw [hkk]
  · exact (splitPair_actsOn d hn k' dir _).comm (splitPair_actsOn d hn k dir _) (not_inSamples_of_ne hle' hle h1' hkk) x

/-! ### The four words of a pair -/

theorem decode32_half : decode32 0x3F000000 = fpHalf := by decide +kernel

theorem decode32_neg_half : decode32 0xBF000000 = neg32 fpHalf := by decide +kernel

/-- c2 of the split pass by its words, −0.5 forward and +0.5 inverse (R173). -/
theorem splitFactor_eq (dir : Direction) :
    splitFactor dir = if dir = .forward then decode32 0xBF000000 else decode32 0x3F000000 := by
  cases dir
  · exact decode32_neg_half.symm
  · exact decode32_half.symm

/-- Settles O59: the words of a pair are read before its first store, its stores are to four different words, and no other pair
meets them. -/
theorem splitPassStoresTheStatedPairs : Obligations.SplitPassStoresTheStatedPairs := by
  refine fun d n dir m => ⟨fun k h1 hk => ?_, fun a ha => ?_⟩
  · have hL := two_pow_pred (one_le_of_splitIndex h1 hk)
    have hpair {a : Nat} (ha : inSamples k (2 ^ n / 2 - k) a) := splitPass_read_pair d dir m h1 hk ha
    rw [← splitFactor_eq, decode32_half]
    dsimp only
    rw [hpair (.inl (by omega)), hpair (.inl (by omega)), hpair (.inr (by omega)), hpair (.inr (by omega))]
    simp only [splitPair, Mem.read_store, Mem.storeBits_store]
    refine ⟨?_, ?_, ?_, ?_⟩
    · rw [if_neg (by omega), if_neg (by omega), if_neg (by omega), if_pos trivial]
    · rw [if_neg (by omega), if_neg (by omega), if_pos trivial]
    · rw [if_neg (by omega), if_pos trivial]
    · rw [if_pos trivial]
  · rw [splitPass_eq_loop]
    have htouches : Mem.Touches (· ≠ a) m (loop (2 ^ n / 2 / 2 - 1)
        (fun t x => splitPair d n (t + 1) dir (splitTwiddle n dir (t + 1)) x) m) := by
      refine Mem.touches_loop m fun t ht x => ?_
      obtain ⟨ha1, ha2, ha3, ha4⟩ := ha (t + 1) (Nat.le_add_left 1 t) ht
      exact splitPair_touches ha1.symm ha2.symm ha3.symm ha4.symm d dir _ x
    exact htouches.other a (not_not_intro rfl)

end Sys2Proof.Machine
end

section
/-! PROOFS. RFFT: the sequence it runs, the words it ignores and leaves, and the command (R171, R175). -/

namespace Sys2Proof.Machine

/-! ### The ends of the spectrum -/

@[simp] theorem Mem.storeBits_write (m : Mem) (i : Nat) (v : Word) (d j : Nat) (x : Fp) :
    (m.write i v).storeBits d j x = m.storeBits d j x := rfl

theorem two_le_two_pow {n : Nat} (h : 1 ≤ n) : 2 ≤ 2 ^ n := Nat.pow_le_pow_right (n := 2) (by decide) h

/-- The last words of RFFT(FORWARD) (R171): the sum in word 0, the difference in word L, +0.0 in word 1. -/
theorem packEnds_read (d : Nat) {n : Nat} (hn : 1 ≤ n) (m : Mem) :
    (packEnds d n m).read 0 = m.storeBits d 0 (add32 (m.load 0) (m.load 1)) ∧
      (packEnds d n m).read (2 ^ n) = m.storeBits d (2 ^ n) (sub32 (m.load 0) (m.load 1)) ∧
      (packEnds d n m).read 1 = zeroWord ∧
      ∀ a, a ≠ 0 → a ≠ 1 → a ≠ 2 ^ n → (packEnds d n m).read a = m.read a := by
  have hL := two_le_two_pow hn
  simp only [packEnds, Mem.load, Mem.read_write, Mem.read_store, Mem.storeBits_store]
  refine ⟨?_, ?_, ?_, fun a h0 h1 hLa => ?_⟩
  · rw [if_neg (by decide), if_neg (by omega), if_pos trivial]
  · rw [if_neg (by omega), if_pos trivial, if_neg (by decide)]
  · rw [if_pos trivial]
  · rw [if_neg h1, if_neg hLa, if_neg h0]

/-- The first words of RFFT(INVERSE) (R171): half the sum in word 0 and half the difference in word 1. -/
theorem unpackEnds_eq (d n : Nat) (m : Mem) :
    unpackEnds d n m = (m.write 0 (m.storeBits d 0 (mul32 fpHalf (add32 (m.load 0) (m.load (2 ^ n)))))).write 1
      (m.storeBits d 1 (mul32 fpHalf (sub32 (m.load 0) (m.load (2 ^ n))))) := by
  have hload (x : Fp) : (m.store d 0 x).load (2 ^ n) = m.load (2 ^ n) :=
    congrArg decode32 (m.read_write_other (Nat.two_pow_pos n).ne' _)
  simp only [unpackEnds, hload]
  rfl

/-- RFFT(FORWARD) begins by writing words L and L + 1, so what they held is ignored (R175). -/
theorem zeroTail_write_tail (n : Nat) (m : Mem) (x y : Word) :
    zeroTail n ((m.write (2 ^ n) x).write (2 ^ n + 1) y) = zeroTail n m := by
  have hne : 2 ^ n ≠ 2 ^ n + 1 := (Nat.succ_ne_self _).symm
  rw [zeroTail, Mem.write_comm _ hne, Mem.write_write_same, Mem.write_write_same, zeroTail]

/-- RFFT(INVERSE) begins by writing word 1, and leaves what word L + 1 holds where it is (R175). -/
theorem unpackEnds_write_ignored (d : Nat) {n : Nat} (hn : 1 ≤ n) (m : Mem) (x y : Word) :
    unpackEnds d n ((m.write 1 x).write (2 ^ n + 1) y) = (unpackEnds d n m).write (2 ^ n + 1) y := by
  have hL := two_le_two_pow hn
  have hload {i : Nat} (h1 : i ≠ 1) (hi : i ≠ 2 ^ n + 1) : ((m.write 1 x).write (2 ^ n + 1) y).load i = m.load i :=
    congrArg decode32 ((Mem.read_write_other _ hi y).trans (m.read_write_other h1 x))
  rw [unpackEnds_eq, unpackEnds_eq, hload (by decide) (by omega), hload (by omega) (by omega)]
  simp only [Mem.storeBits_write]
  rw [Mem.write_comm (i := 0) _ (by omega), Mem.write_comm (i := 1) _ (by omega), Mem.write_comm (i := 0) m (by decide),
    Mem.write_write_same]

/-! ### The transform -/

/-- The split pass reads and writes words 0 to L − 1 only (R173). -/
theorem splitPass_actsOn (d : Nat) {n : Nat} (hn : 1 ≤ n) (dir : Direction) :
    Mem.ActsOn (· < 2 ^ n) (splitPass d n dir) := by
  have hL := two_pow_pred hn
  rw [funext (splitPass_eq_loop d n dir)]
  refine .loop fun t ht => (splitPair_actsOn d hn (t + 1) dir _).mono fun a ha => ?_
  unfold inSamples at ha
  omega

/-- RFFT(INVERSE) after its first words reads and writes words 0 to L − 1 only (R175). -/
theorem rfftInverse_tail_actsOn (d : Nat) {n : Nat} (hn : 1 ≤ n) :
    Mem.ActsOn (· < 2 ^ n) fun m => cfftCore d (n - 1) .inverse (splitPass d n .inverse m) := by
  have hcfft := cfftCore_actsOn d (n - 1) .inverse
  rw [two_pow_pred hn] at hcfft
  exact hcfft.comp (splitPass_actsOn d hn .inverse)

/-- What RFFT(FORWARD) has made of the memory when it stores its last words (R171). -/
def rfftForwardSpectrum (d n : Nat) (m : Mem) : Mem :=
  splitPass d n .forward (cfftCore d (n - 1) .forward (zeroTail n m))

/-- Between its first and its last words RFFT(FORWARD) touches words 0 to L − 1 only (R171, R175). -/
theorem rfftForwardSpectrum_touches (d : Nat) {n : Nat} (hn : 1 ≤ n) (m : Mem) :
    Mem.Touches (· < 2 ^ n) (zeroTail n m) (rfftForwardSpectrum d n m) := by
  have hcfft := cfftCore_touches d (n - 1) .forward (zeroTail n m)
  rw [two_pow_pred hn] at hcfft
  exact hcfft.trans ((splitPass_touches d n .forward _).mono fun a ha => by omega)

/-- RFFT(FORWARD) is its spectrum with the last words stored over words 0, L and 1 (R171). -/
theorem rfftForward_read (d : Nat) {n : Nat} (hn : 1 ≤ n) (m : Mem) :
    let z := rfftForwardSpectrum d n m
    let t := rfftCore d n .forward m
    t.read 0 = m.storeBits d 0 (add32 (z.load 0) (z.load 1)) ∧
      t.read (2 ^ n) = m.storeBits d (2 ^ n) (sub32 (z.load 0) (z.load 1)) ∧ t.read 1 = zeroWord ∧
      ∀ a, a ≠ 0 → a ≠ 1 → a ≠ 2 ^ n → t.read a = z.read a := by
  have hspace : m.space = (rfftForwardSpectrum d n m).space := (rfftForwardSpectrum_touches d hn m).space.symm
  simp only [Mem.storeBits_congr hspace]
  exact packEnds_read d hn (rfftForwardSpectrum d n m)

/-- Settles O54: RFFT(FORWARD) writes words L and L + 1 first and words 0, 1 and L last; RFFT(INVERSE) writes word 1 first, and no
part of it but the read of word L goes beyond word L − 1. -/
theorem trailingWordsOfTheRealTransform : Obligations.TrailingWordsOfTheRealTransform := by
  intro d n m x y hn
  have hL := two_le_two_pow hn
  obtain ⟨-, -, hone, hother⟩ := rfftForward_read d hn m
  have hinverse := rfftInverse_touches d hn m
  refine ⟨hone, ?_, ?_, hinverse.other _ (lt_irrefl _), hinverse.other _ (by omega), fun a ha => ?_⟩
  · calc (rfftCore d n .forward m).read (2 ^ n + 1)
        = (rfftForwardSpectrum d n m).read (2 ^ n + 1) := hother _ (by omega) (by omega) (by omega)
      _ = (zeroTail n m).read (2 ^ n + 1) := (rfftForwardSpectrum_touches d hn m).other _ (by omega)
      _ = 0x00000000 := Mem.read_write_same _ _ _
  · simp only [rfftCore, zeroTail_write_tail]
  · simp only [rfftCore, unpackEnds_write_ignored d hn]
    refine (rfftInverse_tail_actsOn d hn).read_congr (Mem.write_space _ _ y) (fun b (hb : b < 2 ^ n) => ?_) ha
    exact Mem.read_write_other _ (by omega) y

/-! ### The command -/

theorem runRfft_legalLength {n : Nat} {s : State} (h1 : 1 ≤ n) (h : n ≤ s.params.lognMax) (dir : Direction) (w : Word) :
    runRfft dir n w s = .next { s with buf := rfftCore s.draws n dir s.buf, draws := s.draws + 1, busy := false } :=
  if_neg (by omega)

/-- Settles O30: the only check is the length's, and the two directions are the sequences of the model's own steps. -/
theorem rfftCompletes : Obligations.RfftCompletes := by
  refine ⟨fun n s h1 h => ⟨runRfft_legalLength h1 h .forward _, runRfft_legalLength h1 h .inverse _⟩,
    fun d n m hn => ⟨rfftForward_read d hn m, ?_⟩⟩
  rw [decode32_half]
  dsimp only
  rw [← unpackEnds_eq, rfftCore]

end Sys2Proof.Machine
end

section
/-! PROOFS. CMUL: what an element stores, and the product of the original sources under the protected overlaps (R191, R192). -/

namespace Sys2Proof.Machine

/-! ### The command -/

/-- CMUL whose three range checks pass completes with the element loop's memory (R191). -/
theorem execCmul_complete {s : State} (h : cmulFault s = none) :
    execCmul s = .next (s.effect .cmul).finish := by
  simp only [execCmul, h, complete, State.effect]

/-- The loop runs from the last element exactly when the destination starts at or above a source (R192). -/
theorem cmulBackward_iff (a b dst : Nat) : cmulBackward a b dst = true ↔ a ≤ dst ∨ b ≤ dst := by
  simp only [cmulBackward, Bool.or_eq_true, decide_eq_true_eq]

theorem cmulRange_eq_ite (d a b dst n : Nat) (m : Mem) :
    cmulRange d a b dst n m =
      if a ≤ dst ∨ b ≤ dst then loopDown n (cmulElement d a b dst) m else loop n (cmulElement d a b dst) m := by
  simp only [cmulRange, cmulBackward_iff]

/-- Settles O31: the range checks are the only checks, and an element reads its four words before its two stores. -/
theorem cmulCompletes : Obligations.CmulCompletes := by
  refine ⟨fun s ha hb hd => execCmul_complete ((cmulFault_none s).2 ⟨ha, hb, hd⟩),
    fun d a b dst m => ⟨fun n => cmulRange_eq_ite d a b dst n m, fun e => ?_⟩⟩
  simp only [cmulElement, Mem.read_store, Mem.storeBits_store]
  refine ⟨?_, ?_, fun i hre him => ?_⟩
  · rw [if_neg (by omega), if_pos trivial]
  · rw [if_pos trivial]
  · rw [if_neg him, if_neg hre]

/-! ### One iteration within a loop -/

/-- The iteration `e` of an ascending loop stands between the iterations below it and those above it. -/
theorem Mem.loop_around {P Q : Nat → Prop} {n e : Nat} {f : Nat → Mem → Mem} (m : Mem) (he : e < n)
    (hbefore : ∀ i < e, ∀ x, Mem.Touches P x (f i x)) (hafter : ∀ i < n, e < i → ∀ x, Mem.Touches Q x (f i x)) :
    ∃ x, Mem.Touches P m x ∧ Mem.Touches Q (f e x) (loop n f m) := by
  induction n with
  | zero => exact absurd he e.not_lt_zero
  | succ n ih =>
    rw [loop_succ]
    obtain he | rfl := Nat.lt_succ_iff_lt_or_eq.1 he
    · obtain ⟨x, hx, hrest⟩ := ih he fun i hi => hafter i (Nat.lt_succ_of_lt hi)
      exact ⟨x, hx, hrest.trans (hafter n n.lt_succ_self he _)⟩
    · exact ⟨loop e f m, Mem.touches_loop m hbefore, .refl Q _⟩

/-- The iteration `e` of a descending loop stands between the iterations above it and those below it. -/
theorem Mem.loopDown_around {P Q : Nat → Prop} {n e : Nat} {f : Nat → Mem → Mem} (m : Mem) (he : e < n)
    (hbefore : ∀ i < n, e < i → ∀ x, Mem.Touches P x (f i x)) (hafter : ∀ i < e, ∀ x, Mem.Touches Q x (f i x)) :
    ∃ x, Mem.Touches P m x ∧ Mem.Touches Q (f e x) (loopDown n f m) := by
  induction n generalizing m with
  | zero => exact absurd he e.not_lt_zero
  | succ n ih =>
    rw [loopDown_succ]
    obtain he | rfl := Nat.lt_succ_iff_lt_or_eq.1 he
    · obtain ⟨x, hx, hrest⟩ := ih (f n m) he fun i hi => hbefore i (Nat.lt_succ_of_lt hi)
      exact ⟨x, (hbefore n n.lt_succ_self he m).trans hx, hrest⟩
    · exact ⟨m, .refl P m, Mem.touches_loopDown _ hafter⟩

/-! ### The protected overlaps -/

/-- The words of the destination CMUL may have written when it comes to element `e`: the later elements' when it runs from the
last element, the earlier elements' when it runs from the first. -/
def cmulWrittenBefore (a b dst n e i : Nat) : Prop :=
  (dst ≤ i ∧ i < dst + 2 * n) ∧ if a ≤ dst ∨ b ≤ dst then dst + 2 * e + 1 < i else i < dst + 2 * e

/-- Element `e` runs on a memory in which only the words of earlier iterations are changed, and no later iteration meets its
own two words. -/
theorem cmulRange_around (d a b dst : Nat) {n e : Nat} (m : Mem) (he : e < n) :
    ∃ x, Mem.Touches (cmulWrittenBefore a b dst n e) m x ∧
      Mem.Touches (fun i => i ≠ dst + 2 * e ∧ i ≠ dst + 2 * e + 1) (cmulElement d a b dst e x) (cmulRange d a b dst n m) := by
  rw [cmulRange_eq_ite]
  unfold cmulWrittenBefore
  split
  · exact Mem.loopDown_around m he
      (fun i hi hei x => cmulElement_touches d a b dst i (by omega) (by omega) x)
      (fun i hi x => cmulElement_touches d a b dst i (by omega) (by omega) x)
  · exact Mem.loop_around m he
      (fun i hi x => cmulElement_touches d a b dst i (by omega) (by omega) x)
      (fun i hi hei x => cmulElement_touches d a b dst i (by omega) (by omega) x)

/-- No earlier iteration has written a word that element `e` reads from a source that keeps its originals (R192). -/
theorem keepsOriginals.not_cmulWrittenBefore {a b dst n src e p : Nat} (h : keepsOriginals a b dst n src)
    (hsrc : src = a ∨ src = b) (he : e < n) (hp : p < 2) : ¬ cmulWrittenBefore a b dst n e (src + 2 * e + p) := by
  unfold cmulWrittenBefore
  rintro ⟨hdst, hdir⟩
  obtain hapart | hbelow | habove := h
  · omega
  · rw [if_pos (by omega)] at hdir
    omega
  · rw [if_neg (by omega)] at hdir
    omega

/-- Settles O55: the element's iteration reads the sources' original words, and its own two words last to the end. -/
theorem cmulGivesTheProductOfTheOriginals : Obligations.CmulGivesTheProductOfTheOriginals := by
  intro d a b dst n m ha hb e he
  obtain ⟨x, hbefore, hafter⟩ := cmulRange_around d a b dst m he
  have hload {src p : Nat} (h : keepsOriginals a b dst n src) (hsrc : src = a ∨ src = b) (hp : p < 2) :
      x.load (src + 2 * e + p) = m.load (src + 2 * e + p) :=
    congrArg decode32 (hbefore.other _ (h.not_cmulWrittenBefore hsrc he hp))
  have hare : x.load (a + 2 * e) = m.load (a + 2 * e) := hload (p := 0) ha (.inl rfl) (by decide)
  have haim : x.load (a + 2 * e + 1) = m.load (a + 2 * e + 1) := hload ha (.inl rfl) (by decide)
  have hbre : x.load (b + 2 * e) = m.load (b + 2 * e) := hload (p := 0) hb (.inr rfl) (by decide)
  have hbim : x.load (b + 2 * e + 1) = m.load (b + 2 * e + 1) := hload hb (.inr rfl) (by decide)
  obtain ⟨hre, him, -⟩ := (cmulCompletes.2 d a b dst x).2 e
  rw [hafter.other _ (by omega), hafter.other _ (by omega), hre, him, hare, haim, hbre, hbim,
    Mem.storeBits_congr hbefore.space, Mem.storeBits_congr hbefore.space]
  exact ⟨rfl, rfl⟩

end Sys2Proof.Machine
end

section
/-! PROOFS. CONV: the words it stores, the accumulator's bins, and the sign and the NaNs of a band's power (R201 to R204). -/

namespace Sys2Proof.Machine

/-! ### The command -/

/-- CONV in Ready whose results lie in OUT completes with the band loop's memory (R201). -/
theorem execConv_complete {s : State} (hready : s.ready = true) (hout : s.outputFits = true) :
    execConv s = .next s.convOut.finish := by
  rw [execConv, if_neg (by simp [hready]), if_neg (by simp [hout]), complete]

/-- A band's word is stored by its own iteration only (R203). -/
theorem convBands_read_band (d : Nat) (buf ktab kdat : Mem) (outoff : Nat) {numk k : Nat} (out : Mem) (hk : k < numk) :
    (convBands d buf ktab kdat outoff numk out).read (outoff + k) =
      out.storeBits d (outoff + k) (bandPower buf kdat (descriptor ktab k)) := by
  obtain ⟨x, hbefore, hafter⟩ := Mem.loop_around (P := fun _ => True) (Q := (· ≠ outoff + k))
    (f := fun k m => m.store d (outoff + k) (bandPower buf kdat (descriptor ktab k))) out hk
    (fun _ _ x => x.touches_store trivial d _) (fun _ _ hki x => x.touches_store (by omega) d _)
  rw [convBands, hafter.other _ (not_not_intro rfl), Mem.read_store, if_pos rfl, Mem.storeBits_congr hbefore.space]

/-! ### The accumulator -/

theorem decode32_zero : decode32 0x00000000 = fpZero := by decide +kernel

theorem accumulate_empty (buf kdat : Mem) (off ptr : Nat) :
    accumulate buf kdat off 0 ptr = { f1 := fpZero, f2 := fpZero } := rfl

/-- The last two words of a run of even length are its last bin (R202). -/
theorem accumulate_add_two (buf kdat : Mem) (off ptr : Nat) {len : Nat} (h : len % 2 = 0) :
    accumulate buf kdat off (len + 2) ptr =
      { f1 := add32 (accumulate buf kdat off len ptr).f1
          (sub32 (mul32 (buf.load (off + len)) (kdat.load (ptr + len)))
            (mul32 (buf.load (off + len + 1)) (kdat.load (ptr + len + 1))))
        f2 := add32 (accumulate buf kdat off len ptr).f2
          (add32 (mul32 (buf.load (off + len)) (kdat.load (ptr + len + 1)))
            (mul32 (buf.load (off + len + 1)) (kdat.load (ptr + len)))) } := by
  have hlen : 2 * (len / 2) = len := Nat.mul_div_cancel' (Nat.dvd_of_mod_eq_zero h)
  rw [accumulate, Nat.add_div_right len two_pos, loop_succ, ← accumulate, accumulateBin, hlen]

/-- Settles O32: each band's word is stored once, and the accumulator's step is one bin. -/
theorem convStoresEveryBandPower : Obligations.ConvStoresEveryBandPower := by
  refine ⟨fun s hready hfits => ?_, fun buf kdat off ptr => ⟨?_, fun len hlen => accumulate_add_two buf kdat off ptr hlen⟩⟩
  · refine ⟨s.convOut.finish, execConv_complete hready (s.outputFits_iff.2 hfits), fun k hk => ?_, fun a ha => ?_, rfl⟩
    · exact convBands_read_band s.draws s.buf s.ktab s.kdat s.outoff.toNat s.out hk
    · exact s.convOut_touches.other a fun hin => by rw [State.outputWord] at hin; omega
  · rw [accumulate_empty, decode32_zero]

/-! ### The sign of a power -/

/-- A NaN, or a datum whose sign is plus: not negative and not −0.0. -/
def Fp.NanOrPlusSigned (x : Fp) : Prop := x = .nan ∨ x = .inf false ∨ ∃ k, x = .fin false k

theorem roundTo_nanOrPlusSigned (f : Format) (k sh : Nat) : (roundTo f false k sh).NanOrPlusSigned := by
  rw [roundTo_eq]
  split
  · exact .inr (.inr ⟨_, rfl⟩)
  · exact .inr (.inl rfl)

/-- A square has the sign of like signs. -/
theorem mul32_self_nanOrPlusSigned (x : Fp) : (mul32 x x).NanOrPlusSigned := by
  cases x with
  | nan => exact .inl rfl
  | inf a => exact .inr (.inl (by rw [mul32, Fp.mul, Bool.xor_self]))
  | fin a k =>
    rw [mul32, Fp.mul, Bool.xor_self]
    exact roundTo_nanOrPlusSigned binary32 (k * k) 1074

theorem add32_nanOrPlusSigned {x y : Fp} (hx : x.NanOrPlusSigned) (hy : y.NanOrPlusSigned) : (add32 x y).NanOrPlusSigned := by
  obtain rfl | rfl | ⟨j, rfl⟩ := hx
  · exact .inl rfl
  · obtain rfl | rfl | ⟨k, rfl⟩ := hy
    · exact .inl rfl
    · exact .inr (.inl rfl)
    · exact .inr (.inl rfl)
  · obtain rfl | rfl | ⟨k, rfl⟩ := hy
    · exact .inl rfl
    · exact .inr (.inl rfl)
    · rw [add32, Fp.add, if_pos rfl]
      exact roundTo_nanOrPlusSigned binary32 (j + k) 0

theorem Accumulator.power_nanOrPlusSigned (acc : Accumulator) : acc.power.NanOrPlusSigned :=
  add32_nanOrPlusSigned (mul32_self_nanOrPlusSigned acc.f1) (mul32_self_nanOrPlusSigned acc.f2)

/-! ### A NaN in a run -/

@[simp] theorem nan_add32 (x : Fp) : add32 .nan x = .nan := rfl
@[simp] theorem add32_nan (x : Fp) : add32 x .nan = .nan := by cases x <;> rfl
@[simp] theorem nan_mul32 (x : Fp) : mul32 .nan x = .nan := rfl
@[simp] theorem mul32_nan (x : Fp) : mul32 x .nan = .nan := by cases x <;> rfl
@[simp] theorem nan_sub32 (x : Fp) : sub32 .nan x = .nan := rfl
@[simp] theorem sub32_nan (x : Fp) : sub32 x .nan = .nan := add32_nan x

theorem Accumulator.power_of_f1_nan {acc : Accumulator} (h : acc.f1 = .nan) : acc.power = .nan := by
  rw [Accumulator.power, h, nan_mul32, nan_add32]

/-- An ascending loop ends with what one of its iterations establishes and every iteration keeps. -/
theorem loop_establishes {α : Type} (p : α → Prop) {n b : Nat} {f : Nat → α → α} (a : α) (hb : b < n)
    (hset : ∀ x, p (f b x)) (hkeep : ∀ i x, p x → p (f i x)) : p (loop n f a) := by
  induction n with
  | zero => exact absurd hb b.not_lt_zero
  | succ n ih =>
    rw [loop_succ]
    obtain hb | rfl := Nat.lt_succ_iff_lt_or_eq.1 hb
    · exact hkeep n _ (ih hb)
    · exact hset _

/-- Each of a bin's four words enters its real contribution (R202). -/
theorem accumulateBin_f1_nan {buf kdat : Mem} {off ptr b : Nat}
    (h : buf.load (off + 2 * b) = .nan ∨ buf.load (off + 2 * b + 1) = .nan ∨
      kdat.load (ptr + 2 * b) = .nan ∨ kdat.load (ptr + 2 * b + 1) = .nan) (acc : Accumulator) :
    (accumulateBin buf kdat off ptr b acc).f1 = .nan := by
  rw [accumulateBin]
  obtain h | h | h | h := h <;> simp [h]

theorem accumulateBin_keeps_f1_nan (buf kdat : Mem) (off ptr b : Nat) {acc : Accumulator} (h : acc.f1 = .nan) :
    (accumulateBin buf kdat off ptr b acc).f1 = .nan := by
  rw [accumulateBin, h, nan_add32]

/-- Settles O56: a sum of squares has no negative value, and a NaN of a bin stays in the first accumulator. -/
theorem bandPowerIsNeverNegative : Obligations.BandPowerIsNeverNegative := by
  refine fun buf kdat d => ⟨fun hlen => ?_, Accumulator.power_nanOrPlusSigned _, fun b hb hnan => ?_⟩
  · rw [bandPower, hlen, accumulate_empty]
    decide +kernel
  · have hf1 : (accumulate buf kdat d.off d.len d.ptr).f1 = .nan :=
      loop_establishes (fun acc : Accumulator => acc.f1 = .nan) _ hb (accumulateBin_f1_nan hnan)
        fun i _ => accumulateBin_keeps_f1_nan buf kdat d.off d.ptr i
    exact Accumulator.power_of_f1_nan hf1

end Sys2Proof.Machine
end

section
/-! PROOFS. PACK and XFORM: the words of the packed frame, and the composite command (R216, R217, R220, R221). -/

namespace Sys2Proof.Machine

/-! ### The packed frame -/

/-- An ascending loop of writes at different words leaves in each the word its own iteration has written. -/
theorem Mem.loop_write_read {n k : Nat} {dst : Nat → Nat} (hdst : dst.Injective) (v : Nat → Word) (m : Mem) (hk : k < n) :
    (loop n (fun i x => x.write (dst i) (v i)) m).read (dst k) = v k := by
  obtain ⟨x, -, hafter⟩ := Mem.loop_around (P := fun _ => True) (Q := (· ≠ dst k)) (f := fun i x => x.write (dst i) (v i)) m
    hk (fun i _ x => x.touches_write trivial (v i)) (fun i _ hki x => x.touches_write (P := (· ≠ dst k)) (hdst.ne hki.ne') (v i))
  rw [hafter.other _ (not_not_intro rfl), Mem.read_write_same]

/-- The first half of the chunk lies in the second half of BUF's frame, +0.0 where the chunk has ended (R216). -/
theorem packFrame_read_upper (inp : Mem) (inoff inlen : Nat) {h i : Nat} (buf : Mem) (hi : i < h) :
    (packFrame inp inoff inlen h buf).read (h + i) = if i < inlen then inp.read (inoff + i) else zeroWord := by
  have havailable : i < min h inlen ↔ i < inlen := by omega
  calc (packFrame inp inoff inlen h buf).read (h + i)
      = (loop h (fun j x => packWord inp (h + j) (inoff + j) (decide (j < min h inlen)) x) buf).read (h + i) :=
        (Mem.touches_loop (P := (· < h)) _ fun j hj x => x.touches_write_lt hj _).other _ (by omega)
    _ = if decide (i < min h inlen) then inp.read (inoff + i) else zeroWord :=
        Mem.loop_write_read (add_right_injective h) _ buf hi
    _ = if i < inlen then inp.read (inoff + i) else zeroWord := by simp only [decide_eq_true_eq, havailable]

/-- The second half of the chunk lies in the first half of BUF's frame, +0.0 where the chunk has ended (R216). -/
theorem packFrame_read_lower (inp : Mem) (inoff inlen : Nat) {h i : Nat} (buf : Mem) (hi : i < h) :
    (packFrame inp inoff inlen h buf).read i = if h + i < inlen then inp.read (inoff + (h + i)) else zeroWord := by
  have havailable : i < min h (inlen - min h inlen) ↔ h + i < inlen := by omega
  calc (packFrame inp inoff inlen h buf).read i
      = if decide (i < min h (inlen - min h inlen)) then inp.read (inoff + h + i) else zeroWord :=
        Mem.loop_write_read Function.injective_id _ _ hi
    _ = if h + i < inlen then inp.read (inoff + (h + i)) else zeroWord := by
        simp only [decide_eq_true_eq, havailable, Nat.add_assoc]

/-! ### The commands -/

/-- PACK in Ready whose samples lie in IN completes with the packed frame (R216). -/
theorem execPack_complete {s : State} (hready : s.ready = true) (hin : s.inputFits = true) :
    execPack s = .next s.packBuf.finish := by
  rw [execPack, if_neg (by simp [hready]), if_neg (by simp [hin]), complete]

/-- XFORM in Ready whose samples and results lie in their memories completes with its three parts done (R220). -/
theorem execXform_complete {s : State} (hready : s.ready = true) (hin : s.inputFits = true) (hout : s.outputFits = true) :
    execXform s = .next (s.packBuf.rfftBuf .forward s.cfgLogn.toNat).convOut.finish := by
  rw [execXform, if_neg (by simp [hready]), if_neg (by simp [hin]), if_neg (by simp [hout]), complete]

/-- Settles O33: a frame position below H lies H further up, any other H further down. -/
theorem packRotatesTheFrame : Obligations.PackRotatesTheFrame := by
  intro s hready hfits hlogn
  have hF : s.fftSize = 2 * (s.fftSize / 2) := by
    have hpred : 2 * 2 ^ (s.cfgLogn.toNat - 1) = s.fftSize := two_pow_pred hlogn
    omega
  refine ⟨s.packBuf.finish, execPack_complete hready (s.inputFits_iff.2 hfits), fun p hp => ?_,
    fun a ha => s.packBuf_touches.other a (Nat.not_lt.2 ha), rfl⟩
  rw [State.finish_buf, State.packBuf_buf]
  obtain hlow | hhigh := Nat.lt_or_ge p (s.fftSize / 2)
  · rw [Nat.mod_eq_of_lt (by omega), Nat.add_comm p]
    exact packFrame_read_upper s.inp s.inoff.toNat s.inlen.toNat s.buf hlow
  · obtain ⟨i, rfl⟩ := Nat.exists_eq_add_of_le hhigh
    have hword : (s.fftSize / 2 + i + s.fftSize / 2) % s.fftSize = i := by
      rw [Nat.add_right_comm, ← Nat.two_mul, ← hF, Nat.add_mod_left, Nat.mod_eq_of_lt (by omega)]
    rw [hword]
    exact packFrame_read_lower s.inp s.inoff.toNat s.inlen.toNat s.buf (by omega)

/-- Settles O34: the state is that of the three parts, the transform's and the convolution's draws counted. -/
theorem xformCompletes : Obligations.XformCompletes := fun s hready hin hout =>
  ⟨_, execXform_complete hready (s.inputFits_iff.2 hin) (s.outputFits_iff.2 hout), rfl, rfl, rfl⟩

/-! ### XFORM and its three commands -/

/-- RFFT.F of a legal length completes with the transform of BUF (R171). -/
theorem execRfftF_complete {n : Nat} {s : State} (h1 : 1 ≤ n) (h : n ≤ s.params.lognMax) :
    execRfftF n s = .next (s.rfftBuf .forward n).finish :=
  runRfft_legalLength h1 h .forward _

/-- A write of a command's own word to CMD, with nothing running or recorded, runs that command (R93). -/
theorem step_encode {s t : State} {i : Instr} {rest : List HostAction} (h : s.host = .write (regAddr .cmd) (encode i) :: rest)
    (hb : s.busy = false) (he : s.err = false) (hwf : i.wellFormed = true)
    (hx : exec i (State.accept { s with host := rest }) = .next t) : step s = .next t := by
  rw [step_writeCmd h hb, issue_of_decode (s := { s with host := rest }) he (decodeReadsBackEveryCommand i hwf), hx]

/-- Settles O35: READY = 1 guarantees the length (R234), no command moves a register that a later one checks, and the parts of
XFORM take the draws the three commands take. -/
theorem xformEqualsItsThreeCommands : Obligations.XformEqualsItsThreeCommands := by
  intro s rest ⟨_, hbusy, _, _, htable⟩ hready herr hin hout
  obtain ⟨⟨hpos, hlogn⟩, -⟩ := htable hready
  have hin := s.inputFits_iff.2 hin
  have hout := s.outputFits_iff.2 hout
  have hlognFits : lognFits s.cfgLogn.toNat = true := decide_eq_true s.cfgLogn.isLt
  exact ⟨_, _, _, step_encode (i := .pack) rfl hbusy herr rfl (execPack_complete hready hin),
    step_encode (i := .rfftF s.cfgLogn.toNat) rfl rfl herr hlognFits (execRfftF_complete hpos hlogn),
    step_encode (i := .conv) rfl rfl herr rfl (execConv_complete hready hout), rfl, herr,
    step_encode (i := .xform) rfl hbusy herr rfl (execXform_complete hready hin hout)⟩

end Sys2Proof.Machine
end

section
/-! PROOFS. NOP, KCOMMIT and KFREQ, and what READY = 1 guarantees (R231, R233, R234, R236). -/

namespace Sys2Proof.Machine

open Sys2Proof.Config

/-! ### What READY = 1 guarantees -/

/-- Settles O21: the invariant's table meets R233's conditions, and the frame's F + 2 words fit BUF. -/
theorem readyTableKeepsConvInRange : Obligations.ReadyTableKeepsConvInRange := by
  intro s ⟨_, _, _, _, htable⟩ hready k hk
  obtain ⟨⟨hpos, hlogn⟩, -, hlegal⟩ := htable hready
  obtain ⟨heven, hlen, hoff, hptr⟩ := (Descriptor.legal_iff ..).1 (hlegal k hk)
  exact ⟨heven, hlen, hoff, Params.length_add_two_le_bufw hpos hlogn, hptr⟩

/-! ### KCOMMIT -/

/-- A descriptor is refused when it breaks one of the four conditions of R233. -/
theorem Descriptor.legal_eq_false_iff (d : Descriptor) (fftSize kdw : Nat) :
    d.legal fftSize kdw = false ↔
      d.len % 2 = 1 ∨ fftSize < d.len ∨ fftSize + 2 < d.off + d.len ∨ kdw < d.ptr + d.len := by
  rw [← Bool.not_eq_true, Descriptor.legal_iff]
  omega

section
variable {s : State}

/-! The outcome of each check of R233, the checks before it passed. -/

theorem execKcommit_badLogn (h : s.cfgLogn.toNat < 1 ∨ s.params.lognMax < s.cfgLogn.toNat) :
    execKcommit s = .next (s.withFault 5 1) :=
  if_pos h

variable (hl1 : 1 ≤ s.cfgLogn.toNat) (hl : s.cfgLogn.toNat ≤ s.params.lognMax)
include hl1 hl

theorem execKcommit_badNumk (h : s.cfgNumk.toNat < 1 ∨ s.params.kmax < s.cfgNumk.toNat) :
    execKcommit s = .next (s.withFault 5 2) :=
  (if_neg (by omega)).trans (if_pos h)

variable (hn1 : 1 ≤ s.cfgNumk.toNat) (hn : s.cfgNumk.toNat ≤ s.params.kmax)
include hn1 hn

theorem execKcommit_badKernel {k : Nat} (h : s.badKernel = some k) :
    execKcommit s = .next (s.withFault 6 (BitVec.ofNat 32 k)) := by
  rw [execKcommit, if_neg (by omega), if_neg (by omega), h]
  rfl

theorem execKcommit_complete (h : s.badKernel = none) : execKcommit s = .next s.markReady.finish := by
  rw [execKcommit, if_neg (by omega), if_neg (by omega), h, complete]

end

/-- Settles O36: the two configuration checks, then the table, whose lowest illegal descriptor is the one reported. -/
theorem kcommitChecksTheWholeTable : Obligations.KcommitChecksTheWholeTable := by
  refine fun s => ⟨execKcommit_badLogn, fun hl1 hl => ⟨execKcommit_badNumk hl1 hl, fun hn1 hn => ⟨fun k hk hbad hlow => ?_,
    fun hlegal => ?_⟩⟩⟩
  · have hillegal : (descriptor s.ktab k).legal s.fftSize s.params.kdw = false := (Descriptor.legal_eq_false_iff ..).2 hbad
    exact execKcommit_badKernel hl1 hl hn1 hn (State.badKernel_eq hk hillegal hlow)
  · have hnone : s.badKernel = none :=
      State.badKernel_none.2 fun k hk => (Descriptor.legal_iff ..).2 (hlegal k hk)
    exact execKcommit_complete hl1 hl hn1 hn hnone

/-! ### NOP -/

/-- NOP's word is ignored while ERR = 1 (R265); otherwise BUSY rises and falls. -/
theorem issue_nop {s : State} (hb : s.busy = false) : issue 0x00000000 s = .next s := by
  by_cases he : s.err = true
  · exact if_pos he
  · have hfinish : s.accept.finish = s := by rw [State.finish, ← hb]; rfl
    calc issue 0x00000000 s
        = exec .nop s.accept := issue_of_decode (by simpa using he) (decodeReadsBackEveryCommand .nop rfl)
      _ = .next s.accept.finish := rfl
      _ = .next s := by rw [hfinish]

/-- Settles O28: completion lowers BUSY only, and an issue between commands finds it low. -/
theorem nopChangesNothing : Obligations.NopChangesNothing := fun s =>
  ⟨rfl, fun rest hb h => (step_writeCmd h hb).trans (issue_nop (s := { s with host := rest }) hb)⟩

/-! ### KFREQ -/

/-- Settles O37: the two checks in their order, and the CF word is word 3 of its descriptor. -/
theorem kfreqReadsTheBandFrequency : Obligations.KfreqReadsTheBandFrequency := fun _ =>
  ⟨fun hready hidx => (if_neg (by simp [hready])).trans (if_neg (Nat.not_le.2 hidx)), fun hstale => if_pos hstale,
    fun hready hidx => (if_neg (by simp [hready])).trans (if_pos hidx)⟩

end Sys2Proof.Machine
end

section
/-! PROOFS. How READY changes, and what it matters to (R26, R235). -/

namespace Sys2Proof.Machine

open Sys2Proof.Config

/-! ### The rule of R235 -/

/-- R235's table for one event: READY goes from `r` to `r'`, cleared by a stale event, set by a commit that passes, and
unchanged by anything else. -/
def readyRule (stale commit : Prop) (r r' : Bool) : Prop :=
  (stale → r' = false) ∧ (commit → r' = true) ∧ (¬ stale → ¬ commit → r' = r)

section
variable {stale commit : Prop} {r r' : Bool}

theorem readyRule.cleared (hs : stale) (hc : ¬ commit) : readyRule stale commit r false :=
  ⟨fun _ => rfl, fun h => absurd h hc, fun h => absurd hs h⟩

theorem readyRule.set (hs : ¬ stale) (hc : commit) : readyRule stale commit r true :=
  ⟨fun h => absurd h hs, fun _ => rfl, fun _ h => absurd hc h⟩

theorem readyRule.kept (hs : ¬ stale) (hc : ¬ commit) : readyRule stale commit r r :=
  ⟨fun h => absurd h hs, fun h => absurd h hc, fun _ _ => rfl⟩

theorem readyRule.congr {stale' commit' : Prop} (h : readyRule stale commit r r') (hs : stale' ↔ stale)
    (hc : commit' ↔ commit) : readyRule stale' commit' r r' := by
  rwa [readyRule, hs, hc]

end

/-! ### Commands -/

/-- A passed KCOMMIT sets READY; no other command writes it, and a fault does not (R233, R262). -/
theorem exec_ready {i : Instr} {s t : State} (he : s.err = false) (h : exec i s = .next t) :
    readyRule False (i = .kcommit ∧ t.err = false) s.ready t.ready := by
  obtain ⟨code, info, rfl⟩ | ⟨-, rfl⟩ := exec_next_cases h
  · exact .kept id fun ⟨_, herr⟩ => by simp at herr
  · by_cases hi : i = .kcommit
    · subst hi
      exact .set id ⟨rfl, he⟩
    · rw [State.finish_ready, State.effect_ready hi]
      exact .kept id fun ⟨hk, _⟩ => hi hk

/-- 0x07000000 is KCOMMIT's word and no other command's (R97). -/
theorem decode_kcommit_iff {w : Word} {i : Instr} (h : decode w = .ok i) : i = .kcommit ↔ w = 0x07000000 := by
  constructor
  · rintro rfl
    exact (decodedWordIsTheCommandsOwn w _ h).2.symm
  · rintro rfl
    exact Except.ok.inj (h.symm.trans (decodeReadsBackEveryCommand .kcommit rfl))

/-- An ignored command and an illegal word leave READY (R96, R265). -/
theorem issue_ready {w : Word} {s t : State} (h : issue w s = .next t) :
    readyRule False (w = 0x07000000 ∧ s.err = false ∧ t.err = false) s.ready t.ready := by
  obtain ⟨he, rfl⟩ | ⟨-, rfl⟩ | ⟨he, i, hd, hx⟩ := issue_next_cases h
  · exact .kept id fun ⟨_, hn, _⟩ => by simp [he] at hn
  · exact .kept id fun ⟨_, _, hn⟩ => by simp at hn
  · exact (exec_ready (s := s.accept) he hx).congr Iff.rfl (by simp [decode_kcommit_iff hd, he])

/-! ### The host's accesses -/

theorem writeReg_ready {r : Reg} {v : Word} {s t : State} (h : writeReg r v s = .next t) :
    readyRule (r = .cfgLogn ∨ r = .cfgNumk) (r = .cmd ∧ v = 0x07000000 ∧ s.err = false ∧ t.err = false) s.ready t.ready := by
  cases r with
  | cmd => exact (issue_ready h).congr (by simp) (by simp)
  | cfgLogn | cfgNumk =>
    cases h
    exact .cleared (by simp) (by simp)
  | status | errcode | errinfo | errclr | opa | opb | opd | len | idx | res | inoff | inlen | outoff =>
    cases h
    exact .kept (by simp) (by simp)

theorem writeMem_readyRule (sp : Space) (i : Nat) (v : Word) (s : State) :
    readyRule (sp = .ktab ∨ sp = .kdat) False s.ready (writeMem sp i v s).ready := by
  cases sp with
  | ktab | kdat => exact .cleared (by simp) id
  | buf | inp | out => exact .kept (by simp) id

theorem hostWrite_ready {a v : Word} {s t : State} (h : hostWrite a v s = .next t) :
    readyRule (staleEvent s.params (.write a v))
      (target s.params a = .reg .cmd ∧ v = 0x07000000 ∧ s.err = false ∧ t.err = false) s.ready t.ready := by
  unfold hostWrite at h
  cases ht : target s.params a with
  | reg r =>
    simp only [ht] at h
    exact (writeReg_ready h).congr (by simp [staleEvent, ht]) (by simp)
  | word sp i =>
    simp only [ht] at h
    cases h
    exact (writeMem_readyRule sp i v s).congr (by simp [staleEvent, ht]) (by simp)
  | absent =>
    simp only [ht] at h
    cases h
    exact .kept (by simp [staleEvent, ht]) (by simp)

/-- R235 for the host's next action, whatever it is. -/
theorem step_ready {s t : State} (h : step s = .next t) :
    readyRule (∃ a rest, s.host = a :: rest ∧ staleEvent s.params a) (commitPasses s t) s.ready t.ready := by
  cases hh : s.host with
  | nil =>
    cases (step_idle hh).symm.trans h
    exact .kept (by simp) (by simp [commitPasses, hh])
  | cons act rest =>
    rw [step_cons hh] at h
    cases act with
    | write a v =>
      simp only [hostAct] at h
      split at h
      · cases h
      · exact (hostWrite_ready h).congr (by simp) (by simp [commitPasses, hh, and_assoc, and_left_comm])
    | read a =>
      simp only [hostAct] at h
      split at h
      · cases h
      · cases h
        exact .kept (by simp [staleEvent]) (by simp [commitPasses, hh])
    | narrow a => cases h
    | reset =>
      cases h
      exact .cleared (by simp [staleEvent]) (by simp [commitPasses, hh])

/-! ### What READY matters to -/

/-- The Ready-only commands check READY before anything else (R235, R254). -/
theorem exec_stale {i : Instr} {s : State} (hi : readyOnly i) (h : s.ready = false) :
    exec i s = .next (s.withFault 3 (encode i)) := by
  obtain rfl | rfl | rfl | rfl := hi <;> exact if_pos h

/-- READY only passes through a command valid in both states, or is set by it: apart from READY the outcome does not depend on
it. -/
theorem exec_setReady {i : Instr} (hi : ¬ readyOnly i) (r : Bool) (s : State) :
    onNext State.markStale (exec i { s with ready := r }) = onNext State.markStale (exec i s) := by
  cases i with
  | nop => rfl
  | cfftF _ | cfftI _ =>
    simp only [exec, execCfftF, execCfftI, runCfft, onNext_ite]
    rfl
  | rfftF _ | rfftI _ =>
    simp only [exec, execRfftF, execRfftI, runRfft, onNext_ite]
    rfl
  | cmul =>
    have hfault : cmulFault { s with ready := r } = cmulFault s := rfl
    simp only [exec, execCmul, hfault]
    cases cmulFault s <;> rfl
  | kcommit =>
    have hbad : State.badKernel { s with ready := r } = s.badKernel := rfl
    simp only [exec, execKcommit, hbad, onNext_ite]
    cases s.badKernel <;> rfl
  | conv | pack | xform | kfreq => exact absurd (by simp [readyOnly]) hi

/-- Settles O20: the step's rule, the first check of the Ready-only commands, and the others' indifference to READY. -/
theorem readyChangesOnlyAsTheTableSays : Obligations.ReadyChangesOnlyAsTheTableSays := by
  refine ⟨fun s t h => ?_, fun i s hi => exec_stale hi, fun i s t u hi ht hu => ?_⟩
  · obtain ⟨hclear, hset, hkeep⟩ := step_ready h
    exact ⟨fun a rest hh hs => hclear ⟨a, rest, hh, hs⟩, hset, fun hs => hkeep fun ⟨a, rest, hh, ha⟩ => hs a rest hh ha⟩
  · have hboth := (exec_setReady hi false s).trans (exec_setReady hi true s).symm
    rw [ht, hu] at hboth
    exact Host.Outcome.next.inj hboth

end Sys2Proof.Machine
end

section
/-! PROOFS. What a fault leaves, and the return from it (R262, R265, R266). -/

namespace Sys2Proof.Machine

/-! ### What a fault leaves -/

/-- A command that ends with ERR = 1 has faulted, and a fault writes ERR, CODE, INFO and BUSY only (R262). -/
theorem exec_eq_withFault {i : Instr} {s t : State} (he : s.err = false) (h : exec i s = .next t) (hf : t.err = true) :
    t = s.withFault t.errCode t.errInfo := by
  obtain ⟨code, info, rfl⟩ | ⟨-, rfl⟩ := exec_next_cases h
  · rfl
  · obtain ⟨herr, -⟩ := s.effect_fault i
    simp [herr, he] at hf

/-- Settles O23: a fault is the one end of a command with ERR = 1, and BUSY, raised at acceptance, is low after it. -/
theorem faultingCommandChangesNothingElse : Obligations.FaultingCommandChangesNothingElse := by
  refine ⟨fun i s t => exec_eq_withFault, fun w s t he h hf => ?_⟩
  obtain ⟨hn, -⟩ | ⟨-, rfl⟩ | ⟨-, i, -, hx⟩ := issue_next_cases h
  · simp [he] at hn
  · rfl
  · exact exec_eq_withFault (s := s.accept) he hx hf

/-! ### ERRCLR -/

/-- A write of any value to ERRCLR is the return from the fault (R27, R266). -/
theorem step_writeErrclr {s : State} {v : Word} {rest : List HostAction}
    (h : s.host = .write (regAddr .errclr) v :: rest) (hb : s.busy = false) :
    step s = .next (State.clearFault { s with host := rest }) := by
  rw [step_write h hb, hostWrite_regAddr]
  rfl

/-- Clearing a fault leaves the state it was raised in, when that state had none recorded and BUSY low (R266). -/
theorem State.clearFault_withFault {s : State} (hb : s.busy = false) (he : s.err = false) (hc : s.errCode = 0)
    (hi : s.errInfo = 0) (code : BitVec 4) (info : Word) : (s.withFault code info).clearFault = s := by
  rw [State.withFault, State.clearFault]
  congr 1 <;> symm <;> assumption

/-- Settles O15: the fault changed nothing but what ERRCLR clears, and BUSY was low. -/
theorem errclrReturnsFromTheFault : Obligations.ErrclrReturnsFromTheFault := by
  refine ⟨fun s v rest hb h => step_writeErrclr h hb, fun s t w v rest hb he hc hi h hstep hf => ?_,
    fun s w rest hb he h => (step_writeCmd h hb).trans (if_pos he)⟩
  rw [step_writeCmd h hb] at hstep
  have ht : t = State.withFault { s with host := .write (regAddr .errclr) v :: rest } t.errCode t.errInfo :=
    faultingCommandChangesNothingElse.2 w _ t he hstep hf
  have hhost : t.host = .write (regAddr .errclr) v :: rest := by rw [ht]; rfl
  have hbusy : t.busy = false := by rw [ht]; rfl
  rw [step_writeErrclr hhost hbusy, ht]
  exact congrArg Host.Outcome.next
    (State.clearFault_withFault (s := { s with host := rest }) hb he hc hi t.errCode t.errInfo)

end Sys2Proof.Machine
end

section
/-! PROOFS. Which command raises which fault, and for which cause (R251 to R255). -/

namespace Sys2Proof.Machine

/-! ### BAD_LENGTH and NOT_READY -/

/-- Settles O25: the length is the transforms' only check. -/
theorem badLengthIsRaisedByTheTransforms : Obligations.BadLengthIsRaisedByTheTransforms := fun _ _ =>
  ⟨fun h => ⟨runCfft_badLength h .forward _, runCfft_badLength h .inverse _⟩,
    fun h => ⟨runRfft_badLength h .forward _, runRfft_badLength h .inverse _⟩⟩

/-- Settles O26: the four commands check READY first, and their words are their encodings. -/
theorem notReadyIsTheFirstCheck : Obligations.NotReadyIsTheFirstCheck := by
  intro s h
  refine ⟨?_, ?_, ?_, ?_⟩ <;> exact exec_stale (by simp [readyOnly]) h

/-! ### RANGE -/

theorem State.inputFits_eq_false_iff (s : State) : s.inputFits = false ↔ s.params.inw < s.inoff.toNat + s.inlen.toNat := by
  rw [← Bool.not_eq_true, State.inputFits_iff, Nat.not_le]

theorem State.outputFits_eq_false_iff (s : State) :
    s.outputFits = false ↔ s.params.outw < s.outoff.toNat + s.cfgNumk.toNat := by
  rw [← Bool.not_eq_true, State.outputFits_iff, Nat.not_le]

/-- CMUL reports the first range that leaves BUF (R191). -/
theorem execCmul_fault {s : State} {info : Word} (h : cmulFault s = some info) :
    exec .cmul s = .next (s.withFault 4 info) := by
  simp only [exec, execCmul, h]
  rfl

/-- A range check fails exactly when the exact sum exceeds the size (R104). -/
theorem not_rangeFits_iff (base count size : Nat) : (!rangeFits base count size) = true ↔ size < base + count := by
  simp [rangeFits]

section
variable {s : State} (hready : s.ready = true)
include hready

/-! The range checks of the Ready-only commands, the checks before them passed. -/

theorem exec_badInput {i : Instr} (hi : i = .pack ∨ i = .xform) (h : s.inputFits = false) :
    exec i s = .next (s.withFault 4 4) := by
  obtain rfl | rfl := hi <;> exact (if_neg (by simp [hready])).trans (if_pos h)

theorem execXform_badOutput (hin : s.inputFits = true) (h : s.outputFits = false) :
    exec .xform s = .next (s.withFault 4 5) :=
  (if_neg (by simp [hready])).trans ((if_neg (by simp [hin])).trans (if_pos h))

theorem execConv_badOutput (h : s.outputFits = false) : exec .conv s = .next (s.withFault 4 5) :=
  (if_neg (by simp [hready])).trans (if_pos h)

end

/-- Settles O27: each check, the ones before it passed, on the sums of the registers' numbers. -/
theorem rangeFaultsOnExactSums : Obligations.RangeFaultsOnExactSums := by
  intro s
  have hfits {base : Nat} (h : base + 2 * s.len.toNat ≤ s.params.bufw) :
      ¬ (!rangeFits base (2 * s.len.toNat) s.params.bufw) = true := by
    rwa [not_rangeFits_iff, Nat.not_lt]
  refine ⟨fun ha => execCmul_fault ?_, fun ha hb => execCmul_fault ?_, fun ha hb hd => execCmul_fault ?_,
    fun hready hin => ?_, fun hready hout => ?_, fun hready hin hout => ?_, (kfreqReadsTheBandFrequency s).2.2⟩
  · exact if_pos ((not_rangeFits_iff ..).2 ha)
  · exact (if_neg (hfits ha)).trans (if_pos ((not_rangeFits_iff ..).2 hb))
  · exact (if_neg (hfits ha)).trans ((if_neg (hfits hb)).trans (if_pos ((not_rangeFits_iff ..).2 hd)))
  · have hin := s.inputFits_eq_false_iff.2 hin
    exact ⟨exec_badInput hready (.inl rfl) hin, exec_badInput hready (.inr rfl) hin⟩
  · exact execConv_badOutput hready (s.outputFits_eq_false_iff.2 hout)
  · exact execXform_badOutput hready (s.inputFits_iff.2 hin) (s.outputFits_eq_false_iff.2 hout)

/-! ### The causes of R251 -/

/-- A command whose checks pass does its effect and ends (R93 steps 5 and 6). -/
theorem exec_of_passes {i : Instr} {s : State} (h : s.passes i) : exec i s = .next (s.effect i).finish := by
  cases i with
  | nop => rfl
  | cfftF n | cfftI n => exact runCfft_legalLength h _ _
  | rfftF n | rfftI n =>
    obtain ⟨hpos, hle⟩ := h
    exact runRfft_legalLength hpos hle _ _
  | cmul => exact execCmul_complete h
  | conv =>
    obtain ⟨hready, hout⟩ := h
    exact execConv_complete hready hout
  | pack =>
    obtain ⟨hready, hin⟩ := h
    exact execPack_complete hready hin
  | xform =>
    obtain ⟨hready, hin, hout⟩ := h
    exact execXform_complete hready hin hout
  | kcommit =>
    obtain ⟨⟨hl1, hl⟩, ⟨hn1, hn⟩, hlegal⟩ := h
    exact execKcommit_complete hl1 hl hn1 hn (State.badKernel_none.2 hlegal)
  | kfreq =>
    obtain ⟨hready, hidx⟩ := h
    exact (kfreqReadsTheBandFrequency s).1 hready hidx

/-- A command that ends with ERR = 1 has failed one of its checks. -/
theorem not_passes_of_err {i : Instr} {s t : State} (he : s.err = false) (h : exec i s = .next t) (hf : t.err = true) :
    ¬ s.passes i := by
  intro hpass
  cases (exec_of_passes hpass).symm.trans h
  obtain ⟨herr, -⟩ := s.effect_fault i
  simp [herr, he] at hf

/-- A word that does not decode is illegal and faults with itself (R96, R252). -/
theorem issue_undecodable {w : Word} {s t : State} (he : s.err = false) (hd : ∃ e, decode w = .error e)
    (h : issue w s = .next t) : illegalWord w ∧ t = s.withFault 1 w := by
  obtain ⟨e, hd⟩ := hd
  have hw : illegalWord w := by
    by_contra hlegal
    obtain ⟨i, hi⟩ := (exists_decode_iff_not_illegalWord w).2 hlegal
    cases hd.symm.trans hi
  cases (issue_of_illegalWord he hw).symm.trans h
  exact ⟨hw, rfl⟩

/-- The faults of KCOMMIT (R233): a configuration register, or the lowest descriptor that breaks a condition. -/
theorem execKcommit_fault {s : State} (h : ¬ s.tableValid) :
    ((s.cfgLogn.toNat < 1 ∨ s.params.lognMax < s.cfgLogn.toNat) ∧ exec .kcommit s = .next (s.withFault 5 1)) ∨
      ((s.cfgNumk.toNat < 1 ∨ s.params.kmax < s.cfgNumk.toNat) ∧ exec .kcommit s = .next (s.withFault 5 2)) ∨
      ∃ k, s.badKernel = some k ∧ exec .kcommit s = .next (s.withFault 6 (BitVec.ofNat 32 k)) := by
  by_cases hl : s.cfgLogn.toNat < 1 ∨ s.params.lognMax < s.cfgLogn.toNat
  · exact .inl ⟨hl, execKcommit_badLogn hl⟩
  have ⟨hl1, hl⟩ : 1 ≤ s.cfgLogn.toNat ∧ s.cfgLogn.toNat ≤ s.params.lognMax := by omega
  by_cases hn : s.cfgNumk.toNat < 1 ∨ s.params.kmax < s.cfgNumk.toNat
  · exact .inr (.inl ⟨hn, execKcommit_badNumk hl1 hl hn⟩)
  have ⟨hn1, hn⟩ : 1 ≤ s.cfgNumk.toNat ∧ s.cfgNumk.toNat ≤ s.params.kmax := by omega
  cases hk : s.badKernel with
  | none => exact absurd ⟨⟨hl1, hl⟩, ⟨hn1, hn⟩, State.badKernel_none.1 hk⟩ h
  | some k => exact .inr (.inr ⟨k, rfl, execKcommit_badKernel hl1 hl hn1 hn hk⟩)

/-- Settles O24: a command with ERR = 1 at its end failed a check, and the first that failed gives the code and the info. -/
theorem faultsHaveTheListedCauses : Obligations.FaultsHaveTheListedCauses := by
  constructor
  · intro w s t he hd h
    obtain ⟨hw, rfl⟩ := issue_undecodable he hd h
    exact ⟨rfl, rfl, rfl, hw⟩
  intro i s t he h hf
  have hfail := not_passes_of_err he h hf
  by_cases hstale : readyOnly i ∧ s.ready = false
  · obtain ⟨hi, hr⟩ := hstale
    cases (exec_stale hi hr).symm.trans h
    exact .inr (.inl ⟨rfl, rfl, hi, hr⟩)
  have hready (hi : readyOnly i) : s.ready = true := by simpa [hi] using hstale
  cases i with
  | nop => exact absurd trivial hfail
  | cfftF n | cfftI n =>
    have hn : s.params.lognMax < n := Nat.not_le.1 hfail
    cases (runCfft_badLength hn _ _).symm.trans h
    exact .inl ⟨rfl, rfl, n, .inl ⟨by simp, hn⟩⟩
  | rfftF n | rfftI n =>
    have hn : n = 0 ∨ s.params.lognMax < n := by
      simp only [State.passes] at hfail
      omega
    cases (runRfft_badLength hn _ _).symm.trans h
    exact .inl ⟨rfl, rfl, n, .inr ⟨by simp, hn⟩⟩
  | cmul =>
    cases hc : cmulFault s with
    | none => exact absurd hc hfail
    | some info =>
      cases (execCmul_fault hc).symm.trans h
      refine .inr (.inr (.inl ⟨rfl, ?_⟩))
      obtain ⟨rfl, ha⟩ | ⟨rfl, -, hb⟩ | ⟨rfl, -, -, hd⟩ := cmulFault_some s info hc
      · exact .inl ⟨rfl, rfl, ha⟩
      · exact .inr (.inl ⟨rfl, rfl, hb⟩)
      · exact .inr (.inr (.inl ⟨rfl, rfl, hd⟩))
  | conv =>
    have hready := hready (by simp [readyOnly])
    have hout : s.outputFits = false := by simpa [State.passes, hready] using hfail
    cases (execConv_badOutput hready hout).symm.trans h
    exact .inr (.inr (.inl ⟨rfl, .inr (.inr (.inr (.inr (.inl ⟨.inl rfl, rfl, s.outputFits_eq_false_iff.1 hout⟩))))⟩))
  | pack =>
    have hready := hready (by simp [readyOnly])
    have hin : s.inputFits = false := by simpa [State.passes, hready] using hfail
    cases (exec_badInput hready (.inl rfl) hin).symm.trans h
    exact .inr (.inr (.inl ⟨rfl, .inr (.inr (.inr (.inl ⟨.inl rfl, rfl, s.inputFits_eq_false_iff.1 hin⟩)))⟩))
  | xform =>
    have hready := hready (by simp [readyOnly])
    cases hin : s.inputFits with
    | false =>
      cases (exec_badInput hready (.inr rfl) hin).symm.trans h
      exact .inr (.inr (.inl ⟨rfl, .inr (.inr (.inr (.inl ⟨.inr rfl, rfl, s.inputFits_eq_false_iff.1 hin⟩)))⟩))
    | true =>
      have hout : s.outputFits = false := by simpa [State.passes, hready, hin] using hfail
      cases (execXform_badOutput hready hin hout).symm.trans h
      exact .inr (.inr (.inl ⟨rfl, .inr (.inr (.inr (.inr (.inl ⟨.inr rfl, rfl, s.outputFits_eq_false_iff.1 hout⟩))))⟩))
  | kcommit =>
    obtain ⟨hl, hx⟩ | ⟨hn, hx⟩ | ⟨k, hk, hx⟩ := execKcommit_fault hfail
    · cases hx.symm.trans h
      exact .inr (.inr (.inr (.inl ⟨rfl, rfl, .inl ⟨rfl, hl⟩⟩)))
    · cases hx.symm.trans h
      exact .inr (.inr (.inr (.inl ⟨rfl, rfl, .inr ⟨rfl, hn⟩⟩)))
    · cases hx.symm.trans h
      obtain ⟨hlt, hbad, hlow⟩ := State.badKernel_some hk
      exact .inr (.inr (.inr (.inr ⟨rfl, rfl, k, hlt, rfl, (Descriptor.legal_eq_false_iff ..).1 hbad, hlow⟩)))
  | kfreq =>
    have hready := hready (by simp [readyOnly])
    have hidx : s.cfgNumk.toNat ≤ s.idx.toNat := by simpa [State.passes, hready] using hfail
    cases ((kfreqReadsTheBandFrequency s).2.2 hready hidx).symm.trans h
    exact .inr (.inr (.inl ⟨rfl, .inr (.inr (.inr (.inr (.inr ⟨rfl, rfl, hidx⟩))))⟩))

end Sys2Proof.Machine
end

section
/-! PROOFS. The state after reset and the reset event (R290 to R292). -/

namespace Sys2Proof.Machine

open Sys2Proof.Config

/-- Every register reads 0 in the reset state (R291). -/
theorem State.reset_readReg (r : Reg) : State.reset.readReg r = 0 := by
  cases r <;> decide

/-- The reset event leaves every register but RES as in the reset state (R290, R291). -/
theorem State.afterReset_readReg {r : Reg} (h : r ≠ .res) (s : State) : s.afterReset.readReg r = State.reset.readReg r := by
  cases r with
  | res => exact absurd rfl h
  | _ => rfl

/-- Settles O17: the step is `afterReset`, whose memories nothing has written. -/
theorem resetEventForgetsEverything : Obligations.ResetEventForgetsEverything := by
  intro s rest h
  refine ⟨State.afterReset { s with host := rest }, step_reset h,
    fun r hr => (State.afterReset_readReg hr _).trans (State.reset_readReg r), rfl, fun sp i => ?_, rfl, rfl⟩
  rw [State.afterReset_mem, Mem.read_unwritten]

/-- No memory has been written at reset (R292). -/
theorem State.reset_mem (sp : Space) : State.reset.mem sp = Mem.unwritten sp 0 := by
  cases sp <;> rfl

/-- Settles O16: the registers and the ROM's rows are closed values, and a word of a memory that nothing has written is free. -/
theorem resetLeavesTheListedValues : Obligations.ResetLeavesTheListedValues := by
  refine ⟨⟨rfl, rfl, rfl, rfl, rfl⟩, ⟨rfl, rfl, rfl, rfl, rfl, rfl, rfl, rfl, rfl, rfl, rfl⟩, ⟨rfl, rfl⟩, rfl, rfl,
    fun sp i => ?_, step_idle rfl⟩
  rw [State.reset_mem, Mem.read_unwritten]

/-- The recommended parameters meet R7's constraints. -/
theorem recommended_valid : recommended.Valid := by decide

/-- Settles O18: the memories are empty, no fault is recorded, and the engine is Stale. -/
theorem invariantHoldsAtReset : Obligations.InvariantHoldsAtReset :=
  ⟨recommended_valid, rfl, rfl, ⟨fun _ => ⟨rfl, rfl⟩, fun he => by cases he⟩, fun hready => by cases hready⟩

end Sys2Proof.Machine
end
